-- ==== Sys2Proof/Word.lean ====
section
/-! DEFINITION. The two widths the spec works in (00_scope.md R6): a byte of 8 bits and a 32-bit word, both unsigned. -/

namespace Sys2Proof

/-- A byte, 8 bits (R6); as an operand of a GF command it is a field element (R124). -/
abbrev Byte := BitVec 8

/-- A 32-bit word: a host register, a command word (R90), the data of a host access (R60). -/
abbrev Word := BitVec 32

end Sys2Proof
end

