-- ==== Sys2Proof/Config.lean ====
section
/-! DEFINITION. What is fixed for one machine (00_scope.md R5) and what the spec leaves open: the two configuration
fields DIGEST_FN and DIGEST_X (OPEN-1, OPEN-2), the random-byte port's answers (OPEN-3), the PHASE that a pending
recombine shows (R233) and how far a command that reset abandons has drawn (R341). -/

namespace Sys2Proof

/-- The two parameters a model takes as configuration fields (R5; 92_eei_decisions.md OPEN-1, OPEN-2). The values this
hardware takes are `Sys2Proof.Machine.hwConfig`. -/
structure Config where
  /-- DIGEST_FN (R192): secret (L bytes), then salt (L − 4 bytes), to 4 bytes; total and deterministic. -/
  digestFn : List Byte → List Byte → Vector Byte 4
  /-- DIGEST_X (R160): the x-coordinate of the digest share. -/
  digestX : Byte

/-- R160: "A model that takes DIGEST_X as a parameter must restrict it to 17..255". -/
abbrev Config.Legal (cfg : Config) : Prop := 17 ≤ cfg.digestX.toNat

/-- What the random-byte port does with one draw (R45, R311). -/
inductive PortAnswer where
  /-- The port delivers this byte. -/
  | byte (b : Byte)
  /-- The port signals unavailability (R45, R307). -/
  | unavailable
  /-- The port never answers (R311; 93_implementation_defined.md I8): the command stays pending for ever. -/
  | silent
deriving DecidableEq, Repr, Inhabited

/-- How far a pending SSKR_RECOMBINE has come, as STATUS.PHASE shows it (R233). -/
inductive RecombineProgress where
  | collecting
  | groupsQualifying
  | outerReady
deriving DecidableEq, Repr, Inhabited

/-- FREE VALUE (R45, OPEN-3: "a byte or unavailable, under no law"): the port's answer to draw `n` where no answer is
listed in the state. Nothing constrains it. Log entry 1. -/
opaque Config.portAnswer : Nat → PortAnswer

/-- FREE VALUE (R233, I10: "any value of {2, 3, 4}, non-decreasing over one command"): how far a pending recombine has
come at observation `n`. Nothing constrains it. Log entry 2. -/
opaque Config.recombineProgress : Nat → RecombineProgress

/-- FREE VALUE (R341: "bytes it drew are discarded"): how many of its draws a command that reset abandons has made, where
its completion step has not come to an unanswered one. Nothing constrains it; `State.abandonedDraws` bounds it by the
draws the command makes. Log entry 18. -/
opaque Config.abandonedDraws : Nat → Nat

/-- ID_VALUE (R5, R21): the constant the ID register reads, ASCII "SKR1". -/
abbrev Config.idValue : Word := 0x534B5231#32

/-- FIELD_POLY (R5, R121): x^8 + x^4 + x^3 + x + 1. -/
abbrev Config.fieldPoly : BitVec 16 := 0x11B#16

/-- MAX_POINTS (R5): entries of the point table. -/
abbrev Config.maxPoints : Nat := 16

/-- MAX_GROUPS (R5). -/
abbrev Config.maxGroups : Nat := 16

/-- MAX_MEMBERS (R5). -/
abbrev Config.maxMembers : Nat := 16

/-- MAX_SHARES (R5): slots of the share RAM. -/
abbrev Config.maxShares : Nat := 256

/-- SLOT_BYTES (R5): bytes of one share slot. -/
abbrev Config.slotBytes : Nat := 64

/-- DIGEST_LEN (R5). -/
abbrev Config.digestLen : Nat := 4

/-- SALT_LEN (R5) for a secret of `L` bytes. -/
abbrev Config.saltLen (L : Nat) : Nat := L - Config.digestLen

end Sys2Proof
end

