-- ==== Sys2Proof/Syntax.lean ====
section
/-! DEFINITION. The fourteen commands (30_encoding.md R92), the four byte fields of a command word (R90), the six
formats (R91) and the opcode map as a table of masks and patterns (R92). -/

namespace Sys2Proof

/-- One constructor per row of the opcode map (R92). Field elements and the slot number are bytes; thresholds and
counts are numbers, which `Instr.wellFormed` bounds by the byte that carries them (R93, R98). -/
inductive Instr where
  /-- NOP (R280). -/
  | nop
  /-- GF_ADD a, b (R125). -/
  | gfAdd (a b : Byte)
  /-- GF_MUL a, b (R126). -/
  | gfMul (a b : Byte)
  /-- GF_INV a (R127). -/
  | gfInv (a : Byte)
  /-- LAGR_EVAL n, x (R142): number of points, evaluation coordinate. -/
  | lagrEval (n : Nat) (x : Byte)
  /-- SHAMIR_SPLIT t, c and SHAMIR_SPLIT.DG t, c (R166): threshold, share count, digest mode. -/
  | shamirSplit (t c : Nat) (dg : Bool)
  /-- SHAMIR_RECOMBINE t, n and SHAMIR_RECOMBINE.DG t, n (R167): threshold, number of points, digest mode. -/
  | shamirRecombine (t n : Nat) (dg : Bool)
  /-- DIGEST_MAKE (R193). -/
  | digestMake
  /-- DIGEST_VERIFY (R194). -/
  | digestVerify
  /-- SSKR_SPLIT (R215). -/
  | sskrSplit
  /-- SSKR_RECOMBINE (R232). -/
  | sskrRecombine
  /-- SHARE_ENCODE k (R256). -/
  | shareEncode (k : Byte)
  /-- SHARE_DECODE k (R257). -/
  | shareDecode (k : Byte)
  /-- ZEROIZE (R281). -/
  | zeroize
deriving DecidableEq, Repr

/-- The pseudo-command GF_SUB a, b (R99). -/
abbrev Instr.gfSub (a b : Byte) : Instr := .gfAdd a b

/-- The pseudo-command GF_SQR a (R99). -/
abbrev Instr.gfSqr (a : Byte) : Instr := .gfMul a a

/-- The pseudo-command LAGR_AT0 n (R99). -/
abbrev Instr.lagrAt0 (n : Nat) : Instr := .lagrEval n 0x00#8

/-- The four byte fields of a command word (R90): OPC [7:0], A [15:8], B [23:16], C [31:24]. -/
structure CommandWord where
  opc : Byte
  a : Byte
  b : Byte
  c : Byte
deriving DecidableEq, Repr

/-- The fields of a 32-bit word (R90). -/
def CommandWord.ofWord (w : Word) : CommandWord where
  opc := w.extractLsb' 0 8
  a := w.extractLsb' 8 8
  b := w.extractLsb' 16 8
  c := w.extractLsb' 24 8

/-- The word with the given fields (R90, R98: `OPC + 256·A + 65536·B + 16777216·C`). -/
def CommandWord.toWord (f : CommandWord) : Word := f.c ++ f.b ++ f.a ++ f.opc

/-- The six formats (R91). -/
inductive Format where
  /-- Z: A, B and C are 0. -/
  | z
  /-- G2: two field elements; C is 0. -/
  | g2
  /-- G1: one field element; B and C are 0. -/
  | g1
  /-- L: number of points and coordinate; C is 0. -/
  | l
  /-- S: threshold and count; C carries the DG flag in bit 0 and 0 elsewhere. -/
  | s
  /-- K: share slot; B and C are 0. -/
  | k
deriving DecidableEq, Repr

/-- The opcodes of the opcode map, as names (R92). -/
inductive Opcode where
  | nop | gfAdd | gfMul | gfInv | lagrEval | shamirSplit | shamirRecombine
  | digestMake | digestVerify | sskrSplit | sskrRecombine | shareEncode | shareDecode | zeroize
deriving DecidableEq, Repr

/-- The column OPC of the opcode map (R92). -/
def Opcode.toByte : Opcode → Byte
  | .nop => 0x00#8
  | .gfAdd => 0x01#8
  | .gfMul => 0x02#8
  | .gfInv => 0x03#8
  | .lagrEval => 0x10#8
  | .shamirSplit => 0x20#8
  | .shamirRecombine => 0x21#8
  | .digestMake => 0x30#8
  | .digestVerify => 0x31#8
  | .sskrSplit => 0x40#8
  | .sskrRecombine => 0x41#8
  | .shareEncode => 0x50#8
  | .shareDecode => 0x51#8
  | .zeroize => 0xFF#8

/-- The column format of the opcode map (R92). -/
def Opcode.format : Opcode → Format
  | .nop => .z
  | .gfAdd => .g2
  | .gfMul => .g2
  | .gfInv => .g1
  | .lagrEval => .l
  | .shamirSplit => .s
  | .shamirRecombine => .s
  | .digestMake => .z
  | .digestVerify => .z
  | .sskrSplit => .z
  | .sskrRecombine => .z
  | .shareEncode => .k
  | .shareDecode => .k
  | .zeroize => .z

/-- The opcode an instruction has (R92). -/
def Instr.opcode : Instr → Opcode
  | .nop => .nop
  | .gfAdd _ _ => .gfAdd
  | .gfMul _ _ => .gfMul
  | .gfInv _ => .gfInv
  | .lagrEval _ _ => .lagrEval
  | .shamirSplit _ _ _ => .shamirSplit
  | .shamirRecombine _ _ _ => .shamirRecombine
  | .digestMake => .digestMake
  | .digestVerify => .digestVerify
  | .sskrSplit => .sskrSplit
  | .sskrRecombine => .sskrRecombine
  | .shareEncode _ => .shareEncode
  | .shareDecode _ => .shareDecode
  | .zeroize => .zeroize

/-- One row of the opcode map (R92): a word `w` is the row's command when `w and mask = pattern`. -/
structure OpcodeRow where
  opcode : Opcode
  pattern : Word
  mask : Word
deriving DecidableEq, Repr

/-- The opcode map with its columns match and mask (R92), in the spec's order. -/
def opcodeMap : List OpcodeRow :=
  [⟨.nop, 0x00000000#32, 0xFFFFFFFF#32⟩,
   ⟨.gfAdd, 0x00000001#32, 0xFF0000FF#32⟩,
   ⟨.gfMul, 0x00000002#32, 0xFF0000FF#32⟩,
   ⟨.gfInv, 0x00000003#32, 0xFFFF00FF#32⟩,
   ⟨.lagrEval, 0x00000010#32, 0xFF0000FF#32⟩,
   ⟨.shamirSplit, 0x00000020#32, 0xFE0000FF#32⟩,
   ⟨.shamirRecombine, 0x00000021#32, 0xFE0000FF#32⟩,
   ⟨.digestMake, 0x00000030#32, 0xFFFFFFFF#32⟩,
   ⟨.digestVerify, 0x00000031#32, 0xFFFFFFFF#32⟩,
   ⟨.sskrSplit, 0x00000040#32, 0xFFFFFFFF#32⟩,
   ⟨.sskrRecombine, 0x00000041#32, 0xFFFFFFFF#32⟩,
   ⟨.shareEncode, 0x00000050#32, 0xFFFF00FF#32⟩,
   ⟨.shareDecode, 0x00000051#32, 0xFFFF00FF#32⟩,
   ⟨.zeroize, 0x000000FF#32, 0xFFFFFFFF#32⟩]

/-- A word is the command of a row (R92). -/
def OpcodeRow.selects (r : OpcodeRow) (w : Word) : Bool := w &&& r.mask == r.pattern

end Sys2Proof
end

