-- ==== Sys2Proof/WellFormed.lean ====
section
/-! DEFINITION. Which instructions an encoding exists for (30_encoding.md R93, R98) and which words have their
must-be-zero fields zero (R91, R94). The value ranges that a command accepts are no part of either (R93). -/

namespace Sys2Proof

/-- A number that fits the byte field carrying it: "each a decimal or hexadecimal number 0..255" (R98). -/
def fitsByte (n : Nat) : Bool := decide (n < 256)

/-- Every count operand fits its byte field (R93, R98); the byte operands fit by their type. -/
def Instr.wellFormed : Instr → Bool
  | .nop => true
  | .gfAdd _ _ => true
  | .gfMul _ _ => true
  | .gfInv _ => true
  | .lagrEval n _ => fitsByte n
  | .shamirSplit t c _ => fitsByte t && fitsByte c
  | .shamirRecombine t n _ => fitsByte t && fitsByte n
  | .digestMake => true
  | .digestVerify => true
  | .sskrSplit => true
  | .sskrRecombine => true
  | .shareEncode _ => true
  | .shareDecode _ => true
  | .zeroize => true

/-- The fields marked 0 in the format's row are zero (R91, R94); in format S these are C[7:1]. -/
def Format.mustBeZeroOk : Format → CommandWord → Bool
  | .z, f => f.a == 0#8 && f.b == 0#8 && f.c == 0#8
  | .g2, f => f.c == 0#8
  | .g1, f => f.b == 0#8 && f.c == 0#8
  | .l, f => f.c == 0#8
  | .s, f => f.c &&& 0xFE#8 == 0#8
  | .k, f => f.b == 0#8 && f.c == 0#8

end Sys2Proof
end

