-- ==== Sys2Proof/Decode.lean ====
section
/-! DEFINITION. The decoder, total on every 32-bit word and rejecting by name (30_encoding.md R90 to R97), and the
encoder, written from the same tables (R91, R92, R98). -/

namespace Sys2Proof

/-- Why a word is illegal (R94, R95). -/
inductive Illegal where
  /-- The OPC is not in the opcode map (R95). -/
  | unassignedOpcode (opc : Byte)
  /-- The OPC is assigned and a must-be-zero field is not zero (R94). -/
  | mustBeZero (op : Opcode)
deriving DecidableEq, Repr

/-- The opcode with the given OPC, by the opcode map (R92); none for the unassigned ones (R95). -/
def decodeOpcode (opc : Byte) : Option Opcode :=
  match opc.toNat with
  | 0x00 => some .nop
  | 0x01 => some .gfAdd
  | 0x02 => some .gfMul
  | 0x03 => some .gfInv
  | 0x10 => some .lagrEval
  | 0x20 => some .shamirSplit
  | 0x21 => some .shamirRecombine
  | 0x30 => some .digestMake
  | 0x31 => some .digestVerify
  | 0x40 => some .sskrSplit
  | 0x41 => some .sskrRecombine
  | 0x50 => some .shareEncode
  | 0x51 => some .shareDecode
  | 0xFF => some .zeroize
  | _ => none

/-- The instruction of an opcode with the operand fields A, B, C (R91, R93): counts are zero-extended and DG is C[0]. -/
def assembleInstr (op : Opcode) (f : CommandWord) : Instr :=
  match op with
  | .nop => .nop
  | .gfAdd => .gfAdd f.a f.b
  | .gfMul => .gfMul f.a f.b
  | .gfInv => .gfInv f.a
  | .lagrEval => .lagrEval f.a.toNat f.b
  | .shamirSplit => .shamirSplit f.a.toNat f.b.toNat (f.c.getLsbD 0)
  | .shamirRecombine => .shamirRecombine f.a.toNat f.b.toNat (f.c.getLsbD 0)
  | .digestMake => .digestMake
  | .digestVerify => .digestVerify
  | .sskrSplit => .sskrSplit
  | .sskrRecombine => .sskrRecombine
  | .shareEncode => .shareEncode f.a
  | .shareDecode => .shareDecode f.a
  | .zeroize => .zeroize

/-- R90: "A decoder selects the command by OPC alone and then checks the must-be-zero fields of rule R94". -/
def decodeFields (f : CommandWord) : Except Illegal Instr :=
  match decodeOpcode f.opc with
  | none => .error (.unassignedOpcode f.opc)
  | some op => if op.format.mustBeZeroOk f then .ok (assembleInstr op f) else .error (.mustBeZero op)

/-- The command of a 32-bit word, or why it is illegal (R97: decoding is total). -/
def decode (w : Word) : Except Illegal Instr := decodeFields (CommandWord.ofWord w)

/-- The DG flag in field C (R91, format S; R93). -/
def encodeDigestFlag (dg : Bool) : Byte := if dg then 0x01#8 else 0x00#8

/-- The operand fields of an instruction (R91, R98). -/
def encodeFields (i : Instr) : CommandWord :=
  match i with
  | .nop => ⟨i.opcode.toByte, 0#8, 0#8, 0#8⟩
  | .gfAdd a b => ⟨i.opcode.toByte, a, b, 0#8⟩
  | .gfMul a b => ⟨i.opcode.toByte, a, b, 0#8⟩
  | .gfInv a => ⟨i.opcode.toByte, a, 0#8, 0#8⟩
  | .lagrEval n x => ⟨i.opcode.toByte, BitVec.ofNat 8 n, x, 0#8⟩
  | .shamirSplit t c dg => ⟨i.opcode.toByte, BitVec.ofNat 8 t, BitVec.ofNat 8 c, encodeDigestFlag dg⟩
  | .shamirRecombine t n dg => ⟨i.opcode.toByte, BitVec.ofNat 8 t, BitVec.ofNat 8 n, encodeDigestFlag dg⟩
  | .digestMake => ⟨i.opcode.toByte, 0#8, 0#8, 0#8⟩
  | .digestVerify => ⟨i.opcode.toByte, 0#8, 0#8, 0#8⟩
  | .sskrSplit => ⟨i.opcode.toByte, 0#8, 0#8, 0#8⟩
  | .sskrRecombine => ⟨i.opcode.toByte, 0#8, 0#8, 0#8⟩
  | .shareEncode k => ⟨i.opcode.toByte, k, 0#8, 0#8⟩
  | .shareDecode k => ⟨i.opcode.toByte, k, 0#8, 0#8⟩
  | .zeroize => ⟨i.opcode.toByte, 0#8, 0#8, 0#8⟩

/-- The command word of an instruction (R98). -/
def encode (i : Instr) : Word := (encodeFields i).toWord

/-- The word whose bits are `w`, of which the table gives `nbits`; every bit above them is 0. A command word is one
32-bit datum of the host bus (R90), so there is no byte order to undo. -/
def tableWord (nbits w : Nat) : Word := BitVec.ofNat 32 (w % 2 ^ nbits)

/-- The instruction the decoder reads from an opcode-table word (none where it refuses). -/
def decodeTableWord (nbits w : Nat) : Option Instr :=
  match decode (tableWord nbits w) with
  | .ok i => some i
  | .error _ => none

end Sys2Proof
end

