-- ==== Sys2Proof/Machine/State.lean ====
section
/-! DEFINITION. The machine's state (10_state.md R20 to R49) as plain data, the environment the model carries beside it
(the host's accesses, the random-byte port, who moves next), the reasons a step can stop, and the state after reset. -/

namespace Sys2Proof.Machine

open Sys2Proof

/-- STATUS.PHASE (R23). -/
inductive Phase where
  /-- 0: no command issued since reset. -/
  | idle
  /-- 1: a command other than SSKR_RECOMBINE in progress. -/
  | executing
  /-- 2: SSKR_RECOMBINE in progress. -/
  | collecting
  /-- 3: SSKR_RECOMBINE in progress. -/
  | groupsQualifying
  /-- 4: SSKR_RECOMBINE in progress. -/
  | outerReady
  /-- 5: SSKR_RECOMBINE completed with success. -/
  | verified
  /-- 6: any other command completed with success. -/
  | complete
  /-- 7: any command completed with an error. -/
  | failed
deriving DecidableEq, Repr

/-- The eleven error codes (60_exceptions.md R302); code 0 is the absence of one. -/
inductive ErrCode where
  | invalidParameters
  | insufficientShares
  | duplicateShare
  | inconsistentParameters
  | mixedShareSets
  | checksumMismatch
  | truncatedShare
  | randomnessUnavailable
  | reservedNonZero
  | domainError
  | illegalCommand
deriving DecidableEq, Repr

/-- CTRL (R22); the reserved bits have no storage (R34). -/
structure Ctrl where
  strict : Bool
  ie : Bool
  len : BitVec 6
deriving DecidableEq, Repr

/-- STATUS (R23). ERR is a function of ERRCODE (R42) and has no storage; ERRCODE is none for code 0. -/
structure Status where
  busy : Bool
  done : Bool
  phase : Phase
  errcode : Option ErrCode
  lastop : Byte
deriving DecidableEq, Repr

/-- HDR (R28). -/
structure Hdr where
  gt : Byte
  gc : Byte
  gi : Byte
  mt : Byte
deriving DecidableEq, Repr

/-- HDR2 (R29). -/
structure Hdr2 where
  mi : Byte
  rsv : BitVec 4
  plen : Byte
deriving DecidableEq, Repr

/-- SPLITCFG (R30). -/
structure SplitCfg where
  gt : Byte
  gc : Byte
deriving DecidableEq, Repr

/-- One GSPEC register (R33). -/
structure GroupSpec where
  mt : Byte
  mc : Byte
deriving DecidableEq, Repr

/-- The buffers' bytes by bus offset, sparse: strictly rising offsets and no entry equal to what an unlisted offset
reads as (`Memory.wf`). -/
abbrev Memory := List Host.Cell

/-- What a buffer byte that is not listed reads as: its reset contents (R49, R340: every buffer byte resets to 0). -/
def unlistedByte : Byte := 0x00#8

/-- The width of a host access (R60). -/
inductive Width where
  | byte
  | half
  | word
deriving DecidableEq, Repr

/-- Bytes of a host access (R60). -/
def Width.bytes : Width → Nat
  | .byte => 1
  | .half => 2
  | .word => 4

/-- One line of a host program (R60, R104), or the reset input (R340). -/
inductive HostOp where
  /-- `MemRead(addr, n)` (R63). -/
  | read (addr : BitVec 16) (width : Width)
  /-- `MemWrite(addr, n, v)` (R63); only the low n bytes of `data` travel. -/
  | write (addr : BitVec 16) (width : Width) (data : Word)
  /-- WAIT (R104): read STATUS until BUSY = 0. -/
  | wait
  /-- The reset input is asserted (R340). -/
  | reset
deriving DecidableEq, Repr

/-- How an access completed (R60). -/
inductive BusResponse where
  /-- OKAY for a read, with its data. -/
  | readOkay (data : Word)
  /-- OKAY for a write. -/
  | writeOkay
  /-- ERROR: no effect on any state; a read returns 0. -/
  | error
deriving DecidableEq, Repr

/-- The two agents that take steps (R3); the third, the random-byte port, answers within an engine step. -/
inductive Agent where
  | host
  | engine
deriving DecidableEq, Repr

/-- What is still to come from the random-byte port (R45): answers listed in order, and after them the free values
`Config.portAnswer freeDraws`, `Config.portAnswer (freeDraws + 1)`, … The MODEL's own data: the hardware keeps no state
of the port. -/
structure Port where
  answers : List PortAnswer
  freeDraws : Nat
deriving DecidableEq, Repr

/-- The state. The first block is the hardware's (R20); the second is the model's own record of the environment. ID and
CMD have no storage: ID is constant (R21) and a CMD write goes to LATCH (R24, R43). -/
structure State where
  /-- CTRL (R22). -/
  ctrl : Ctrl
  /-- STATUS (R23). -/
  status : Status
  /-- RESULT.R (R25). -/
  result : Byte
  /-- ERRINFO.INFO (R26). -/
  errinfo : BitVec 16
  /-- IDENT.ID (R27). -/
  ident : BitVec 16
  /-- HDR (R28). -/
  hdr : Hdr
  /-- HDR2 (R29). -/
  hdr2 : Hdr2
  /-- SPLITCFG (R30). -/
  splitcfg : SplitCfg
  /-- SHARECNT.N (R31). -/
  sharecnt : BitVec 16
  /-- RNGCNT (R32). -/
  rngcnt : Word
  /-- GSPEC[0..16) (R33). -/
  gspec : Vector GroupSpec 16
  /-- The buffers SECRET, PX, PY, RBUF, SLEN and SHARE (R36 to R41), at their bus offsets (R61). -/
  mem : Memory
  /-- LATCH (R43): the command word captured at issue; none when empty. -/
  latch : Option Word
  /-- The interrupt line (R46). -/
  irq : Bool
  /-- MODEL: what is still to come from the random-byte port (R45). -/
  port : Port
  /-- MODEL: the host's program, next line first (R104). -/
  inputs : List HostOp
  /-- MODEL: who moves in the coming steps; when empty, the engine if a command is pending, else the host. -/
  schedule : List Agent
  /-- MODEL: how the host's accesses completed, latest first (R60). -/
  responses : List BusResponse
  /-- MODEL: how many of the host's lines have met a pending command; it indexes the free values
  `Config.recombineProgress` (R233) and `Config.abandonedDraws` (R341). -/
  observations : Nat
  /-- MODEL: how many draws the pending command is known to have made without completing: 0 from its issue on, and once
  the port has left it without an answer (R311), the bytes delivered and the unanswered draw. Reset discards them
  (R341). -/
  drawn : Nat
deriving DecidableEq, Repr

/-- Why the machine stops with a fault. -/
inductive Fault where
  /-- Raised by the engine's step when STATUS.BUSY = 1 and LATCH is empty. No run from reset reaches such a state (issue
  sets both and completion clears both, R300, R301). Safe: the model stops. Log entry 7. -/
  | latchEmpty
deriving DecidableEq, Repr

/-- Why an instruction has no meaning. -/
inductive Refusal where
  /-- Raised by an arm of `exec` whose instruction is not modelled yet; no arm raises it now. Safe: the model stops. -/
  | notModelled (mnemonic : String)
deriving DecidableEq, Repr

/-- The state after reset (R49, R340). The environment is the MODEL's: no answer of the port is listed, so every draw is
a free value; the host has nothing to do; nobody is scheduled. Log entries 1 to 4 and 8. -/
def State.reset : State where
  ctrl := ⟨false, false, 0#6⟩
  status := ⟨false, false, .idle, none, 0x00#8⟩
  result := 0x00#8
  errinfo := 0xFFFF#16
  ident := 0x0000#16
  hdr := ⟨0x00#8, 0x00#8, 0x00#8, 0x00#8⟩
  hdr2 := ⟨0x00#8, 0#4, 0x00#8⟩
  splitcfg := ⟨0x00#8, 0x00#8⟩
  sharecnt := 0x0000#16
  rngcnt := 0#32
  gspec := Vector.replicate 16 ⟨0x00#8, 0x00#8⟩
  mem := []
  latch := none
  irq := false
  port := ⟨[], 0⟩
  inputs := []
  schedule := []
  responses := []
  observations := 0
  drawn := 0

end Sys2Proof.Machine
end

