-- ==== Sys2Proof/Machine/Field.lean ====
section
/-! DEFINITION. GF(256) arithmetic (41_gf_arith.md R120 to R124), polynomials over it (43_shamir.md R161, R162) and
Lagrange interpolation of byte vectors (42_lagrange.md R140). -/

namespace Sys2Proof.Machine

open Sys2Proof

/-- `a ⊕ b` (R120): bitwise XOR; subtraction is the same operation. -/
def gfAdd (a b : Byte) : Byte := a ^^^ b

/-- The first loop of R121 for i in 0..n: `if b[i] = 1 then r <- r XOR (zext_16(a) << i)`, from r = 0. -/
def gfProduct (a b : Byte) : Nat → BitVec 16
  | 0 => 0#16
  | i + 1 => if b.getLsbD i then gfProduct a b i ^^^ (a.zeroExtend 16 <<< i) else gfProduct a b i

/-- The second loop of R121 for i in (n + 7) down to 8: `if r[i] = 1 then r <- r XOR (0x11B << (i − 8))`. -/
def gfReduce (r : BitVec 16) : Nat → BitVec 16
  | 0 => r
  | i + 1 => gfReduce (if r.getLsbD (i + 8) then r ^^^ (Config.fieldPoly <<< i) else r) i

/-- `a ⊗ b` (R121). -/
def gfMul (a b : Byte) : Byte := (gfReduce (gfProduct a b 8) 8).truncate 8

/-- `a^k` under ⊗, with `a^0 = 1` (R8). -/
def gfPow (a : Byte) : Nat → Byte
  | 0 => 0x01#8
  | k + 1 => gfMul (gfPow a k) a

/-- `inv(a) = a^254` (R122), computed as a^2 ⊗ a^4 ⊗ … ⊗ a^128. `inv(0)` has no value; no rule applies inv to 0, and
GF_INV reports it (R127). -/
def gfInv (a : Byte) : Byte :=
  let a2 := gfMul a a
  let a4 := gfMul a2 a2
  let a8 := gfMul a4 a4
  let a16 := gfMul a8 a8
  let a32 := gfMul a16 a16
  let a64 := gfMul a32 a32
  let a128 := gfMul a64 a64
  gfMul (gfMul (gfMul a2 a4) (gfMul a8 a16)) (gfMul (gfMul a32 a64) a128)

/-- The ⊕ of a list of field elements; 0 for the empty one. -/
def gfSum : List Byte → Byte
  | [] => 0x00#8
  | a :: as => gfAdd a (gfSum as)

/-- The ⊗ of a list of field elements; 1 for the empty one (R140: "the empty product equal to 1"). -/
def gfProd : List Byte → Byte
  | [] => 0x01#8
  | a :: as => gfMul a (gfProd as)

/-- Byte `p` of a byte vector; 0 past its end. -/
def byteAt (v : List Byte) (p : Nat) : Byte := v.getD p 0x00#8

/-- Byte `p` of `⊕ over k of (a_k ⊗ x^k)`, for the coefficient vectors `a_0, a_1, …` (R161, R162). -/
def polyByte (coeffs : List (List Byte)) (x : Byte) (p : Nat) : Byte :=
  gfSum ((List.range coeffs.length).map fun k => gfMul (byteAt (coeffs.getD k []) p) (gfPow x k))

/-- The value at `x` of the polynomial with the given coefficient vectors, for each of `L` byte positions (R161). -/
def polyEval (coeffs : List (List Byte)) (x : Byte) (L : Nat) : List Byte :=
  (List.range L).map (polyByte coeffs x)

/-- A point (R9): an x-coordinate and a y-vector. -/
structure Point where
  x : Byte
  y : List Byte
deriving DecidableEq, Repr

/-- `basis_i(x)` of R140 for the point at `xi`. The rule's product over j ≠ i is taken over the coordinates that differ
from `xi`, which are the same points because the coordinates are pairwise distinct. -/
def lagrangeBasis (xs : List Byte) (xi x : Byte) : Byte :=
  gfMul (gfProd ((xs.filter (· != xi)).map fun xj => gfAdd x xj))
    (gfInv (gfProd ((xs.filter (· != xi)).map fun xj => gfAdd xi xj)))

/-- `V[p]` of R140. -/
def interpByte (pts : List Point) (x : Byte) (p : Nat) : Byte :=
  gfSum (pts.map fun pt => gfMul (byteAt pt.y p) (lagrangeBasis (pts.map Point.x) pt.x x))

/-- `Interp(n, xs, ys, x)` (R140) over `L` byte positions. -/
def interp (pts : List Point) (x : Byte) (L : Nat) : List Byte :=
  (List.range L).map (interpByte pts x)

end Sys2Proof.Machine
end

