-- ==== Sys2Proof/Machine/Flags.lean ====
section
/-! DEFINITION. The numbers the STATUS fields read as (10_state.md R23, 60_exceptions.md R302), the flags computed from
them (R42) and the interrupt line (R46). -/

namespace Sys2Proof.Machine

open Sys2Proof

/-- The 3-bit value of a phase (R23). -/
def Phase.code : Phase → BitVec 3
  | .idle => 0#3
  | .executing => 1#3
  | .collecting => 2#3
  | .groupsQualifying => 3#3
  | .outerReady => 4#3
  | .verified => 5#3
  | .complete => 6#3
  | .failed => 7#3

/-- The number of an error code (R302). -/
def ErrCode.code : ErrCode → Byte
  | .invalidParameters => 1#8
  | .insufficientShares => 2#8
  | .duplicateShare => 3#8
  | .inconsistentParameters => 4#8
  | .mixedShareSets => 5#8
  | .checksumMismatch => 6#8
  | .truncatedShare => 7#8
  | .randomnessUnavailable => 8#8
  | .reservedNonZero => 9#8
  | .domainError => 10#8
  | .illegalCommand => 11#8

/-- STATUS.ERRCODE: 0 for success (R23, R302). -/
def errcodeField : Option ErrCode → Byte
  | none => 0#8
  | some e => e.code

/-- STATUS.ERR: 1 exactly when ERRCODE ≠ 0 (R23, R42). -/
def errFlag (st : Status) : Bool := errcodeField st.errcode != 0#8

/-- The STATUS word (R23): {0, LASTOP, ERRCODE, 0, PHASE, 0, ERR, DONE, BUSY}. -/
def statusWord (st : Status) : Word :=
  0#8 ++ st.lastop ++ errcodeField st.errcode ++ 0#1 ++ st.phase.code ++ 0#1 ++
    BitVec.ofBool (errFlag st) ++ BitVec.ofBool st.done ++ BitVec.ofBool st.busy

/-- The level of the interrupt line: STATUS.DONE and CTRL.IE (R46). -/
def irqLevel (done ie : Bool) : Bool := done && ie

/-- PHASE at issue (R300): COLLECTING for the legal SSKR_RECOMBINE word, else EXECUTING. -/
def issuePhase (w : Word) : Phase := if w = 0x00000041#32 then .collecting else .executing

/-- STATUS after issue of `w` (R300). -/
def issueStatus (w : Word) : Status where
  busy := true
  done := false
  phase := issuePhase w
  errcode := none
  lastop := w.extractLsb' 0 8

/-- STATUS after completion with a phase and an error code (R301). -/
def completionStatus (st : Status) (ph : Phase) (e : Option ErrCode) : Status :=
  { st with busy := false, done := true, phase := ph, errcode := e }

/-- The PHASE that follows a phase and a free draw of the progress (R233): it never falls back, and only the phases of a
pending recombine move. -/
def progressPhase : Phase → RecombineProgress → Phase
  | .collecting, .groupsQualifying => .groupsQualifying
  | .collecting, .outerReady => .outerReady
  | .groupsQualifying, .outerReady => .outerReady
  | ph, _ => ph

end Sys2Proof.Machine
end

