-- ==== Sys2Proof/Machine/Sha256.lean ====
section
/-! DEFINITION. HMAC-SHA-256 (RFC 2104 with FIPS 180-4 SHA-256), the construction that 44_checksum.md R192 names for
this hardware's DIGEST_FN. The spec names it and does not spell it out (general knowledge, 93_implementation_defined.md
G5): log entry 5. Checked against the digests the spec lists (95_test_vectors.md H1, H3, H8). -/

namespace Sys2Proof.Machine

open Sys2Proof

/-- The 64 round constants of SHA-256. -/
def shaConstants : List Word :=
  [0x428a2f98#32, 0x71374491#32, 0xb5c0fbcf#32, 0xe9b5dba5#32, 0x3956c25b#32, 0x59f111f1#32, 0x923f82a4#32, 0xab1c5ed5#32] ++
  [0xd807aa98#32, 0x12835b01#32, 0x243185be#32, 0x550c7dc3#32, 0x72be5d74#32, 0x80deb1fe#32, 0x9bdc06a7#32, 0xc19bf174#32] ++
  [0xe49b69c1#32, 0xefbe4786#32, 0x0fc19dc6#32, 0x240ca1cc#32, 0x2de92c6f#32, 0x4a7484aa#32, 0x5cb0a9dc#32, 0x76f988da#32] ++
  [0x983e5152#32, 0xa831c66d#32, 0xb00327c8#32, 0xbf597fc7#32, 0xc6e00bf3#32, 0xd5a79147#32, 0x06ca6351#32, 0x14292967#32] ++
  [0x27b70a85#32, 0x2e1b2138#32, 0x4d2c6dfc#32, 0x53380d13#32, 0x650a7354#32, 0x766a0abb#32, 0x81c2c92e#32, 0x92722c85#32] ++
  [0xa2bfe8a1#32, 0xa81a664b#32, 0xc24b8b70#32, 0xc76c51a3#32, 0xd192e819#32, 0xd6990624#32, 0xf40e3585#32, 0x106aa070#32] ++
  [0x19a4c116#32, 0x1e376c08#32, 0x2748774c#32, 0x34b0bcb5#32, 0x391c0cb3#32, 0x4ed8aa4a#32, 0x5b9cca4f#32, 0x682e6ff3#32] ++
  [0x748f82ee#32, 0x78a5636f#32, 0x84c87814#32, 0x8cc70208#32, 0x90befffa#32, 0xa4506ceb#32, 0xbef9a3f7#32, 0xc67178f2#32]

/-- The eight working variables of SHA-256. -/
structure ShaState where
  a : Word
  b : Word
  c : Word
  d : Word
  e : Word
  f : Word
  g : Word
  h : Word
deriving DecidableEq, Repr

/-- The initial hash value of SHA-256. -/
def shaInitial : ShaState :=
  ⟨0x6a09e667#32, 0xbb67ae85#32, 0x3c6ef372#32, 0xa54ff53a#32, 0x510e527f#32, 0x9b05688c#32, 0x1f83d9ab#32, 0x5be0cd19#32⟩

/-- The function Σ0 on the working variable a. -/
def shaSum0 (x : Word) : Word := x.rotateRight 2 ^^^ x.rotateRight 13 ^^^ x.rotateRight 22

/-- The function Σ1 on the working variable e. -/
def shaSum1 (x : Word) : Word := x.rotateRight 6 ^^^ x.rotateRight 11 ^^^ x.rotateRight 25

/-- The function σ0 of the message schedule. -/
def shaSmall0 (x : Word) : Word := x.rotateRight 7 ^^^ x.rotateRight 18 ^^^ x >>> 3

/-- The function σ1 of the message schedule. -/
def shaSmall1 (x : Word) : Word := x.rotateRight 17 ^^^ x.rotateRight 19 ^^^ x >>> 10

/-- One round, with its constant and its schedule word. -/
def shaRound (st : ShaState) (k w : Word) : ShaState :=
  let t1 := st.h + shaSum1 st.e + ((st.e &&& st.f) ^^^ (~~~st.e &&& st.g)) + k + w
  let t2 := shaSum0 st.a + ((st.a &&& st.b) ^^^ (st.a &&& st.c) ^^^ (st.b &&& st.c))
  ⟨t1 + t2, st.a, st.b, st.c, st.d + t1, st.e, st.f, st.g⟩

/-- The schedule word that follows a window of sixteen. -/
def shaNextWord (window : List Word) : Word :=
  shaSmall1 (window.getD 14 0#32) + window.getD 9 0#32 + shaSmall0 (window.getD 1 0#32) + window.getD 0 0#32

/-- The rounds for the remaining constants; `window` holds the next sixteen schedule words. -/
def shaRounds : List Word → List Word → ShaState → ShaState
  | [], _, st => st
  | k :: ks, window, st => shaRounds ks (window.tail ++ [shaNextWord window]) (shaRound st k (window.getD 0 0#32))

/-- The hash value after one block of sixteen words. -/
def shaBlock (st : ShaState) (block : List Word) : ShaState :=
  let r := shaRounds shaConstants block st
  ⟨st.a + r.a, st.b + r.b, st.c + r.c, st.d + r.d, st.e + r.e, st.f + r.f, st.g + r.g, st.h + r.h⟩

/-- Bytes to words, most significant byte first; a trailing part of a word is dropped. -/
def shaWords : List Byte → List Word
  | b0 :: b1 :: b2 :: b3 :: rest => (b0 ++ b1 ++ b2 ++ b3) :: shaWords rest
  | _ => []

/-- The bytes of a word, most significant first. -/
def shaWordBytes (w : Word) : List Byte :=
  [w.extractLsb' 24 8, w.extractLsb' 16 8, w.extractLsb' 8 8, w.extractLsb' 0 8]

/-- The padded message: 0x80, zeros up to 8 bytes short of a multiple of 64, the length in bits as 8 bytes. -/
def shaPad (msg : List Byte) : List Byte :=
  let lenBits : BitVec 64 := BitVec.ofNat 64 (8 * msg.length)
  msg ++ [0x80#8] ++ List.replicate ((119 - msg.length % 64) % 64) 0x00#8 ++
    shaWordBytes (lenBits.extractLsb' 32 32) ++ shaWordBytes (lenBits.extractLsb' 0 32)

/-- The hash value after the first `n` blocks of a list of words. -/
def shaBlocks : Nat → List Word → ShaState → ShaState
  | 0, _, st => st
  | n + 1, ws, st => shaBlocks n (ws.drop 16) (shaBlock st (ws.take 16))

/-- SHA-256 (FIPS 180-4): 32 bytes. -/
def sha256 (msg : List Byte) : List Byte :=
  let ws := shaWords (shaPad msg)
  let r := shaBlocks (ws.length / 16) ws shaInitial
  shaWordBytes r.a ++ shaWordBytes r.b ++ shaWordBytes r.c ++ shaWordBytes r.d ++
    shaWordBytes r.e ++ shaWordBytes r.f ++ shaWordBytes r.g ++ shaWordBytes r.h

/-- HMAC-SHA-256 (RFC 2104), with block length 64; a longer key is hashed first. -/
def hmacSha256 (key msg : List Byte) : List Byte :=
  let key0 := if 64 < key.length then sha256 key else key
  let padded := key0 ++ List.replicate (64 - key0.length) 0x00#8
  sha256 (padded.map (· ^^^ 0x5c#8) ++ sha256 (padded.map (· ^^^ 0x36#8) ++ msg))

/-- This hardware's DIGEST_FN (R192): the first 4 bytes of HMAC-SHA-256(key = salt, message = secret). -/
def hmacDigest (secret salt : List Byte) : Vector Byte 4 :=
  let h := hmacSha256 salt secret
  #v[h.getD 0 0x00#8, h.getD 1 0x00#8, h.getD 2 0x00#8, h.getD 3 0x00#8]

end Sys2Proof.Machine
end

