-- ==== Sys2Proof/Machine/Ops.lean ====
section
/-! DEFINITION. The operations the meanings share: this hardware's configuration, the buffers and their bytes
(10_state.md R36 to R41, 20_memory.md R61), draws from the random-byte port (R45), issue (60_exceptions.md R300), and
completion: the normal end of a command, and ending it by `raise` (R301, R303), which is what this hardware has for
taking an exception; clearing DONE stands for the return (R310). -/

namespace Sys2Proof.Machine

open Sys2Proof

/-- The values this hardware takes for the two configuration fields (R5; 92_eei_decisions.md D10, D12). -/
def hwConfig : Config where
  digestFn := hmacDigest
  digestX := 0xFE#8

/-! ### Buffers -/

/-- The six byte buffers (R36 to R41). -/
inductive Buffer where
  | secret
  | px
  | py
  | rbuf
  | slen
  | share
deriving DecidableEq, Repr

/-- The bus offset of a buffer's first byte (R61). -/
def Buffer.base : Buffer → Nat
  | .secret => 0x0100
  | .px => 0x0180
  | .py => 0x0200
  | .rbuf => 0x0400
  | .slen => 0x0800
  | .share => 0x4000

/-- The number of bytes of a buffer (R36 to R41). -/
def Buffer.size : Buffer → Nat
  | .secret => 32
  | .px => 16
  | .py => 512
  | .rbuf => 32
  | .slen => 256
  | .share => 16384

/-- The six buffers in ascending offset. -/
def Buffer.all : List Buffer := [.secret, .px, .py, .rbuf, .slen, .share]

/-- The bytes `a .. a+n−1` lie in the buffer (R62). -/
def Buffer.holds (b : Buffer) (a n : Nat) : Bool := decide (b.base ≤ a) && decide (a + n ≤ b.base + b.size)

/-- Some buffer holds the byte at offset `a`. -/
def isBufferByte (a : Nat) : Bool := Buffer.all.any fun b => b.holds a 1

/-- The offset of PX[i] (R37). -/
def pxAddr (i : Nat) : Nat := Buffer.px.base + i

/-- The offset of PY[i][0] (R38). -/
def pyAddr (i : Nat) : Nat := Buffer.py.base + 32 * i

/-- The offset of SLEN[k] (R40). -/
def slenAddr (k : Nat) : Nat := Buffer.slen.base + k

/-- The offset of SHARE[k][0] (R41). -/
def shareAddr (k : Nat) : Nat := Buffer.share.base + Config.slotBytes * k

/-- The canonical form from offset `lo` on: offsets strictly rise from `lo` and no entry is what an unlisted offset
reads as. -/
def Memory.wfFrom (lo : Nat) : Memory → Bool
  | [] => true
  | (a, b) :: rest => decide (lo ≤ a) && b != unlistedByte && Memory.wfFrom (a + 1) rest

/-- The canonical form: equal memories are equal lists. -/
def Memory.wf (m : Memory) : Bool := Memory.wfFrom 0 m

/-- Every listed offset belongs to a buffer (R61). -/
def Memory.inBuffers (m : Memory) : Bool := m.all fun c => isBufferByte c.1

/-- The byte at an offset. -/
def Memory.read (m : Memory) (a : Nat) : Byte :=
  match m with
  | [] => unlistedByte
  | (k, b) :: rest => if k = a then b else Memory.read rest a

/-- The `n` bytes from an offset on. -/
def Memory.readBytes (m : Memory) (base n : Nat) : List Byte :=
  (List.range n).map fun j => Memory.read m (base + j)

/-- The entries that list the given bytes from an offset on. -/
def Memory.cells (base : Nat) : List Byte → Memory
  | [] => []
  | b :: bs => if b = unlistedByte then Memory.cells (base + 1) bs else (base, b) :: Memory.cells (base + 1) bs

/-- The memory with the given bytes stored from an offset on, and nothing else changed. -/
def Memory.writeBytes (m : Memory) (base : Nat) (bs : List Byte) : Memory :=
  m.filter (fun c => decide (c.1 < base)) ++ (Memory.cells base bs ++
    m.filter (fun c => decide (base + bs.length ≤ c.1)))

/-- The memory with `n` zero bytes stored from an offset on, and nothing else changed. -/
def Memory.clear (m : Memory) (base n : Nat) : Memory :=
  m.filter fun c => decide (c.1 < base) || decide (base + n ≤ c.1)

/-- A byte vector followed by zeros up to `n` bytes. -/
def padTo (n : Nat) (v : List Byte) : List Byte := v ++ List.replicate (n - v.length) 0x00#8

/-- The state with bytes stored in the buffers from an offset on. -/
def State.store (s : State) (base : Nat) (bs : List Byte) : State :=
  { s with mem := s.mem.writeBytes base bs }

/-- The memory with a whole buffer written 0. -/
def Memory.clearBuffer (m : Memory) (b : Buffer) : Memory := m.clear b.base b.size

/-- The state with a whole buffer written 0. -/
def State.clearBuffer (s : State) (b : Buffer) : State := { s with mem := s.mem.clearBuffer b }

/-! ### The random-byte port -/

/-- Where a command's drawing has come to: what is still to come from the port, and the bytes it has delivered. -/
structure Drawing where
  port : Port
  count : Nat
deriving DecidableEq, Repr

/-- What a computation that draws ends in. -/
inductive DrawResult (α : Type) where
  /-- Every draw was answered with a byte. -/
  | drawn (a : α) (d : Drawing)
  /-- The port refused a draw (R45); the drawing says what was delivered before it. -/
  | unavailable (d : Drawing)
  /-- The port does not answer a draw (R311); the drawing says what was delivered before it, and what is to come after
  the unanswered draw. -/
  | silent (d : Drawing)
deriving DecidableEq, Repr

/-- Go on with the value drawn. -/
def DrawResult.andThen {α β : Type} (r : DrawResult α) (f : α → Drawing → DrawResult β) : DrawResult β :=
  match r with
  | .drawn a d => f a d
  | .unavailable d => .unavailable d
  | .silent d => .silent d

/-- The port's next answer and what is to come after it; past the listed answers it is a free value (R45, OPEN-3). -/
def Port.next (p : Port) : PortAnswer × Port :=
  match p.answers with
  | a :: rest => (a, { p with answers := rest })
  | [] => (Config.portAnswer p.freeDraws, { p with freeDraws := p.freeDraws + 1 })

/-- What is still to come from the port after `n` more draws. -/
def Port.skip (p : Port) (n : Nat) : Port := ⟨p.answers.drop n, p.freeDraws + (n - p.answers.length)⟩

/-- How many draws lead from the port's stream `p` to what is left of it in `q`. -/
def Port.drawsTo (p q : Port) : Nat := (p.answers.length - q.answers.length) + (q.freeDraws - p.freeDraws)

/-- `RandomByte()` (R45): the next byte, counted; a refused draw does not count (R32). -/
def drawByte (d : Drawing) : DrawResult Byte :=
  match d.port.next with
  | (.byte b, p) => .drawn b ⟨p, d.count + 1⟩
  | (.unavailable, p) => .unavailable ⟨p, d.count⟩
  | (.silent, p) => .silent ⟨p, d.count⟩

/-- `DrawVector(m)` (R161): m bytes in index order. -/
def drawVector (m : Nat) (d : Drawing) : DrawResult (List Byte) :=
  match m with
  | 0 => .drawn [] d
  | m + 1 => (drawByte d).andThen fun b d1 => (drawVector m d1).andThen fun bs d2 => .drawn (b :: bs) d2

/-- `n` vectors of `m` bytes, one after the other (R161, R163). -/
def drawVectors (n m : Nat) (d : Drawing) : DrawResult (List (List Byte)) :=
  match n with
  | 0 => .drawn [] d
  | n + 1 => (drawVector m d).andThen fun v d1 => (drawVectors n m d1).andThen fun vs d2 => .drawn (v :: vs) d2

/-- The start of a command's drawing. -/
def State.drawing (s : State) : Drawing := ⟨s.port, 0⟩

/-- The state after a command's drawing: RNGCNT counts the bytes delivered (R32). -/
def State.afterDrawing (s : State) (d : Drawing) : State :=
  { s with port := d.port, rngcnt := s.rngcnt + BitVec.ofNat 32 d.count }

/-! ### Errors -/

/-- `raise E(info)` (R303). -/
structure Raised where
  err : ErrCode
  info : BitVec 16
deriving DecidableEq, Repr

/-- ERRINFO for an error about the command as a whole (R26). -/
def infoCommand : BitVec 16 := 0xFFFF#16

/-- ERRINFO for share slot k (R26). -/
def infoSlot (k : Nat) : BitVec 16 := BitVec.ofNat 16 k

/-- ERRINFO for point table entry i (R26). -/
def infoPoint (i : Nat) : BitVec 16 := BitVec.ofNat 16 (0x0100 + i)

/-- ERRINFO for group g (R26). -/
def infoGroup (g : Nat) : BitVec 16 := BitVec.ofNat 16 (0x1000 + g)

/-- ERRINFO for the outer level of a recombine (R26). -/
def infoOuter : BitVec 16 := 0x2000#16

/-! ### Issue, completion, reset -/

/-- Command issue of `w` (R300): no buffer is read or written. -/
def State.issue (s : State) (w : Word) : State :=
  { s with
    latch := some w
    status := issueStatus w
    errinfo := infoCommand
    rngcnt := 0#32
    irq := irqLevel false s.ctrl.ie
    drawn := 0 }

/-- The normal end of a command (R301 (a)). -/
def State.completeOk (s : State) (ph : Phase) : State :=
  { s with status := completionStatus s.status ph none, latch := none, irq := irqLevel true s.ctrl.ie }

/-- The end of a command by `raise` (R301 (b)): the analogue of taking an exception (R308). It records the cause in
ERRCODE, the failing item in ERRINFO and the phase FAILED; nothing else is saved. -/
def State.completeRaised (s : State) (r : Raised) : State :=
  { s with
    status := completionStatus s.status .failed (some r.err)
    errinfo := r.info
    latch := none
    irq := irqLevel true s.ctrl.ie }

/-- The host's acknowledgement, writing 1 to STATUS.DONE (R23, R309, R310): the analogue of the return. -/
def State.clearDone (s : State) : State :=
  { s with status := { s.status with done := false }, irq := irqLevel false s.ctrl.ie }

/-- What a command's body ends in (R301). -/
inductive Body where
  /-- It ends normally with this state, its writes in it. -/
  | commit (t : State)
  /-- It raises; the state is the one before the command but for the port and RNGCNT (R303). -/
  | raise (t : State) (r : Raised)
  /-- The port does not answer: the command stays pending (R311). -/
  | hang (d : Drawing)
deriving DecidableEq, Repr

/-- The completion step around a body (R301): commit, or discard the writes and apply the command's failure writes
(R304). A command whose port does not answer stays pending (R311); only the model's record of its draws changes: the bytes
delivered and the unanswered draw. -/
def conclude (s : State) (ph : Phase) (failureWrites : State → State) (b : Body) : Host.Outcome State Fault Refusal :=
  match b with
  | .commit t => .next (t.completeOk ph)
  | .raise t r => .next ((failureWrites t).completeRaised r)
  | .hang d => .next { s with drawn := d.count + 1 }

/-- The body that ends with the value drawn, or by RandomnessUnavailable(0xFFFF), or not at all (R45, R311). -/
def drawBody {α : Type} (s : State) (r : DrawResult α) (k : α → State → State) : Body :=
  match r with
  | .drawn a d => .commit (k a (s.afterDrawing d))
  | .unavailable d => .raise (s.afterDrawing d) ⟨.randomnessUnavailable, infoCommand⟩
  | .silent d => .hang d

/-! ### Output writes -/

/-- RESULT.R <- v (R25). -/
def writeResult (v : Byte) (s : State) : State := { s with result := v }

/-- SECRET as the recombine commands write it (R36, R167, R231): S, then zeros. -/
def writeSecret (S : List Byte) (s : State) : State := s.store Buffer.secret.base (padTo 32 S)

/-- RBUF as LAGR_EVAL and SHARE_DECODE write it (R39): V, then zeros. -/
def writeRbuf (V : List Byte) (s : State) : State := s.store Buffer.rbuf.base (padTo 32 V)

/-! ### Failure writes (R304) -/

/-- GF_ADD, GF_MUL, NOP and ZEROIZE, which cannot fail, DIGEST_VERIFY and an illegal word: nothing. -/
def wipeNothing (s : State) : State := s

/-- GF_INV: RESULT.R <- 0. -/
def wipeResult (s : State) : State := writeResult 0x00#8 s

/-- SHAMIR_RECOMBINE and SSKR_RECOMBINE: SECRET[0..32) <- 0. -/
def wipeSecret (s : State) : State := s.clearBuffer .secret

/-- LAGR_EVAL and DIGEST_MAKE: RBUF[0..32) <- 0. -/
def wipeRbuf (s : State) : State := s.clearBuffer .rbuf

/-- SHAMIR_SPLIT: PX[0..16) <- 0; PY[0..16)[0..32) <- 0. -/
def wipePoints (s : State) : State := { s with mem := (s.mem.clearBuffer .px).clearBuffer .py }

/-- SSKR_SPLIT: SHARE <- 0; SLEN <- 0; SHARECNT <- 0; IDENT <- 0. -/
def wipeShares (s : State) : State :=
  { s with mem := (s.mem.clearBuffer .share).clearBuffer .slen, sharecnt := 0#16, ident := 0#16 }

/-- SHARE_ENCODE k: SHARE[k][0..64) <- 0; SLEN[k] <- 0. -/
def wipeSlot (k : Byte) (s : State) : State :=
  { s with mem := (s.mem.clear (shareAddr k.toNat) Config.slotBytes).clear (slenAddr k.toNat) 1 }

/-- SHARE_DECODE: IDENT <- 0; HDR <- 0; HDR2 <- 0; RBUF[0..32) <- 0. -/
def wipeDecoded (s : State) : State :=
  { s with
    mem := s.mem.clearBuffer .rbuf
    ident := 0#16
    hdr := ⟨0#8, 0#8, 0#8, 0#8⟩
    hdr2 := ⟨0#8, 0#4, 0#8⟩ }

end Sys2Proof.Machine
end

