-- ==== Sys2Proof/Machine/Operands.lean ====
section
/-! DEFINITION. What the commands read: the length and its check (10_state.md R35), the buffers' vectors (R36 to R41),
the points of the point table (R142, R167) and the split specification (45_sskr.md R210). -/

namespace Sys2Proof.Machine

open Sys2Proof

/-- `LenOK(L)` (R35). -/
def lenOK (L : Nat) : Bool := L % 2 == 0 && decide (16 ≤ L) && decide (L ≤ 32)

/-- L = CTRL.LEN as a number (R22). -/
def State.len (s : State) : Nat := s.ctrl.len.toNat

/-- SECRET[0..L) (R36). -/
def State.secretVec (s : State) (L : Nat) : List Byte := s.mem.readBytes Buffer.secret.base L

/-- RBUF[0..L) (R39). -/
def State.rbufVec (s : State) (L : Nat) : List Byte := s.mem.readBytes Buffer.rbuf.base L

/-- The salt RBUF[4..L) (R193). -/
def State.rbufSalt (s : State) (L : Nat) : List Byte :=
  s.mem.readBytes (Buffer.rbuf.base + Config.digestLen) (Config.saltLen L)

/-- PX[i] (R37). -/
def State.px (s : State) (i : Nat) : Byte := s.mem.read (pxAddr i)

/-- PY[i][0..L) (R38). -/
def State.pyVec (s : State) (i L : Nat) : List Byte := s.mem.readBytes (pyAddr i) L

/-- The points (PX[i], PY[i][0..L)) for i in 0..n (R142, R167). -/
def State.points (s : State) (n L : Nat) : List Point :=
  (List.range n).map fun i => ⟨s.px i, s.pyVec i L⟩

/-- SLEN[k] (R40). -/
def State.slen (s : State) (k : Nat) : Nat := (s.mem.read (slenAddr k)).toNat

/-- SHARE[k][0..64) (R41). -/
def State.shareSlot (s : State) (k : Nat) : List Byte := s.mem.readBytes (shareAddr k) Config.slotBytes

/-- GSPEC[g] (R33); only g in 0..16 exist, and no command reads another. -/
def State.groupSpec (s : State) (g : Nat) : GroupSpec :=
  if h : g < 16 then s.gspec[g] else ⟨0x00#8, 0x00#8⟩

/-- The first i in 0..n, ascending, whose PX[i] equals an earlier PX[j] (R142). -/
def State.firstRepeatedX (s : State) (n : Nat) : Option Nat :=
  (List.range n).find? fun i => (List.range i).any fun j => s.px j == s.px i

/-- The first i in 0..n, ascending, whose PX[i] is no share coordinate 1..16 (R167). -/
def State.firstBadX (s : State) (n : Nat) : Option Nat :=
  (List.range n).find? fun i => decide ((s.px i).toNat < 1) || decide (16 < (s.px i).toNat)

end Sys2Proof.Machine
end

