-- ==== Sys2Proof/Machine/Shamir.lean ====
section
/-! DEFINITION. The digest share (44_checksum.md R190, R191), the Shamir primitive (43_shamir.md R160 to R165), used at
both levels of the hierarchy, and the commands SHAMIR_SPLIT and SHAMIR_RECOMBINE (R166, R167). -/

namespace Sys2Proof.Machine

open Sys2Proof

/-! ### The digest share -/

/-- `DigestShare(S, salt) = DIGEST_FN(S, salt) ‖ salt` (R190). -/
def digestShare (cfg : Config) (S salt : List Byte) : List Byte := (cfg.digestFn S salt).toList ++ salt

/-- `VerifyDigestShare(S, E)`: `E[0..4) = DIGEST_FN(S, E[4..L))` (R191). -/
def verifyDigestShare (cfg : Config) (S E : List Byte) : Bool :=
  E.take Config.digestLen == (cfg.digestFn S (E.drop Config.digestLen)).toList

/-! ### Split -/

/-- The x-coordinate of the share of index i (R160): i + 1. -/
def shareX (i : Nat) : Byte := BitVec.ofNat 8 (i + 1)

/-- The y-vectors of the shares 0..c of the polynomial with the given coefficient vectors (R161). -/
def shareVectors (coeffs : List (List Byte)) (c L : Nat) : List (List Byte) :=
  (List.range c).map fun i => polyEval coeffs (shareX i) L

/-- Byte p of the top coefficient in digest mode (R161):
`(E[p] ⊕ S[p] ⊕ (⊕ over k in 1..t−1 of (DIGEST_X^k ⊗ r_k[p]))) ⊗ inv(DIGEST_X^(t−1))`, where `rs` is r_1, …, r_{t−2}. -/
def topCoefficientByte (cfg : Config) (t : Nat) (S E : List Byte) (rs : List (List Byte)) (p : Nat) : Byte :=
  gfMul
    (gfAdd (gfAdd (byteAt E p) (byteAt S p))
      (gfSum ((List.range (t - 2)).map fun j => gfMul (gfPow cfg.digestX (j + 1)) (byteAt (rs.getD j []) p))))
    (gfInv (gfPow cfg.digestX (t - 1)))

/-- The top coefficient vector a_{t−1} in digest mode (R161). -/
def topCoefficient (cfg : Config) (t : Nat) (S E : List Byte) (rs : List (List Byte)) : List Byte :=
  (List.range S.length).map (topCoefficientByte cfg t S E rs)

/-- `ShamirSplit(t, c, dg, S)` (R161): c y-vectors, drawing as R163 says. -/
def shamirSplit (cfg : Config) (t c : Nat) (dg : Bool) (S : List Byte) (d : Drawing) : DrawResult (List (List Byte)) :=
  if t = 1 then .drawn (List.replicate c S) d
  else if dg then
    (drawVector (Config.saltLen S.length) d).andThen fun salt d1 =>
      (drawVectors (t - 2) S.length d1).andThen fun rs d2 =>
        .drawn (shareVectors (S :: (rs ++ [topCoefficient cfg t S (digestShare cfg S salt) rs])) c S.length) d2
  else
    (drawVectors (t - 1) S.length d).andThen fun rs d1 => .drawn (shareVectors (S :: rs) c S.length) d1

/-! ### Recombine -/

/-- R164's selection: the points in list order, without one whose x is already among `seen` or selected before it. -/
def selectDistinct (seen : List Byte) : List Point → List Point
  | [] => []
  | pt :: pts => if seen.contains pt.x then selectDistinct seen pts else pt :: selectDistinct (pt.x :: seen) pts

/-- What R164 computes from the t points it has selected. -/
def recombineSelected (cfg : Config) (t : Nat) (Q : List Point) (dg : Bool) (L : Nat) (info : BitVec 16) :
    Except Raised (List Byte) :=
  if t = 1 then .ok ((Q.map Point.y).headD [])
  else if dg && !verifyDigestShare cfg (interp Q 0x00#8 L) (interp Q cfg.digestX L) then
    .error ⟨.checksumMismatch, info⟩
  else .ok (interp Q 0x00#8 L)

/-- `ShamirRecombine(t, P, dg, info)` (R164) over vectors of L bytes. -/
def shamirRecombine (cfg : Config) (t : Nat) (P : List Point) (dg : Bool) (L : Nat) (info : BitVec 16) :
    Except Raised (List Byte) :=
  if (selectDistinct [] P).length < t then .error ⟨.insufficientShares, info⟩
  else recombineSelected cfg t ((selectDistinct [] P).take t) dg L info

/-! ### Commands -/

/-- PX and PY as SHAMIR_SPLIT writes them (R166): entry i < c holds (i + 1, Y[i] ‖ zeros), every other entry is 0. -/
def writePoints (L c : Nat) (Y : List (List Byte)) (s : State) : State :=
  { s with
    mem :=
      (s.mem.writeBytes Buffer.px.base ((List.range 16).map fun i => if i < c then shareX i else 0x00#8)).writeBytes
        Buffer.py.base ((List.range 16).flatMap fun i => padTo 32 (if i < c then (Y.getD i []).take L else [])) }

/-- The body of SHAMIR_SPLIT (R166). -/
def shamirSplitBody (cfg : Config) (t c : Nat) (dg : Bool) (s : State) : Body :=
  if !lenOK s.len then .raise s ⟨.invalidParameters, infoCommand⟩
  else if t < 1 ∨ 16 < t ∨ c < t ∨ 16 < c then .raise s ⟨.invalidParameters, infoCommand⟩
  else drawBody s (shamirSplit cfg t c dg (s.secretVec s.len) s.drawing) (writePoints s.len c)

/-- SHAMIR_SPLIT t, c and SHAMIR_SPLIT.DG t, c (R166). -/
def execShamirSplit (t c : Nat) (dg : Bool) (s : State) : Host.Outcome State Fault Refusal :=
  conclude s .complete wipePoints (shamirSplitBody hwConfig t c dg s)

/-- The body of SHAMIR_RECOMBINE (R167). -/
def shamirRecombineBody (cfg : Config) (t n : Nat) (dg : Bool) (s : State) : Body :=
  if !lenOK s.len then .raise s ⟨.invalidParameters, infoCommand⟩
  else if t < 1 ∨ 16 < t ∨ 16 < n then .raise s ⟨.invalidParameters, infoCommand⟩
  else
    match s.firstBadX n with
    | some i => .raise s ⟨.invalidParameters, infoPoint i⟩
    | none =>
      match shamirRecombine cfg t (s.points n s.len) dg s.len infoCommand with
      | .ok S => .commit (writeSecret S s)
      | .error r => .raise s r

/-- SHAMIR_RECOMBINE t, n and SHAMIR_RECOMBINE.DG t, n (R167). -/
def execShamirRecombine (t n : Nat) (dg : Bool) (s : State) : Host.Outcome State Fault Refusal :=
  conclude s .complete wipeSecret (shamirRecombineBody hwConfig t n dg s)

end Sys2Proof.Machine
end

