-- ==== Sys2Proof/Machine/Checksum.lean ====
section
/-! DEFINITION. The checksum commands DIGEST_MAKE and DIGEST_VERIFY (44_checksum.md R193, R194). -/

namespace Sys2Proof.Machine

open Sys2Proof

/-- RBUF as DIGEST_MAKE writes it (R193): RBUF[0..4) <- the digest and RBUF[L..32) <- 0; RBUF[4..L) is unchanged. -/
def writeDigest (L : Nat) (digest : List Byte) (s : State) : State :=
  { s with mem := (s.mem.writeBytes Buffer.rbuf.base digest).clear (Buffer.rbuf.base + L) (32 - L) }

/-- The body of DIGEST_MAKE (R193). -/
def digestMakeBody (cfg : Config) (s : State) : Body :=
  if !lenOK s.len then .raise s ⟨.invalidParameters, infoCommand⟩
  else .commit (writeDigest s.len (cfg.digestFn (s.secretVec s.len) (s.rbufSalt s.len)).toList s)

/-- DIGEST_MAKE (R193). -/
def execDigestMake (s : State) : Host.Outcome State Fault Refusal :=
  conclude s .complete wipeRbuf (digestMakeBody hwConfig s)

/-- The body of DIGEST_VERIFY (R194): it writes no buffer. -/
def digestVerifyBody (cfg : Config) (s : State) : Body :=
  if !lenOK s.len then .raise s ⟨.invalidParameters, infoCommand⟩
  else if !verifyDigestShare cfg (s.secretVec s.len) (s.rbufVec s.len) then .raise s ⟨.checksumMismatch, infoCommand⟩
  else .commit s

/-- DIGEST_VERIFY (R194); on failure nothing is written (R304). -/
def execDigestVerify (s : State) : Host.Outcome State Fault Refusal :=
  conclude s .complete wipeNothing (digestVerifyBody hwConfig s)

end Sys2Proof.Machine
end

