-- ==== Sys2Proof/Machine/Control.lean ====
section
/-! DEFINITION. The control commands NOP and ZEROIZE (47_control.md R280, R281), and how an illegal word completes
(30_encoding.md R96). -/

namespace Sys2Proof.Machine

open Sys2Proof

/-- NOP (R280): no effect beyond the command frame. -/
def execNop (s : State) : Host.Outcome State Fault Refusal := conclude s .complete wipeNothing (.commit s)

/-- What ZEROIZE writes (R281): every buffer byte, SHARECNT, IDENT, HDR, HDR2 and RESULT to 0; CTRL, SPLITCFG and GSPEC
are kept. -/
def zeroizeState (s : State) : State :=
  { s with
    mem := Buffer.all.foldl Memory.clearBuffer s.mem
    sharecnt := 0#16
    ident := 0#16
    hdr := ⟨0#8, 0#8, 0#8, 0#8⟩
    hdr2 := ⟨0#8, 0#4, 0#8⟩
    result := 0#8 }

/-- ZEROIZE (R281). -/
def execZeroize (s : State) : Host.Outcome State Fault Refusal :=
  conclude s .complete wipeNothing (.commit (zeroizeState s))

/-- The completion of an illegal word (R96): IllegalCommand(0xFFFF), and no buffer or register but STATUS and ERRINFO is
read or written. -/
def execIllegal (s : State) : Host.Outcome State Fault Refusal :=
  conclude s .complete wipeNothing (.raise s ⟨.illegalCommand, infoCommand⟩)

end Sys2Proof.Machine
end

