-- ==== Sys2Proof/Machine/GfArith.lean ====
section
/-! DEFINITION. The field arithmetic commands GF_ADD, GF_MUL and GF_INV (41_gf_arith.md R125 to R127). -/

namespace Sys2Proof.Machine

open Sys2Proof

/-- GF_ADD a, b (R125). -/
def execGfAdd (a b : Byte) (s : State) : Host.Outcome State Fault Refusal :=
  conclude s .complete wipeNothing (.commit (writeResult (gfAdd a b) s))

/-- GF_MUL a, b (R126). -/
def execGfMul (a b : Byte) (s : State) : Host.Outcome State Fault Refusal :=
  conclude s .complete wipeNothing (.commit (writeResult (gfMul a b) s))

/-- The body of GF_INV (R127): DomainError for 0. -/
def gfInvBody (a : Byte) (s : State) : Body :=
  if a = 0x00#8 then .raise s ⟨.domainError, infoCommand⟩ else .commit (writeResult (gfInv a) s)

/-- GF_INV a (R127); on failure RESULT.R <- 0 (R304). -/
def execGfInv (a : Byte) (s : State) : Host.Outcome State Fault Refusal :=
  conclude s .complete wipeResult (gfInvBody a s)

end Sys2Proof.Machine
end

