-- ==== Sys2Proof/Machine/Lagrange.lean ====
section
/-! DEFINITION. The interpolator command LAGR_EVAL (42_lagrange.md R142). -/

namespace Sys2Proof.Machine

open Sys2Proof

/-- The body of LAGR_EVAL (R142). -/
def lagrEvalBody (n : Nat) (x : Byte) (s : State) : Body :=
  if !lenOK s.len then .raise s ⟨.invalidParameters, infoCommand⟩
  else if n = 0 ∨ Config.maxPoints < n then .raise s ⟨.invalidParameters, infoCommand⟩
  else
    match s.firstRepeatedX n with
    | some i => .raise s ⟨.invalidParameters, infoPoint i⟩
    | none => .commit (writeRbuf (interp (s.points n s.len) x s.len) s)

/-- LAGR_EVAL n, x (R142). -/
def execLagrEval (n : Nat) (x : Byte) (s : State) : Host.Outcome State Fault Refusal :=
  conclude s .complete wipeRbuf (lagrEvalBody n x s)

end Sys2Proof.Machine
end

