-- ==== Sys2Proof/Machine/Codec.lean ====
section
/-! DEFINITION. The share codec (46_codec.md R250 to R255, over the wire format of 30_encoding.md R100 to R103) and the
commands SHARE_ENCODE and SHARE_DECODE (R256, R257). -/

namespace Sys2Proof.Machine

open Sys2Proof

/-- A share's fields as decoding yields them (R255), with the slot they were read from. -/
structure DecodedShare where
  slot : Nat
  id : BitVec 16
  gt : Nat
  gc : Nat
  gi : Nat
  mt : Nat
  mi : Nat
  rsv : BitVec 4
  payload : List Byte
deriving DecidableEq, Repr

/-- Two nibbles as a byte, the first in the more significant position (R100). -/
def nibbles (hi lo : Nat) : Byte := BitVec.ofNat 8 (16 * hi + lo)

/-- Bits [7:4] of a byte. -/
def highNibble (b : Byte) : BitVec 4 := b.extractLsb' 4 4

/-- Bits [3:0] of a byte. -/
def lowNibble (b : Byte) : BitVec 4 := b.extractLsb' 0 4

/-- The five header bytes (R100, R254); the reserved nibble is 0 (R102). -/
def shareHeader (id : BitVec 16) (gt gc gi mt mi : Nat) : List Byte :=
  [id.extractLsb' 8 8, id.extractLsb' 0 8, nibbles (gt - 1) (gc - 1), nibbles gi (mt - 1), nibbles mi 0]

/-- `EncodeShare(id, gt, gc, gi, mt, mi, P)` (R254). -/
def encodeShare (id : BitVec 16) (gt gc gi mt mi : Nat) (P : List Byte) : List Byte :=
  shareHeader id gt gc gi mt mi ++ P

/-- The fields of a share of `len` bytes in slot `k` (R255). -/
def readShareFields (B : List Byte) (len k : Nat) : DecodedShare where
  slot := k
  id := byteAt B 0 ++ byteAt B 1
  gt := (highNibble (byteAt B 2)).toNat + 1
  gc := (lowNibble (byteAt B 2)).toNat + 1
  gi := (highNibble (byteAt B 3)).toNat
  mt := (lowNibble (byteAt B 3)).toNat + 1
  mi := (highNibble (byteAt B 4)).toNat
  rsv := lowNibble (byteAt B 4)
  payload := (B.drop 5).take (len - 5)

/-- `DecodeShare(B, len, strict, k)` (R255): length (R251), then reserved (R252), then header (R253). -/
def decodeShare (B : List Byte) (len : Nat) (strict : Bool) (k : Nat) : Except Raised DecodedShare :=
  if len < 21 then .error ⟨.truncatedShare, infoSlot k⟩
  else if 37 < len ∨ (len - 5) % 2 = 1 then .error ⟨.invalidParameters, infoSlot k⟩
  else if strict ∧ (readShareFields B len k).rsv ≠ 0#4 then .error ⟨.reservedNonZero, infoSlot k⟩
  else if (readShareFields B len k).gc < (readShareFields B len k).gt ∨
      (readShareFields B len k).gc ≤ (readShareFields B len k).gi then
    .error ⟨.invalidParameters, infoSlot k⟩
  else .ok (readShareFields B len k)

/-- SHARE[k] and SLEN[k] as a command that writes a slot writes them (R41, R215, R256): the share, then zeros; its
length. -/
def Memory.writeSlot (m : Memory) (k : Nat) (V : List Byte) : Memory :=
  (m.writeBytes (shareAddr k) (padTo Config.slotBytes V)).writeBytes (slenAddr k) [BitVec.ofNat 8 V.length]

/-- The header values in HDR and HDR2.MI are illegal for encoding (R256). -/
def State.headerIllegal (s : State) : Bool :=
  decide (s.hdr.gt.toNat < 1) || decide (16 < s.hdr.gc.toNat) || decide (s.hdr.gc.toNat < s.hdr.gt.toNat) ||
    decide (s.hdr.gc.toNat ≤ s.hdr.gi.toNat) || decide (s.hdr.mt.toNat < 1) || decide (16 < s.hdr.mt.toNat) ||
    decide (15 < s.hdr2.mi.toNat)

/-- The share that SHARE_ENCODE makes of IDENT, HDR, HDR2.MI and RBUF[0..L) (R256). -/
def State.shareToEncode (s : State) : List Byte :=
  encodeShare s.ident s.hdr.gt.toNat s.hdr.gc.toNat s.hdr.gi.toNat s.hdr.mt.toNat s.hdr2.mi.toNat (s.rbufVec s.len)

/-- What SHARE_ENCODE writes (R256): the slot with its length, HDR2.RSV <- 0 and HDR2.PLEN <- L. -/
def writeEncoded (k : Byte) (L : Nat) (V : List Byte) (s : State) : State :=
  { s with
    mem := s.mem.writeSlot k.toNat V
    hdr2 := { s.hdr2 with rsv := 0#4, plen := BitVec.ofNat 8 L } }

/-- The body of SHARE_ENCODE k (R256). -/
def shareEncodeBody (k : Byte) (s : State) : Body :=
  if !lenOK s.len then .raise s ⟨.invalidParameters, infoCommand⟩
  else if s.headerIllegal then .raise s ⟨.invalidParameters, infoCommand⟩
  else .commit (writeEncoded k s.len s.shareToEncode s)

/-- SHARE_ENCODE k (R256). -/
def execShareEncode (k : Byte) (s : State) : Host.Outcome State Fault Refusal :=
  conclude s .complete (wipeSlot k) (shareEncodeBody k s)

/-- IDENT, HDR, HDR2 and RBUF as SHARE_DECODE writes them (R257). -/
def writeDecoded (h : DecodedShare) (s : State) : State :=
  { s with
    mem := s.mem.writeBytes Buffer.rbuf.base (padTo 32 h.payload)
    ident := h.id
    hdr := ⟨BitVec.ofNat 8 h.gt, BitVec.ofNat 8 h.gc, BitVec.ofNat 8 h.gi, BitVec.ofNat 8 h.mt⟩
    hdr2 := ⟨BitVec.ofNat 8 h.mi, h.rsv, BitVec.ofNat 8 h.payload.length⟩ }

/-- The share in slot k, decoded (R222, R257). -/
def State.decodeSlot (s : State) (k : Nat) : Except Raised DecodedShare :=
  decodeShare (s.shareSlot k) (s.slen k) s.ctrl.strict k

/-- The body of SHARE_DECODE k (R257). -/
def shareDecodeBody (k : Byte) (s : State) : Body :=
  match s.decodeSlot k.toNat with
  | .ok h => .commit (writeDecoded h s)
  | .error r => .raise s r

/-- SHARE_DECODE k (R257). -/
def execShareDecode (k : Byte) (s : State) : Host.Outcome State Fault Refusal :=
  conclude s .complete wipeDecoded (shareDecodeBody k s)

end Sys2Proof.Machine
end

