-- ==== Sys2Proof/Machine/Sskr.lean ====
section
/-! DEFINITION. The hierarchy engine and selector: SSKR_SPLIT (45_sskr.md R210 to R218) and SSKR_RECOMBINE
(R220 to R233). -/

namespace Sys2Proof.Machine

open Sys2Proof

/-! ### Split -/

/-- The specification of group g is illegal (R212 (4)): MT < 1 or MT > MC or MC > 16. -/
def GroupSpec.illegal (sp : GroupSpec) : Bool :=
  decide (sp.mt.toNat < 1) || decide (sp.mc.toNat < sp.mt.toNat) || decide (16 < sp.mc.toNat)

/-- The first group, ascending, whose specification is illegal (R212 (4)). -/
def State.firstBadGroup (s : State) : Option Nat :=
  (List.range s.splitcfg.gc.toNat).find? fun g => (s.groupSpec g).illegal

/-- Why the split specification is illegal, in the validation order of R212; none when it is legal (R211). -/
def State.splitError (s : State) : Option Raised :=
  if !lenOK s.len then some ⟨.invalidParameters, infoCommand⟩
  else if s.splitcfg.gc.toNat < 1 ∨ 16 < s.splitcfg.gc.toNat then some ⟨.invalidParameters, infoCommand⟩
  else if s.splitcfg.gt.toNat < 1 ∨ s.splitcfg.gc.toNat < s.splitcfg.gt.toNat then
    some ⟨.invalidParameters, infoCommand⟩
  else s.firstBadGroup.map fun g => ⟨.invalidParameters, infoGroup g⟩

/-- A group to split: its index, its specification and its group secret. -/
structure GroupJob where
  g : Nat
  spec : GroupSpec
  secret : List Byte
deriving DecidableEq, Repr

/-- The encoded member shares of one group, from its y-vectors (R214, inner loop). -/
def groupShares (id : BitVec 16) (gt gc : Nat) (job : GroupJob) (M : List (List Byte)) : List (List Byte) :=
  (List.range job.spec.mc.toNat).map fun m => encodeShare id gt gc job.g job.spec.mt.toNat m (M.getD m [])

/-- The inner level of R214: each group's members, groups ascending (R216). -/
def splitGroups (cfg : Config) (id : BitVec 16) (gt gc : Nat) (jobs : List GroupJob) (d : Drawing) :
    DrawResult (List (List Byte)) :=
  match jobs with
  | [] => .drawn [] d
  | job :: rest =>
    (shamirSplit cfg job.spec.mt.toNat job.spec.mc.toNat true job.secret d).andThen fun M d1 =>
      (splitGroups cfg id gt gc rest d1).andThen fun W d2 => .drawn (groupShares id gt gc job M ++ W) d2

/-- A finished split: the identifier and the shares in slot order. -/
structure SplitOutput where
  id : BitVec 16
  shares : List (List Byte)
deriving DecidableEq, Repr

/-- The groups to split, from the group secrets of the outer level (R210, R214). -/
def State.groupJobs (s : State) (GS : List (List Byte)) : List GroupJob :=
  (List.range s.splitcfg.gc.toNat).map fun g => ⟨g, s.groupSpec g, GS.getD g []⟩

/-- `SskrSplit` (R214), after validation: the identifier's two bytes (the first the more significant, R68), the outer
level in digest mode, then each group in digest mode. -/
def sskrSplit (cfg : Config) (s : State) (d : Drawing) : DrawResult SplitOutput :=
  (drawByte d).andThen fun b0 d0 => (drawByte d0).andThen fun b1 d1 =>
    (shamirSplit cfg s.splitcfg.gt.toNat s.splitcfg.gc.toNat true (s.secretVec s.len) d1).andThen fun GS d2 =>
      (splitGroups cfg (b0 ++ b1) s.splitcfg.gt.toNat s.splitcfg.gc.toNat (s.groupJobs GS) d2).andThen fun W d3 =>
        .drawn ⟨b0 ++ b1, W⟩ d3

/-- Shares stored in the slots from `k` on, each with its length (R215). -/
def storeShares (k : Nat) (W : List (List Byte)) (m : Memory) : Memory :=
  match W with
  | [] => m
  | V :: rest => storeShares (k + 1) rest (m.writeSlot k V)

/-- SHARE, SLEN, SHARECNT and IDENT as SSKR_SPLIT writes them (R215): the slots past the last share are 0. -/
def writeSplit (o : SplitOutput) (s : State) : State :=
  { s with
    mem := storeShares 0 o.shares ((s.mem.clearBuffer .share).clearBuffer .slen)
    sharecnt := BitVec.ofNat 16 o.shares.length
    ident := o.id }

/-- The body of SSKR_SPLIT (R215): validation precedes every draw (R212). -/
def sskrSplitBody (cfg : Config) (s : State) : Body :=
  match s.splitError with
  | some r => .raise s r
  | none => drawBody s (sskrSplit cfg s s.drawing) writeSplit

/-- SSKR_SPLIT (R215). -/
def execSskrSplit (s : State) : Host.Outcome State Fault Refusal :=
  conclude s .complete wipeShares (sskrSplitBody hwConfig s)

/-! ### Recombine -/

/-- Phase 2 (R222): the given slots decoded in order; the first that fails raises. -/
def State.decodeSlots (s : State) (ks : List Nat) : Except Raised (List DecodedShare) :=
  match ks with
  | [] => .ok []
  | k :: rest =>
    match s.decodeSlot k with
    | .error r => .error r
    | .ok h =>
      match s.decodeSlots rest with
      | .error r => .error r
      | .ok hs => .ok (h :: hs)

/-- The first share, in slot order, that fails a check, raised with its slot. -/
def firstFailing (e : ErrCode) (bad : DecodedShare → Bool) (hs : List DecodedShare) : Option Raised :=
  (hs.find? bad).map fun h => ⟨e, infoSlot h.slot⟩

/-- Phase 3 (R223): an identifier other than the first share's. -/
def otherIdentifier (h0 h : DecodedShare) : Bool := h.id != h0.id

/-- Phase 4, first part (R224): a length, group_threshold or group_count other than the first share's. -/
def otherParameters (h0 h : DecodedShare) : Bool :=
  h.payload.length != h0.payload.length || h.gt != h0.gt || h.gc != h0.gc

/-- Phase 4, second part (R224): a member_threshold other than that of the least slot of the same group. -/
def otherMemberThreshold (hs : List DecodedShare) (h : DecodedShare) : Bool :=
  match hs.find? fun j => j.gi == h.gi with
  | some j => h.mt != j.mt
  | none => false

/-- The least slot with the same group_index and member_index (R225); the share itself if there is none before it. -/
def firstTwin (hs : List DecodedShare) (h : DecodedShare) : Option DecodedShare :=
  hs.find? fun j => j.gi == h.gi && j.mi == h.mi

/-- Phase 5 (R225): an earlier share has the same indices and another payload. -/
def conflictsWithTwin (hs : List DecodedShare) (h : DecodedShare) : Bool :=
  match firstTwin hs h with
  | some j => h.payload != j.payload
  | none => false

/-- Phase 5 (R225): the slots kept are those that repeat no earlier one. -/
def keptShares (hs : List DecodedShare) : List DecodedShare :=
  hs.filter fun h => match firstTwin hs h with
    | some j => j.slot == h.slot
    | none => true

/-- Phases 3 to 5 (R223 to R225) in order: the first error, none if the shares pass. -/
def shareSetError (h0 : DecodedShare) (hs : List DecodedShare) : Option Raised :=
  (firstFailing .mixedShareSets (otherIdentifier h0) hs).or
    ((firstFailing .inconsistentParameters (otherParameters h0) hs).or
      ((firstFailing .inconsistentParameters (otherMemberThreshold hs) hs).or
        (firstFailing .duplicateShare (conflictsWithTwin hs) hs)))

/-- Members_g (R226): the kept shares of group g by ascending member_index, which a share holds as 0..15 (R101). -/
def groupMembers (kept : List DecodedShare) (g : Nat) : List DecodedShare :=
  (List.range 16).filterMap fun m => kept.find? fun h => h.gi == g && h.mi == m

/-- MT_g (R226): the member_threshold of the group's kept shares; none when the group is not present. -/
def groupThreshold (kept : List DecodedShare) (g : Nat) : Option Nat :=
  (kept.find? fun h => h.gi == g).map DecodedShare.mt

/-- Group g qualifies (R226): it is present and has at least MT_g members. -/
def groupQualifies (kept : List DecodedShare) (g : Nat) : Bool :=
  match groupThreshold kept g with
  | some mt => decide (mt ≤ (groupMembers kept g).length)
  | none => false

/-- Qual (R227): the qualifying group indices, ascending. -/
def qualifyingGroups (kept : List DecodedShare) : List Nat := (List.range 16).filter (groupQualifies kept)

/-- The point a member share stands for (R228): (mi + 1, P). -/
def memberPoint (h : DecodedShare) : Point := ⟨shareX h.mi, h.payload⟩

/-- G_g (R228). -/
def recombineGroup (cfg : Config) (kept : List DecodedShare) (L g : Nat) : Except Raised (List Byte) :=
  shamirRecombine cfg ((groupThreshold kept g).getD 1) ((groupMembers kept g).map memberPoint) true L (infoGroup g)

/-- Phase 8 (R228): the outer points (g + 1, G_g) of the selected groups, in order; the first group that fails raises. -/
def recombineGroups (cfg : Config) (kept : List DecodedShare) (L : Nat) (gs : List Nat) : Except Raised (List Point) :=
  match gs with
  | [] => .ok []
  | g :: rest =>
    match recombineGroup cfg kept L g with
    | .error r => .error r
    | .ok G =>
      match recombineGroups cfg kept L rest with
      | .error r => .error r
      | .ok pts => .ok (⟨shareX g, G⟩ :: pts)

/-- Phases 6 to 9 (R226 to R229) on the kept shares, for L = L_0 and GT = gt_0. -/
def recombineKept (cfg : Config) (kept : List DecodedShare) (L gt : Nat) : Except Raised (List Byte) :=
  if (qualifyingGroups kept).length < gt then .error ⟨.insufficientShares, infoOuter⟩
  else
    match recombineGroups cfg kept L ((qualifyingGroups kept).take gt) with
    | .error r => .error r
    | .ok pts => shamirRecombine cfg gt pts true L infoOuter

/-- What a successful recombine delivers (R231). -/
structure Recovered where
  secret : List Byte
  id : BitVec 16
deriving DecidableEq, Repr

/-- Phases 3 to 9 on the decoded shares (R223 to R229). -/
def recombineShares (cfg : Config) (hs : List DecodedShare) : Except Raised Recovered :=
  match hs with
  | [] => .error ⟨.insufficientShares, infoCommand⟩
  | h0 :: _ =>
    match shareSetError h0 hs with
    | some r => .error r
    | none =>
      match recombineKept cfg (keptShares hs) h0.payload.length h0.gt with
      | .error r => .error r
      | .ok S => .ok ⟨S, h0.id⟩

/-- Phases 1 to 9 (R221 to R229). -/
def sskrRecombine (cfg : Config) (s : State) : Except Raised Recovered :=
  if s.sharecnt.toNat = 0 then .error ⟨.insufficientShares, infoCommand⟩
  else if Config.maxShares < s.sharecnt.toNat then .error ⟨.invalidParameters, infoCommand⟩
  else
    match s.decodeSlots (List.range s.sharecnt.toNat) with
    | .error r => .error r
    | .ok hs => recombineShares cfg hs

/-- The success outputs (R231): SECRET, CTRL.LEN and IDENT. -/
def writeRecovered (o : Recovered) (s : State) : State :=
  { s with
    mem := s.mem.writeBytes Buffer.secret.base (padTo 32 o.secret)
    ctrl := { s.ctrl with len := BitVec.ofNat 6 o.secret.length }
    ident := o.id }

/-- The body of SSKR_RECOMBINE (R232). -/
def sskrRecombineBody (cfg : Config) (s : State) : Body :=
  match sskrRecombine cfg s with
  | .ok o => .commit (writeRecovered o s)
  | .error r => .raise s r

/-- SSKR_RECOMBINE (R232); success is PHASE 5 VERIFIED (R301). -/
def execSskrRecombine (s : State) : Host.Outcome State Fault Refusal :=
  conclude s .verified wipeSecret (sskrRecombineBody hwConfig s)

end Sys2Proof.Machine
end

