-- ==== Sys2Proof/Machine/Dispatch.lean ====
section
/-! DEFINITION. The completion step of each command (60_exceptions.md R301), by instruction. -/

namespace Sys2Proof.Machine

open Sys2Proof

def exec (i : Instr) (s : State) : Host.Outcome State Fault Refusal :=
  match i with
  | .nop => Sys2Proof.Machine.execNop s
  | .gfAdd a b => Sys2Proof.Machine.execGfAdd a b s
  | .gfMul a b => Sys2Proof.Machine.execGfMul a b s
  | .gfInv a => Sys2Proof.Machine.execGfInv a s
  | .lagrEval n x => Sys2Proof.Machine.execLagrEval n x s
  | .shamirSplit t c dg => Sys2Proof.Machine.execShamirSplit t c dg s
  | .shamirRecombine t n dg => Sys2Proof.Machine.execShamirRecombine t n dg s
  | .digestMake => Sys2Proof.Machine.execDigestMake s
  | .digestVerify => Sys2Proof.Machine.execDigestVerify s
  | .sskrSplit => Sys2Proof.Machine.execSskrSplit s
  | .sskrRecombine => Sys2Proof.Machine.execSskrRecombine s
  | .shareEncode k => Sys2Proof.Machine.execShareEncode k s
  | .shareDecode k => Sys2Proof.Machine.execShareDecode k s
  | .zeroize => Sys2Proof.Machine.execZeroize s

end Sys2Proof.Machine
end

