-- ==== Sys2Proof/Machine/Reset.lean ====
section
/-! DEFINITION. The reset input (70_reset_and_hazards.md R340, R341): every piece of the hardware's state to its reset
value, the pending command abandoned, and the random bytes it drew discarded. -/

namespace Sys2Proof.Machine

open Sys2Proof

/-- The number of draws the completion step of the pending command makes, up to its end or to the first draw the port does
not answer; 0 for an illegal word, which draws nothing (R96). -/
def State.pendingDraws (s : State) : Nat :=
  match s.latch with
  | none => 0
  | some w =>
    match decode w with
    | .error _ => 0
    | .ok i =>
      match exec i s with
      | .next t => if t.status.busy then t.drawn else s.port.drawsTo t.port
      | _ => 0

/-- How many draws reset discards (R341): none when no command is pending; those the pending command is known to have made
(`State.drawn`); and where its completion step has made no step yet, a free number of the draws it makes. Log entry 18. -/
def State.abandonedDraws (s : State) : Nat :=
  if s.status.busy then max s.drawn (min (Config.abandonedDraws s.observations) s.pendingDraws) else 0

/-- The reset input (R340, R341): every piece of the hardware's state at its reset value, and the bytes that an abandoned
command drew gone from the port. The rest of the environment (the host's program, the schedule, the record of responses)
is not the hardware's and stays. Log entry 9. -/
def State.hardReset (s : State) : State :=
  { State.reset with
    port := s.port.skip s.abandonedDraws
    inputs := s.inputs
    schedule := s.schedule
    responses := s.responses
    observations := s.observations }

end Sys2Proof.Machine
end

