-- ==== Sys2Proof/Machine/Bus.lean ====
section
/-! DEFINITION. The host bus (20_memory.md R60 to R75): the register map with each register's readable and writable
bits (10_state.md R21 to R34), buffer accesses, the busy lockout, and one line of a host program (30_encoding.md R104). -/

namespace Sys2Proof.Machine

open Sys2Proof

/-- The host registers (R21 to R33). -/
inductive Reg where
  | id
  | ctrl
  | status
  | cmd
  | result
  | errinfo
  | ident
  | hdr
  | hdr2
  | splitcfg
  | sharecnt
  | rngcnt
  | gspec (g : Fin 16)
deriving DecidableEq, Repr

/-- The bus offset of a register (R21 to R33). -/
def Reg.offset : Reg → Nat
  | .id => 0x000
  | .ctrl => 0x004
  | .status => 0x008
  | .cmd => 0x00C
  | .result => 0x010
  | .errinfo => 0x014
  | .ident => 0x018
  | .hdr => 0x01C
  | .hdr2 => 0x020
  | .splitcfg => 0x024
  | .sharecnt => 0x028
  | .rngcnt => 0x02C
  | .gspec g => 0x040 + 4 * g.val

/-- Every register, in ascending offset. -/
def Reg.all : List Reg :=
  [.id, .ctrl, .status, .cmd, .result, .errinfo, .ident, .hdr, .hdr2, .splitcfg, .sharecnt, .rngcnt] ++
    (List.finRange 16).map Reg.gspec

/-- The register at an offset (R61, R64); none where the offset names no register. -/
def regAt (a : Nat) : Option Reg := Reg.all.find? fun r => r.offset == a

/-- What a register reads as (R21 to R34): reserved bits and CMD read 0. -/
def State.readReg (s : State) : Reg → Word
  | .id => Config.idValue
  | .ctrl => 0#18 ++ s.ctrl.len ++ 0#6 ++ BitVec.ofBool s.ctrl.ie ++ BitVec.ofBool s.ctrl.strict
  | .status => statusWord s.status
  | .cmd => 0#32
  | .result => 0#24 ++ s.result
  | .errinfo => 0#16 ++ s.errinfo
  | .ident => 0#16 ++ s.ident
  | .hdr => s.hdr.mt ++ s.hdr.gi ++ s.hdr.gc ++ s.hdr.gt
  | .hdr2 => 0#8 ++ s.hdr2.plen ++ 0#4 ++ s.hdr2.rsv ++ s.hdr2.mi
  | .splitcfg => 0#16 ++ s.splitcfg.gc ++ s.splitcfg.gt
  | .sharecnt => 0#16 ++ s.sharecnt
  | .rngcnt => s.rngcnt
  | .gspec g => 0#16 ++ s.gspec[g].mc ++ s.gspec[g].mt

/-- A write of CTRL (R22): STRICT, IE and LEN; IRQ is re-evaluated (R46). -/
def State.writeCtrl (s : State) (v : Word) : State :=
  { s with
    ctrl := ⟨v.getLsbD 0, v.getLsbD 1, v.extractLsb' 8 6⟩
    irq := irqLevel s.status.done (v.getLsbD 1) }

/-- A write of STATUS (R23): bit 1 clears DONE; every other bit is read-only. -/
def State.writeStatus (s : State) (v : Word) : State := if v.getLsbD 1 then s.clearDone else s

/-- What a host write does to a register (R34): only the RW bits change, the W1C bit acts, and a write of CMD issues the
word as a command (R24, R300). -/
def State.writeReg (s : State) (r : Reg) (v : Word) : State :=
  match r with
  | .id => s
  | .ctrl => s.writeCtrl v
  | .status => s.writeStatus v
  | .cmd => s.issue v
  | .result => s
  | .errinfo => s
  | .ident => { s with ident := v.extractLsb' 0 16 }
  | .hdr => { s with hdr := ⟨v.extractLsb' 0 8, v.extractLsb' 8 8, v.extractLsb' 16 8, v.extractLsb' 24 8⟩ }
  | .hdr2 => { s with hdr2 := { s.hdr2 with mi := v.extractLsb' 0 8 } }
  | .splitcfg => { s with splitcfg := ⟨v.extractLsb' 0 8, v.extractLsb' 8 8⟩ }
  | .sharecnt => { s with sharecnt := v.extractLsb' 0 16 }
  | .rngcnt => s
  | .gspec g => { s with gspec := s.gspec.set g ⟨v.extractLsb' 0 8, v.extractLsb' 8 8⟩ }

/-- A buffer access of n bytes at offset a is legal (R62, R65): aligned, and within one buffer. -/
def bufferAccessLegal (a n : Nat) : Bool := a % n == 0 && Buffer.all.any fun b => b.holds a n

/-- The little-endian value of a list of at most four bytes (R62, R63): byte j in bits [8j+7:8j]. -/
def bytesToWord (bs : List Byte) : Word := byteAt bs 3 ++ byteAt bs 2 ++ byteAt bs 1 ++ byteAt bs 0

/-- The low n bytes of a word, least significant first (R62, R63). -/
def wordToBytes (v : Word) (n : Nat) : List Byte := (List.range n).map fun j => v.extractLsb' (8 * j) 8

/-- What a legal access reaches (R61, R64, R62). -/
inductive Target where
  | register (r : Reg)
  | buffer (a n : Nat)
deriving DecidableEq, Repr

/-- The target of an access by offset and width (R61 to R65); none where it is a bus error whatever the state. -/
def accessTarget (addr : BitVec 16) (w : Width) : Option Target :=
  match regAt addr.toNat with
  | some r => if w = .word then some (.register r) else none
  | none => if bufferAccessLegal addr.toNat w.bytes then some (.buffer addr.toNat w.bytes) else none

/-- The accesses accepted while STATUS.BUSY = 1 (R66): a read of ID, a read of STATUS and a write of STATUS. -/
def acceptedWhileBusy (isWrite : Bool) (t : Target) : Bool :=
  match t with
  | .register .id => !isWrite
  | .register .status => true
  | _ => false

/-- The target of an access in a state (R64 to R66); none where the access is a bus error. -/
def State.target (s : State) (isWrite : Bool) (addr : BitVec 16) (w : Width) : Option Target :=
  match accessTarget addr w with
  | some t => if s.status.busy && !acceptedWhileBusy isWrite t then none else some t
  | none => none

/-- The data of a read that completes OKAY (R63). -/
def State.readTarget (s : State) : Target → Word
  | .register r => s.readReg r
  | .buffer a n => bytesToWord (s.mem.readBytes a n)

/-- The state after a write that completes OKAY (R63). -/
def State.writeTarget (s : State) (t : Target) (v : Word) : State :=
  match t with
  | .register r => s.writeReg r v
  | .buffer a n => s.store a (wordToBytes v n)

/-- `MemRead(addr, n)` (R63): a read changes nothing (R69). -/
def State.busRead (s : State) (addr : BitVec 16) (w : Width) : BusResponse :=
  match s.target false addr w with
  | some t => .readOkay (s.readTarget t)
  | none => .error

/-- `MemWrite(addr, n, v)` (R63): the state after it. A bus error changes nothing (R306). -/
def State.busWrite (s : State) (addr : BitVec 16) (w : Width) (v : Word) : State :=
  match s.target true addr w with
  | some t => s.writeTarget t v
  | none => s

/-- How `MemWrite(addr, n, v)` completes (R60). -/
def State.busWriteResponse (s : State) (addr : BitVec 16) (w : Width) : BusResponse :=
  match s.target true addr w with
  | some _ => .writeOkay
  | none => .error

/-- The data a read returns: 0 for a bus error (R60). -/
def BusResponse.data : BusResponse → Word
  | .readOkay d => d
  | .writeOkay => 0#32
  | .error => 0#32

/-- The state with one more response recorded. -/
def State.respond (s : State) (r : BusResponse) : State := { s with responses := r :: s.responses }

/-- The offset of STATUS as a host writes it (R23). -/
def statusOffset : BitVec 16 := 0x008#16

/-- The offset of CMD as a host writes it (R24). -/
def cmdOffset : BitVec 16 := 0x00C#16

/-- One line of a host program. WAIT reads STATUS and stays the host's next line until BUSY = 0 (R104). -/
def State.hostOp (s : State) (op : HostOp) : State :=
  match op with
  | .read addr w => s.respond (s.busRead addr w)
  | .write addr w v => (s.busWrite addr w v).respond (s.busWriteResponse addr w)
  | .wait =>
    { s.respond (s.busRead statusOffset .word) with inputs := if s.status.busy then .wait :: s.inputs else s.inputs }
  | .reset => s.hardReset

/-- While SSKR_RECOMBINE is pending its PHASE has moved on by a free amount since it was last looked at (R233, I10); no
other state moves. -/
def State.progress (s : State) : State :=
  if s.status.busy then
    { s with
      status := { s.status with phase := progressPhase s.status.phase (Config.recombineProgress s.observations) }
      observations := s.observations + 1 }
  else s

/-- The host's step: its next line, if it has one. -/
def State.hostStep (s : State) : State :=
  match s.inputs with
  | [] => s
  | op :: rest => ({ s with inputs := rest } : State).progress.hostOp op

/-- The host program line `W32 off, v` (R104). -/
def HostOp.w32 (off : BitVec 16) (v : Word) : HostOp := .write off .word v

/-- The host program line `W8 off, v` (R104). -/
def HostOp.w8 (off : BitVec 16) (v : Byte) : HostOp := .write off .byte (v.zeroExtend 32)

/-- The host program line `R32 off` (R104). -/
def HostOp.r32 (off : BitVec 16) : HostOp := .read off .word

/-- The host program line `CMD <command>` (R104). -/
def HostOp.cmd (i : Instr) : HostOp := .write cmdOffset .word (encode i)

end Sys2Proof.Machine
end

