-- ==== Sys2Proof/Machine/Engine.lean ====
section
/-! DEFINITION. The engine's completion step (60_exceptions.md R301) and whose step comes next (00_scope.md R3,
70_reset_and_hazards.md R350). -/

namespace Sys2Proof.Machine

open Sys2Proof

/-- The completion of a latched word (R301): decode it, and run its command, or complete it as illegal (R96). -/
def completeWord (w : Word) (s : State) : Host.Outcome State Fault Refusal :=
  match decode w with
  | .ok i => exec i s
  | .error _ => execIllegal s

/-- The engine's step: while BUSY = 1 the completion step is enabled and reads only LATCH (R43, R301); otherwise the
engine is idle and nothing changes. -/
def engineStep (s : State) : Host.Outcome State Fault Refusal :=
  if s.status.busy then
    match s.latch with
    | some w => completeWord w s
    | none => .fault .latchEmpty
  else .next s

/-- Whose step comes next: the schedule's first agent. Where nothing is scheduled, the engine while a command is pending
(the completion step is "taken eventually", R350), else the host. Log entry 3. -/
def State.nextAgent (s : State) : Agent :=
  match s.schedule with
  | a :: _ => a
  | [] => if s.status.busy then .engine else .host

/-- The state with the schedule's first turn taken. -/
def State.takeTurn (s : State) : State :=
  match s.schedule with
  | _ :: rest => { s with schedule := rest }
  | [] => s

/-- The step of an agent (R3). -/
def agentStep (a : Agent) (s : State) : Host.Outcome State Fault Refusal :=
  match a with
  | .engine => engineStep s
  | .host => .next s.hostStep

/-- The state in which the engine's step comes next and completes `w`: `w` is issued (R300), and no earlier turn is
scheduled. -/
def State.issueNext (s : State) (w : Word) : State := { s.issue w with schedule := [] }

end Sys2Proof.Machine
end

