-- ==== Sys2Proof/Machine/Step.lean ====
section
/-! DEFINITION. One step of the machine, and where a command word is placed for the next step to run it. -/

namespace Sys2Proof.Machine

open Sys2Proof

/-- One step: the agent whose turn it is takes its one atomic step (R3, R69, R301). -/
def step (s : State) : Host.Outcome State Fault Refusal := agentStep s.nextAgent s.takeTurn

/-- The state with the command word of `nbits` bits `w` issued (R300), so that the very next step completes it. The
hardware fetches nothing (R48): a command word comes from a host's CMD write, for which this stands. Log entry 4. -/
def State.withFetchWord (s : State) (nbits w : Nat) : State := s.issueNext (tableWord nbits w)

end Sys2Proof.Machine
end

