-- ==== Sys2Proof/Safety.lean ====
section
/-! DEFINITION. What the claims about runs are stated in: the invariant of the machine's state, a safe step, the premise
that the random-byte port answers (60_exceptions.md R311), and the end of a program (70_reset_and_hazards.md R352). -/

namespace Sys2Proof.Machine

open Sys2Proof

/-- PHASE is one of a pending command's (R23): EXECUTING, or 2, 3, 4 of a recombine. -/
def Phase.pending : Phase → Bool
  | .executing | .collecting | .groupsQualifying | .outerReady => true
  | .idle | .verified | .complete | .failed => false

/-- PHASE is one of a pending SSKR_RECOMBINE's (R23, R233). -/
def Phase.recombining : Phase → Bool
  | .collecting | .groupsQualifying | .outerReady => true
  | .idle | .executing | .verified | .complete | .failed => false

/-- The invariant: what holds of the state between any two steps. -/
structure State.Inv (s : State) : Prop where
  /-- A command is latched exactly while BUSY = 1 (R43, R300, R301). -/
  busy_iff_latched : s.status.busy = s.latch.isSome
  /-- IRQ is the level DONE and CTRL.IE (R46). -/
  irq_level : s.irq = irqLevel s.status.done s.ctrl.ie
  /-- PHASE is a pending command's exactly while BUSY = 1 (R23). -/
  phase_pending : s.status.phase.pending = s.status.busy
  /-- PHASE is FAILED exactly when an error is reported (R23, R301). -/
  phase_failed : s.status.phase = .failed ↔ s.status.errcode ≠ none
  /-- While a command is pending, DONE is 0 (R300). -/
  busy_not_done : s.status.busy = true → s.status.done = false
  /-- PHASE says 2, 3 or 4 exactly when the legal SSKR_RECOMBINE word is latched (R233, R300). -/
  phase_recombining : s.status.phase.recombining = true ↔ s.latch = some 0x00000041#32
  /-- LASTOP is the OPC of the latched word (R300). -/
  lastop_latched : ∀ w, s.latch = some w → s.status.lastop = w.extractLsb' 0 8
  /-- While a command is pending, RNGCNT is 0 and ERRINFO is 0xFFFF (R300). -/
  busy_counters : s.status.busy = true → s.rngcnt = 0#32 ∧ s.errinfo = infoCommand
  /-- The buffers' bytes are in canonical form. -/
  mem_wf : s.mem.wf = true
  /-- Every listed byte belongs to a buffer (R61). -/
  mem_in_buffers : s.mem.inBuffers = true

/-- A step is safe when it neither faults nor is refused. -/
def State.SafeStep (s : State) : Prop := ∃ t, step s = .next t

/-- The port's answer to the draw number `j` from now on (R45): a listed one, and past the list a free value. -/
def Port.answerAt (p : Port) (j : Nat) : PortAnswer :=
  match p.answers[j]? with
  | some a => a
  | none => Config.portAnswer (p.freeDraws + (j - p.answers.length))

/-- The premise RngAnswers of R311 for the next `n` draws: the port answers each with a byte or with unavailability. -/
def State.RngAnswers (s : State) (n : Nat) : Prop := ∀ j < n, s.port.answerAt j ≠ .silent

/-- The most bytes any command draws: an SSKR_SPLIT with L = 32, 16 groups and every threshold 16 (R217). -/
def drawBound : Nat := 2 + (28 + 14 * 32) + 16 * (28 + 14 * 32)

/-- The host program has ended (R352): its last line has executed and no command is pending. -/
def State.programEnded (s : State) : Bool := s.inputs.isEmpty && !s.status.busy

end Sys2Proof.Machine
end

