-- ==== Sys2Proof/Laws/Memory.lean ====
section
/-! SUPPORT. What the memory operations do, said once: reading after storing and after clearing, and that every
operation keeps the canonical form and stays within the buffers. -/

namespace Sys2Proof.Machine

open Sys2Proof

/-! ### Reading -/

@[simp] theorem Memory.read_nil (a : Nat) : Memory.read [] a = unlistedByte := rfl

@[simp] theorem Memory.read_cons (c : Host.Cell) (m : Memory) (a : Nat) :
    Memory.read (c :: m) a = if c.1 = a then c.2 else Memory.read m a := rfl

theorem Memory.read_append_of_key (m₁ m₂ : Memory) (a : Nat) (h : ∀ c ∈ m₂, c.1 ≠ a) :
    Memory.read (m₁ ++ m₂) a = Memory.read m₁ a := by
  induction m₁ with
  | nil =>
    induction m₂ with
    | nil => rfl
    | cons c m ih =>
      have hc := h c (by simp)
      simp only [List.nil_append] at ih ⊢
      rw [Memory.read_cons, if_neg hc, ih fun d hd => h d (by simp [hd])]
  | cons c m ih => simp only [List.cons_append, Memory.read_cons, ih]

theorem Memory.read_append_of_no_key (m₁ m₂ : Memory) (a : Nat) (h : ∀ c ∈ m₁, c.1 ≠ a) :
    Memory.read (m₁ ++ m₂) a = Memory.read m₂ a := by
  induction m₁ with
  | nil => rfl
  | cons c m ih =>
    rw [List.cons_append, Memory.read_cons, if_neg (h c (by simp)), ih fun d hd => h d (by simp [hd])]

theorem Memory.read_of_no_key (m : Memory) (a : Nat) (h : ∀ c ∈ m, c.1 ≠ a) : Memory.read m a = unlistedByte := by
  simpa using Memory.read_append_of_no_key m [] a h

theorem Memory.read_filter (m : Memory) (p : Nat → Bool) (a : Nat) :
    Memory.read (m.filter fun c => p c.1) a = if p a then Memory.read m a else unlistedByte := by
  induction m with
  | nil => simp
  | cons c m ih =>
    by_cases hc : p c.1 <;> by_cases ha : c.1 = a
    · subst ha; simp [hc]
    · simp [hc, ih, ha]
    · subst ha; simp [hc, ih]
    · simp [hc, ih, ha]

theorem Memory.cells_key_bounds (base : Nat) (bs : List Byte) (c : Host.Cell) (h : c ∈ Memory.cells base bs) :
    base ≤ c.1 ∧ c.1 < base + bs.length := by
  induction bs generalizing base with
  | nil => simp [Memory.cells] at h
  | cons b bs ih =>
    simp only [Memory.cells, List.length_cons] at h ⊢
    split at h
    · have := ih (base + 1) h; omega
    · rcases List.mem_cons.mp h with rfl | h
      · simp
      · have := ih (base + 1) h; omega

theorem Memory.read_cells (base : Nat) (bs : List Byte) (a : Nat) (h : base ≤ a) :
    Memory.read (Memory.cells base bs) a = byteAt bs (a - base) := by
  induction bs generalizing base with
  | nil => simp [Memory.cells, byteAt, unlistedByte]
  | cons b bs ih =>
    simp only [Memory.cells]
    by_cases ha : a = base
    · subst ha
      split
      · rename_i hb
        rw [Memory.read_of_no_key]
        · simp [byteAt, hb]
        · intro c hc
          have := Memory.cells_key_bounds _ _ c hc; omega
      · simp [byteAt]
    · have hstep : a - base = (a - (base + 1)) + 1 := by omega
      split
      · rw [ih (base + 1) (by omega), hstep]; simp [byteAt]
      · rw [Memory.read_cons, if_neg (by omega), ih (base + 1) (by omega), hstep]; simp [byteAt]

/-- What reading a byte gives after storing bytes: the stored byte within them, the old byte elsewhere. -/
theorem Memory.read_writeBytes (m : Memory) (base : Nat) (bs : List Byte) (a : Nat) :
    Memory.read (m.writeBytes base bs) a =
      if base ≤ a ∧ a < base + bs.length then byteAt bs (a - base) else Memory.read m a := by
  unfold Memory.writeBytes
  by_cases hlo : a < base
  · rw [Memory.read_append_of_key, Memory.read_filter m (fun k => decide (k < base))]
    · simp [hlo, Nat.not_le.mpr hlo]
    · intro c hc
      rcases List.mem_append.mp hc with hc | hc
      · have := Memory.cells_key_bounds _ _ c hc; omega
      · have := (List.mem_filter.mp hc).2; simp at this; omega
  · rw [Memory.read_append_of_no_key]
    · by_cases hhi : a < base + bs.length
      · rw [Memory.read_append_of_key, Memory.read_cells _ _ _ (by omega)]
        · simp [hhi, Nat.le_of_not_lt hlo]
        · intro c hc
          have := (List.mem_filter.mp hc).2; simp at this; omega
      · rw [Memory.read_append_of_no_key, Memory.read_filter m (fun k => decide (base + bs.length ≤ k))]
        · simp [hhi, Nat.le_of_not_lt hhi]
        · intro c hc
          have := Memory.cells_key_bounds _ _ c hc; omega
    · intro c hc
      have := (List.mem_filter.mp hc).2; simp at this; omega

theorem Memory.read_writeBytes_of_outside (m : Memory) (base : Nat) (bs : List Byte) (a : Nat)
    (h : a < base ∨ base + bs.length ≤ a) : Memory.read (m.writeBytes base bs) a = Memory.read m a := by
  rw [Memory.read_writeBytes, if_neg (by omega)]

theorem Memory.read_writeBytes_of_inside (m : Memory) (base : Nat) (bs : List Byte) (j : Nat) (h : j < bs.length) :
    Memory.read (m.writeBytes base bs) (base + j) = byteAt bs j := by
  rw [Memory.read_writeBytes, if_pos (by omega), Nat.add_sub_cancel_left]

/-- What reading a byte gives after clearing: 0 within the cleared bytes, the old byte elsewhere. -/
theorem Memory.read_clear (m : Memory) (base n a : Nat) :
    Memory.read (m.clear base n) a = if base ≤ a ∧ a < base + n then unlistedByte else Memory.read m a := by
  unfold Memory.clear
  rw [Memory.read_filter m (fun k => decide (k < base) || decide (base + n ≤ k))]
  by_cases h : base ≤ a ∧ a < base + n
  · rw [if_pos h, if_neg (by simp; omega)]
  · rw [if_neg h, if_pos (by simp; omega)]

@[simp] theorem Memory.readBytes_length (m : Memory) (base n : Nat) : (m.readBytes base n).length = n := by
  simp [Memory.readBytes]

theorem Memory.byteAt_readBytes (m : Memory) (base n p : Nat) (h : p < n) :
    byteAt (m.readBytes base n) p = m.read (base + p) := by
  simp [Memory.readBytes, byteAt, h]

theorem Memory.readBytes_congr (m m' : Memory) (base n : Nat)
    (h : ∀ j < n, m.read (base + j) = m'.read (base + j)) : m.readBytes base n = m'.readBytes base n := by
  unfold Memory.readBytes
  exact List.map_congr_left fun j hj => h j (List.mem_range.mp hj)

theorem Memory.readBytes_writeBytes_of_disjoint (m : Memory) (base : Nat) (bs : List Byte) (from_ n : Nat)
    (h : from_ + n ≤ base ∨ base + bs.length ≤ from_) :
    (m.writeBytes base bs).readBytes from_ n = m.readBytes from_ n :=
  Memory.readBytes_congr _ _ _ _ fun j hj => Memory.read_writeBytes_of_outside _ _ _ _ (by omega)

theorem byteAt_padTo (n : Nat) (v : List Byte) (p : Nat) : byteAt (padTo n v) p = byteAt v p := by
  unfold byteAt padTo
  rw [List.getD_eq_getElem?_getD, List.getD_eq_getElem?_getD, List.getElem?_append]
  split
  · rfl
  · rename_i h
    rw [List.getElem?_eq_none (Nat.le_of_not_lt h), List.getElem?_replicate]
    split <;> rfl

theorem padTo_length (n : Nat) (v : List Byte) : (padTo n v).length = max n v.length := by
  simp [padTo]; omega

/-! ### The canonical form -/

theorem Memory.wfFrom_mono {lo lo' : Nat} {m : Memory} (h : lo' ≤ lo) (hm : m.wfFrom lo = true) :
    m.wfFrom lo' = true := by
  cases m with
  | nil => rfl
  | cons c m =>
    simp only [Memory.wfFrom, Bool.and_eq_true, decide_eq_true_eq] at hm ⊢
    exact ⟨⟨by omega, hm.1.2⟩, hm.2⟩

theorem Memory.wfFrom_filter (lo : Nat) (m : Memory) (p : Host.Cell → Bool) (h : m.wfFrom lo = true) :
    Memory.wfFrom lo (m.filter p) = true := by
  induction m generalizing lo with
  | nil => rfl
  | cons c m ih =>
    simp only [Memory.wfFrom, Bool.and_eq_true, decide_eq_true_eq] at h
    by_cases hc : p c
    · rw [List.filter_cons_of_pos hc]
      simp only [Memory.wfFrom, Bool.and_eq_true, decide_eq_true_eq]
      exact ⟨h.1, ih _ h.2⟩
    · rw [List.filter_cons_of_neg hc]
      exact Memory.wfFrom_mono (by omega) (ih _ h.2)

theorem Memory.wfFrom_of_keys {lo lo' : Nat} {m : Memory} (hk : ∀ c ∈ m, lo' ≤ c.1) (h : m.wfFrom lo = true) :
    m.wfFrom lo' = true := by
  cases m with
  | nil => rfl
  | cons c m =>
    simp only [Memory.wfFrom, Bool.and_eq_true, decide_eq_true_eq] at h ⊢
    exact ⟨⟨hk c (by simp), h.1.2⟩, h.2⟩

theorem Memory.wfFrom_cells (base : Nat) (bs : List Byte) : Memory.wfFrom base (Memory.cells base bs) = true := by
  induction bs generalizing base with
  | nil => rfl
  | cons b bs ih =>
    simp only [Memory.cells]
    split
    · exact Memory.wfFrom_mono (by omega) (ih (base + 1))
    · rename_i hb
      simp only [Memory.wfFrom, Bool.and_eq_true, decide_eq_true_eq, bne_iff_ne, ne_eq]
      exact ⟨⟨Nat.le_refl _, hb⟩, ih (base + 1)⟩

theorem Memory.wfFrom_append {lo mid : Nat} {m₁ m₂ : Memory} (h₁ : m₁.wfFrom lo = true)
    (hk : ∀ c ∈ m₁, c.1 < mid) (hlo : lo ≤ mid) (h₂ : Memory.wfFrom mid m₂ = true) :
    Memory.wfFrom lo (m₁ ++ m₂) = true := by
  induction m₁ generalizing lo with
  | nil => exact Memory.wfFrom_mono hlo h₂
  | cons c m ih =>
    simp only [List.cons_append, Memory.wfFrom, Bool.and_eq_true, decide_eq_true_eq] at h₁ ⊢
    have := hk c (by simp)
    exact ⟨h₁.1, ih h₁.2 (fun d hd => hk d (by simp [hd])) (by omega)⟩

/-- Storing bytes keeps the canonical form. -/
theorem Memory.wf_writeBytes (m : Memory) (base : Nat) (bs : List Byte) (h : m.wf = true) :
    (m.writeBytes base bs).wf = true := by
  unfold Memory.wf Memory.writeBytes at *
  refine Memory.wfFrom_append (mid := base) (Memory.wfFrom_filter _ _ _ h) ?_ (Nat.zero_le _) ?_
  · intro c hc; simpa using (List.mem_filter.mp hc).2
  · refine Memory.wfFrom_append (mid := base + bs.length) (Memory.wfFrom_cells _ _) ?_ (Nat.le_add_right _ _) ?_
    · intro c hc; exact (Memory.cells_key_bounds _ _ c hc).2
    · refine Memory.wfFrom_of_keys ?_ (Memory.wfFrom_filter 0 _ _ h)
      intro c hc; simpa using (List.mem_filter.mp hc).2

/-- Clearing bytes keeps the canonical form. -/
theorem Memory.wf_clear (m : Memory) (base n : Nat) (h : m.wf = true) : (m.clear base n).wf = true :=
  Memory.wfFrom_filter _ _ _ h

theorem Memory.inBuffers_filter (m : Memory) (p : Host.Cell → Bool) (h : m.inBuffers = true) :
    Memory.inBuffers (m.filter p) = true := by
  unfold Memory.inBuffers at *
  rw [List.all_eq_true] at *
  exact fun c hc => h c (List.mem_filter.mp hc).1

/-- Clearing bytes keeps every listed byte in a buffer. -/
theorem Memory.inBuffers_clear (m : Memory) (base n : Nat) (h : m.inBuffers = true) :
    (m.clear base n).inBuffers = true := Memory.inBuffers_filter _ _ h

/-- Storing bytes of a buffer keeps every listed byte in a buffer. -/
theorem Memory.inBuffers_writeBytes (m : Memory) (base : Nat) (bs : List Byte) (h : m.inBuffers = true)
    (hb : ∀ a, base ≤ a → a < base + bs.length → isBufferByte a = true) :
    (m.writeBytes base bs).inBuffers = true := by
  unfold Memory.writeBytes
  have h' : ∀ p : Host.Cell → Bool, Memory.inBuffers (m.filter p) = true := fun p => Memory.inBuffers_filter m p h
  unfold Memory.inBuffers at *
  rw [List.all_append, List.all_append, Bool.and_eq_true, Bool.and_eq_true]
  refine ⟨h' _, ?_, h' _⟩
  rw [List.all_eq_true]
  intro c hc
  have := Memory.cells_key_bounds _ _ c hc
  exact hb _ this.1 this.2

/-- The reset memory has the canonical form. -/
theorem reset_mem_wf : State.reset.mem.wf = true := rfl

end Sys2Proof.Machine
end

