-- ==== Sys2Proof/Laws/State.lean ====
section
/-! SUPPORT. What each named update of the state does to each field, so that no later proof unfolds a record update. -/

namespace Sys2Proof.Machine

open Sys2Proof


/-! ### Issue -/

@[simp] theorem State.issue_ctrl (s : State) (w : Word) : (s.issue w).ctrl = s.ctrl := rfl
@[simp] theorem State.issue_status (s : State) (w : Word) : (s.issue w).status = issueStatus w := rfl
@[simp] theorem State.issue_result (s : State) (w : Word) : (s.issue w).result = s.result := rfl
@[simp] theorem State.issue_errinfo (s : State) (w : Word) : (s.issue w).errinfo = infoCommand := rfl
@[simp] theorem State.issue_ident (s : State) (w : Word) : (s.issue w).ident = s.ident := rfl
@[simp] theorem State.issue_hdr (s : State) (w : Word) : (s.issue w).hdr = s.hdr := rfl
@[simp] theorem State.issue_hdr2 (s : State) (w : Word) : (s.issue w).hdr2 = s.hdr2 := rfl
@[simp] theorem State.issue_splitcfg (s : State) (w : Word) : (s.issue w).splitcfg = s.splitcfg := rfl
@[simp] theorem State.issue_sharecnt (s : State) (w : Word) : (s.issue w).sharecnt = s.sharecnt := rfl
@[simp] theorem State.issue_rngcnt (s : State) (w : Word) : (s.issue w).rngcnt = 0#32 := rfl
@[simp] theorem State.issue_gspec (s : State) (w : Word) : (s.issue w).gspec = s.gspec := rfl
@[simp] theorem State.issue_mem (s : State) (w : Word) : (s.issue w).mem = s.mem := rfl
@[simp] theorem State.issue_latch (s : State) (w : Word) : (s.issue w).latch = some w := rfl
@[simp] theorem State.issue_irq (s : State) (w : Word) : (s.issue w).irq = false := rfl
@[simp] theorem State.issue_port (s : State) (w : Word) : (s.issue w).port = s.port := rfl
@[simp] theorem State.issue_inputs (s : State) (w : Word) : (s.issue w).inputs = s.inputs := rfl
@[simp] theorem State.issue_schedule (s : State) (w : Word) : (s.issue w).schedule = s.schedule := rfl
@[simp] theorem State.issue_responses (s : State) (w : Word) : (s.issue w).responses = s.responses := rfl
@[simp] theorem State.issue_observations (s : State) (w : Word) : (s.issue w).observations = s.observations := rfl
@[simp] theorem State.issue_drawn (s : State) (w : Word) : (s.issue w).drawn = 0 := rfl

/-! ### Issue for the next step -/

@[simp] theorem State.issueNext_ctrl (s : State) (w : Word) : (s.issueNext w).ctrl = s.ctrl := rfl
@[simp] theorem State.issueNext_status (s : State) (w : Word) : (s.issueNext w).status = issueStatus w := rfl
@[simp] theorem State.issueNext_result (s : State) (w : Word) : (s.issueNext w).result = s.result := rfl
@[simp] theorem State.issueNext_errinfo (s : State) (w : Word) : (s.issueNext w).errinfo = infoCommand := rfl
@[simp] theorem State.issueNext_ident (s : State) (w : Word) : (s.issueNext w).ident = s.ident := rfl
@[simp] theorem State.issueNext_hdr (s : State) (w : Word) : (s.issueNext w).hdr = s.hdr := rfl
@[simp] theorem State.issueNext_hdr2 (s : State) (w : Word) : (s.issueNext w).hdr2 = s.hdr2 := rfl
@[simp] theorem State.issueNext_splitcfg (s : State) (w : Word) : (s.issueNext w).splitcfg = s.splitcfg := rfl
@[simp] theorem State.issueNext_sharecnt (s : State) (w : Word) : (s.issueNext w).sharecnt = s.sharecnt := rfl
@[simp] theorem State.issueNext_rngcnt (s : State) (w : Word) : (s.issueNext w).rngcnt = 0#32 := rfl
@[simp] theorem State.issueNext_gspec (s : State) (w : Word) : (s.issueNext w).gspec = s.gspec := rfl
@[simp] theorem State.issueNext_mem (s : State) (w : Word) : (s.issueNext w).mem = s.mem := rfl
@[simp] theorem State.issueNext_latch (s : State) (w : Word) : (s.issueNext w).latch = some w := rfl
@[simp] theorem State.issueNext_irq (s : State) (w : Word) : (s.issueNext w).irq = false := rfl
@[simp] theorem State.issueNext_port (s : State) (w : Word) : (s.issueNext w).port = s.port := rfl
@[simp] theorem State.issueNext_inputs (s : State) (w : Word) : (s.issueNext w).inputs = s.inputs := rfl
@[simp] theorem State.issueNext_schedule (s : State) (w : Word) : (s.issueNext w).schedule = [] := rfl
@[simp] theorem State.issueNext_responses (s : State) (w : Word) : (s.issueNext w).responses = s.responses := rfl
@[simp] theorem State.issueNext_observations (s : State) (w : Word) :
    (s.issueNext w).observations = s.observations := rfl
@[simp] theorem State.issueNext_drawn (s : State) (w : Word) :
    (s.issueNext w).drawn = 0 := rfl

/-! ### Normal completion -/

@[simp] theorem State.completeOk_ctrl (s : State) (ph : Phase) : (s.completeOk ph).ctrl = s.ctrl := rfl
@[simp] theorem State.completeOk_status (s : State) (ph : Phase) :
    (s.completeOk ph).status = completionStatus s.status ph none := rfl
@[simp] theorem State.completeOk_result (s : State) (ph : Phase) : (s.completeOk ph).result = s.result := rfl
@[simp] theorem State.completeOk_errinfo (s : State) (ph : Phase) : (s.completeOk ph).errinfo = s.errinfo := rfl
@[simp] theorem State.completeOk_ident (s : State) (ph : Phase) : (s.completeOk ph).ident = s.ident := rfl
@[simp] theorem State.completeOk_hdr (s : State) (ph : Phase) : (s.completeOk ph).hdr = s.hdr := rfl
@[simp] theorem State.completeOk_hdr2 (s : State) (ph : Phase) : (s.completeOk ph).hdr2 = s.hdr2 := rfl
@[simp] theorem State.completeOk_splitcfg (s : State) (ph : Phase) : (s.completeOk ph).splitcfg = s.splitcfg := rfl
@[simp] theorem State.completeOk_sharecnt (s : State) (ph : Phase) : (s.completeOk ph).sharecnt = s.sharecnt := rfl
@[simp] theorem State.completeOk_rngcnt (s : State) (ph : Phase) : (s.completeOk ph).rngcnt = s.rngcnt := rfl
@[simp] theorem State.completeOk_gspec (s : State) (ph : Phase) : (s.completeOk ph).gspec = s.gspec := rfl
@[simp] theorem State.completeOk_mem (s : State) (ph : Phase) : (s.completeOk ph).mem = s.mem := rfl
@[simp] theorem State.completeOk_latch (s : State) (ph : Phase) : (s.completeOk ph).latch = none := rfl
@[simp] theorem State.completeOk_irq (s : State) (ph : Phase) : (s.completeOk ph).irq = s.ctrl.ie := rfl
@[simp] theorem State.completeOk_port (s : State) (ph : Phase) : (s.completeOk ph).port = s.port := rfl
@[simp] theorem State.completeOk_inputs (s : State) (ph : Phase) : (s.completeOk ph).inputs = s.inputs := rfl
@[simp] theorem State.completeOk_schedule (s : State) (ph : Phase) : (s.completeOk ph).schedule = s.schedule := rfl
@[simp] theorem State.completeOk_responses (s : State) (ph : Phase) : (s.completeOk ph).responses = s.responses := rfl
@[simp] theorem State.completeOk_observations (s : State) (ph : Phase) :
    (s.completeOk ph).observations = s.observations := rfl
@[simp] theorem State.completeOk_drawn (s : State) (ph : Phase) :
    (s.completeOk ph).drawn = s.drawn := rfl

/-! ### Completion by raise -/

@[simp] theorem State.completeRaised_ctrl (s : State) (r : Raised) : (s.completeRaised r).ctrl = s.ctrl := rfl
@[simp] theorem State.completeRaised_status (s : State) (r : Raised) :
    (s.completeRaised r).status = completionStatus s.status .failed (some r.err) := rfl
@[simp] theorem State.completeRaised_result (s : State) (r : Raised) : (s.completeRaised r).result = s.result := rfl
@[simp] theorem State.completeRaised_errinfo (s : State) (r : Raised) : (s.completeRaised r).errinfo = r.info := rfl
@[simp] theorem State.completeRaised_ident (s : State) (r : Raised) : (s.completeRaised r).ident = s.ident := rfl
@[simp] theorem State.completeRaised_hdr (s : State) (r : Raised) : (s.completeRaised r).hdr = s.hdr := rfl
@[simp] theorem State.completeRaised_hdr2 (s : State) (r : Raised) : (s.completeRaised r).hdr2 = s.hdr2 := rfl
@[simp] theorem State.completeRaised_splitcfg (s : State) (r : Raised) :
    (s.completeRaised r).splitcfg = s.splitcfg := rfl
@[simp] theorem State.completeRaised_sharecnt (s : State) (r : Raised) :
    (s.completeRaised r).sharecnt = s.sharecnt := rfl
@[simp] theorem State.completeRaised_rngcnt (s : State) (r : Raised) : (s.completeRaised r).rngcnt = s.rngcnt := rfl
@[simp] theorem State.completeRaised_gspec (s : State) (r : Raised) : (s.completeRaised r).gspec = s.gspec := rfl
@[simp] theorem State.completeRaised_mem (s : State) (r : Raised) : (s.completeRaised r).mem = s.mem := rfl
@[simp] theorem State.completeRaised_latch (s : State) (r : Raised) : (s.completeRaised r).latch = none := rfl
@[simp] theorem State.completeRaised_irq (s : State) (r : Raised) : (s.completeRaised r).irq = s.ctrl.ie := rfl
@[simp] theorem State.completeRaised_port (s : State) (r : Raised) : (s.completeRaised r).port = s.port := rfl
@[simp] theorem State.completeRaised_inputs (s : State) (r : Raised) : (s.completeRaised r).inputs = s.inputs := rfl
@[simp] theorem State.completeRaised_schedule (s : State) (r : Raised) :
    (s.completeRaised r).schedule = s.schedule := rfl
@[simp] theorem State.completeRaised_responses (s : State) (r : Raised) :
    (s.completeRaised r).responses = s.responses := rfl
@[simp] theorem State.completeRaised_observations (s : State) (r : Raised) :
    (s.completeRaised r).observations = s.observations := rfl
@[simp] theorem State.completeRaised_drawn (s : State) (r : Raised) :
    (s.completeRaised r).drawn = s.drawn := rfl

/-! ### Clearing DONE -/

@[simp] theorem State.clearDone_ctrl (s : State) : (s.clearDone).ctrl = s.ctrl := rfl
@[simp] theorem State.clearDone_status (s : State) :
    (s.clearDone).status = ⟨s.status.busy, false, s.status.phase, s.status.errcode, s.status.lastop⟩ := rfl
@[simp] theorem State.clearDone_result (s : State) : (s.clearDone).result = s.result := rfl
@[simp] theorem State.clearDone_errinfo (s : State) : (s.clearDone).errinfo = s.errinfo := rfl
@[simp] theorem State.clearDone_ident (s : State) : (s.clearDone).ident = s.ident := rfl
@[simp] theorem State.clearDone_hdr (s : State) : (s.clearDone).hdr = s.hdr := rfl
@[simp] theorem State.clearDone_hdr2 (s : State) : (s.clearDone).hdr2 = s.hdr2 := rfl
@[simp] theorem State.clearDone_splitcfg (s : State) : (s.clearDone).splitcfg = s.splitcfg := rfl
@[simp] theorem State.clearDone_sharecnt (s : State) : (s.clearDone).sharecnt = s.sharecnt := rfl
@[simp] theorem State.clearDone_rngcnt (s : State) : (s.clearDone).rngcnt = s.rngcnt := rfl
@[simp] theorem State.clearDone_gspec (s : State) : (s.clearDone).gspec = s.gspec := rfl
@[simp] theorem State.clearDone_mem (s : State) : (s.clearDone).mem = s.mem := rfl
@[simp] theorem State.clearDone_latch (s : State) : (s.clearDone).latch = s.latch := rfl
@[simp] theorem State.clearDone_irq (s : State) : (s.clearDone).irq = false := rfl
@[simp] theorem State.clearDone_port (s : State) : (s.clearDone).port = s.port := rfl
@[simp] theorem State.clearDone_inputs (s : State) : (s.clearDone).inputs = s.inputs := rfl
@[simp] theorem State.clearDone_schedule (s : State) : (s.clearDone).schedule = s.schedule := rfl
@[simp] theorem State.clearDone_responses (s : State) : (s.clearDone).responses = s.responses := rfl
@[simp] theorem State.clearDone_observations (s : State) : (s.clearDone).observations = s.observations := rfl
@[simp] theorem State.clearDone_drawn (s : State) : (s.clearDone).drawn = s.drawn := rfl

/-! ### Reset -/

@[simp] theorem State.hardReset_ctrl (s : State) : (s.hardReset).ctrl = State.reset.ctrl := rfl
@[simp] theorem State.hardReset_status (s : State) : (s.hardReset).status = State.reset.status := rfl
@[simp] theorem State.hardReset_result (s : State) : (s.hardReset).result = State.reset.result := rfl
@[simp] theorem State.hardReset_errinfo (s : State) : (s.hardReset).errinfo = State.reset.errinfo := rfl
@[simp] theorem State.hardReset_ident (s : State) : (s.hardReset).ident = State.reset.ident := rfl
@[simp] theorem State.hardReset_hdr (s : State) : (s.hardReset).hdr = State.reset.hdr := rfl
@[simp] theorem State.hardReset_hdr2 (s : State) : (s.hardReset).hdr2 = State.reset.hdr2 := rfl
@[simp] theorem State.hardReset_splitcfg (s : State) : (s.hardReset).splitcfg = State.reset.splitcfg := rfl
@[simp] theorem State.hardReset_sharecnt (s : State) : (s.hardReset).sharecnt = State.reset.sharecnt := rfl
@[simp] theorem State.hardReset_rngcnt (s : State) : (s.hardReset).rngcnt = State.reset.rngcnt := rfl
@[simp] theorem State.hardReset_gspec (s : State) : (s.hardReset).gspec = State.reset.gspec := rfl
@[simp] theorem State.hardReset_mem (s : State) : (s.hardReset).mem = State.reset.mem := rfl
@[simp] theorem State.hardReset_latch (s : State) : (s.hardReset).latch = State.reset.latch := rfl
@[simp] theorem State.hardReset_irq (s : State) : (s.hardReset).irq = State.reset.irq := rfl
@[simp] theorem State.hardReset_port (s : State) : (s.hardReset).port = s.port.skip s.abandonedDraws := rfl
@[simp] theorem State.hardReset_inputs (s : State) : (s.hardReset).inputs = s.inputs := rfl
@[simp] theorem State.hardReset_schedule (s : State) : (s.hardReset).schedule = s.schedule := rfl
@[simp] theorem State.hardReset_responses (s : State) : (s.hardReset).responses = s.responses := rfl
@[simp] theorem State.hardReset_observations (s : State) : (s.hardReset).observations = s.observations := rfl
@[simp] theorem State.hardReset_drawn (s : State) : (s.hardReset).drawn = 0 := rfl

/-! ### Storing bytes -/

@[simp] theorem State.store_ctrl (s : State) (base : Nat) (bs : List Byte) : (s.store base bs).ctrl = s.ctrl := rfl
@[simp] theorem State.store_status (s : State) (base : Nat) (bs : List Byte) :
    (s.store base bs).status = s.status := rfl
@[simp] theorem State.store_result (s : State) (base : Nat) (bs : List Byte) :
    (s.store base bs).result = s.result := rfl
@[simp] theorem State.store_errinfo (s : State) (base : Nat) (bs : List Byte) :
    (s.store base bs).errinfo = s.errinfo := rfl
@[simp] theorem State.store_ident (s : State) (base : Nat) (bs : List Byte) : (s.store base bs).ident = s.ident := rfl
@[simp] theorem State.store_hdr (s : State) (base : Nat) (bs : List Byte) : (s.store base bs).hdr = s.hdr := rfl
@[simp] theorem State.store_hdr2 (s : State) (base : Nat) (bs : List Byte) : (s.store base bs).hdr2 = s.hdr2 := rfl
@[simp] theorem State.store_splitcfg (s : State) (base : Nat) (bs : List Byte) :
    (s.store base bs).splitcfg = s.splitcfg := rfl
@[simp] theorem State.store_sharecnt (s : State) (base : Nat) (bs : List Byte) :
    (s.store base bs).sharecnt = s.sharecnt := rfl
@[simp] theorem State.store_rngcnt (s : State) (base : Nat) (bs : List Byte) :
    (s.store base bs).rngcnt = s.rngcnt := rfl
@[simp] theorem State.store_gspec (s : State) (base : Nat) (bs : List Byte) : (s.store base bs).gspec = s.gspec := rfl
@[simp] theorem State.store_mem (s : State) (base : Nat) (bs : List Byte) :
    (s.store base bs).mem = s.mem.writeBytes base bs := rfl
@[simp] theorem State.store_latch (s : State) (base : Nat) (bs : List Byte) : (s.store base bs).latch = s.latch := rfl
@[simp] theorem State.store_irq (s : State) (base : Nat) (bs : List Byte) : (s.store base bs).irq = s.irq := rfl
@[simp] theorem State.store_port (s : State) (base : Nat) (bs : List Byte) : (s.store base bs).port = s.port := rfl
@[simp] theorem State.store_inputs (s : State) (base : Nat) (bs : List Byte) :
    (s.store base bs).inputs = s.inputs := rfl
@[simp] theorem State.store_schedule (s : State) (base : Nat) (bs : List Byte) :
    (s.store base bs).schedule = s.schedule := rfl
@[simp] theorem State.store_responses (s : State) (base : Nat) (bs : List Byte) :
    (s.store base bs).responses = s.responses := rfl
@[simp] theorem State.store_observations (s : State) (base : Nat) (bs : List Byte) :
    (s.store base bs).observations = s.observations := rfl
@[simp] theorem State.store_drawn (s : State) (base : Nat) (bs : List Byte) :
    (s.store base bs).drawn = s.drawn := rfl

/-! ### Clearing a buffer -/

@[simp] theorem State.clearBuffer_ctrl (s : State) (b : Buffer) : (s.clearBuffer b).ctrl = s.ctrl := rfl
@[simp] theorem State.clearBuffer_status (s : State) (b : Buffer) : (s.clearBuffer b).status = s.status := rfl
@[simp] theorem State.clearBuffer_result (s : State) (b : Buffer) : (s.clearBuffer b).result = s.result := rfl
@[simp] theorem State.clearBuffer_errinfo (s : State) (b : Buffer) : (s.clearBuffer b).errinfo = s.errinfo := rfl
@[simp] theorem State.clearBuffer_ident (s : State) (b : Buffer) : (s.clearBuffer b).ident = s.ident := rfl
@[simp] theorem State.clearBuffer_hdr (s : State) (b : Buffer) : (s.clearBuffer b).hdr = s.hdr := rfl
@[simp] theorem State.clearBuffer_hdr2 (s : State) (b : Buffer) : (s.clearBuffer b).hdr2 = s.hdr2 := rfl
@[simp] theorem State.clearBuffer_splitcfg (s : State) (b : Buffer) : (s.clearBuffer b).splitcfg = s.splitcfg := rfl
@[simp] theorem State.clearBuffer_sharecnt (s : State) (b : Buffer) : (s.clearBuffer b).sharecnt = s.sharecnt := rfl
@[simp] theorem State.clearBuffer_rngcnt (s : State) (b : Buffer) : (s.clearBuffer b).rngcnt = s.rngcnt := rfl
@[simp] theorem State.clearBuffer_gspec (s : State) (b : Buffer) : (s.clearBuffer b).gspec = s.gspec := rfl
@[simp] theorem State.clearBuffer_mem (s : State) (b : Buffer) : (s.clearBuffer b).mem = s.mem.clearBuffer b := rfl
@[simp] theorem State.clearBuffer_latch (s : State) (b : Buffer) : (s.clearBuffer b).latch = s.latch := rfl
@[simp] theorem State.clearBuffer_irq (s : State) (b : Buffer) : (s.clearBuffer b).irq = s.irq := rfl
@[simp] theorem State.clearBuffer_port (s : State) (b : Buffer) : (s.clearBuffer b).port = s.port := rfl
@[simp] theorem State.clearBuffer_inputs (s : State) (b : Buffer) : (s.clearBuffer b).inputs = s.inputs := rfl
@[simp] theorem State.clearBuffer_schedule (s : State) (b : Buffer) : (s.clearBuffer b).schedule = s.schedule := rfl
@[simp] theorem State.clearBuffer_responses (s : State) (b : Buffer) : (s.clearBuffer b).responses = s.responses := rfl
@[simp] theorem State.clearBuffer_observations (s : State) (b : Buffer) :
    (s.clearBuffer b).observations = s.observations := rfl
@[simp] theorem State.clearBuffer_drawn (s : State) (b : Buffer) :
    (s.clearBuffer b).drawn = s.drawn := rfl

/-! ### After drawing -/

@[simp] theorem State.afterDrawing_ctrl (s : State) (d : Drawing) : (s.afterDrawing d).ctrl = s.ctrl := rfl
@[simp] theorem State.afterDrawing_status (s : State) (d : Drawing) : (s.afterDrawing d).status = s.status := rfl
@[simp] theorem State.afterDrawing_result (s : State) (d : Drawing) : (s.afterDrawing d).result = s.result := rfl
@[simp] theorem State.afterDrawing_errinfo (s : State) (d : Drawing) : (s.afterDrawing d).errinfo = s.errinfo := rfl
@[simp] theorem State.afterDrawing_ident (s : State) (d : Drawing) : (s.afterDrawing d).ident = s.ident := rfl
@[simp] theorem State.afterDrawing_hdr (s : State) (d : Drawing) : (s.afterDrawing d).hdr = s.hdr := rfl
@[simp] theorem State.afterDrawing_hdr2 (s : State) (d : Drawing) : (s.afterDrawing d).hdr2 = s.hdr2 := rfl
@[simp] theorem State.afterDrawing_splitcfg (s : State) (d : Drawing) : (s.afterDrawing d).splitcfg = s.splitcfg := rfl
@[simp] theorem State.afterDrawing_sharecnt (s : State) (d : Drawing) : (s.afterDrawing d).sharecnt = s.sharecnt := rfl
@[simp] theorem State.afterDrawing_rngcnt (s : State) (d : Drawing) :
    (s.afterDrawing d).rngcnt = s.rngcnt + BitVec.ofNat 32 d.count := rfl
@[simp] theorem State.afterDrawing_gspec (s : State) (d : Drawing) : (s.afterDrawing d).gspec = s.gspec := rfl
@[simp] theorem State.afterDrawing_mem (s : State) (d : Drawing) : (s.afterDrawing d).mem = s.mem := rfl
@[simp] theorem State.afterDrawing_latch (s : State) (d : Drawing) : (s.afterDrawing d).latch = s.latch := rfl
@[simp] theorem State.afterDrawing_irq (s : State) (d : Drawing) : (s.afterDrawing d).irq = s.irq := rfl
@[simp] theorem State.afterDrawing_port (s : State) (d : Drawing) : (s.afterDrawing d).port = d.port := rfl
@[simp] theorem State.afterDrawing_inputs (s : State) (d : Drawing) : (s.afterDrawing d).inputs = s.inputs := rfl
@[simp] theorem State.afterDrawing_schedule (s : State) (d : Drawing) : (s.afterDrawing d).schedule = s.schedule := rfl
@[simp] theorem State.afterDrawing_responses (s : State) (d : Drawing) :
    (s.afterDrawing d).responses = s.responses := rfl
@[simp] theorem State.afterDrawing_observations (s : State) (d : Drawing) :
    (s.afterDrawing d).observations = s.observations := rfl
@[simp] theorem State.afterDrawing_drawn (s : State) (d : Drawing) :
    (s.afterDrawing d).drawn = s.drawn := rfl

/-! ### A response -/

@[simp] theorem State.respond_ctrl (s : State) (r : BusResponse) : (s.respond r).ctrl = s.ctrl := rfl
@[simp] theorem State.respond_status (s : State) (r : BusResponse) : (s.respond r).status = s.status := rfl
@[simp] theorem State.respond_result (s : State) (r : BusResponse) : (s.respond r).result = s.result := rfl
@[simp] theorem State.respond_errinfo (s : State) (r : BusResponse) : (s.respond r).errinfo = s.errinfo := rfl
@[simp] theorem State.respond_ident (s : State) (r : BusResponse) : (s.respond r).ident = s.ident := rfl
@[simp] theorem State.respond_hdr (s : State) (r : BusResponse) : (s.respond r).hdr = s.hdr := rfl
@[simp] theorem State.respond_hdr2 (s : State) (r : BusResponse) : (s.respond r).hdr2 = s.hdr2 := rfl
@[simp] theorem State.respond_splitcfg (s : State) (r : BusResponse) : (s.respond r).splitcfg = s.splitcfg := rfl
@[simp] theorem State.respond_sharecnt (s : State) (r : BusResponse) : (s.respond r).sharecnt = s.sharecnt := rfl
@[simp] theorem State.respond_rngcnt (s : State) (r : BusResponse) : (s.respond r).rngcnt = s.rngcnt := rfl
@[simp] theorem State.respond_gspec (s : State) (r : BusResponse) : (s.respond r).gspec = s.gspec := rfl
@[simp] theorem State.respond_mem (s : State) (r : BusResponse) : (s.respond r).mem = s.mem := rfl
@[simp] theorem State.respond_latch (s : State) (r : BusResponse) : (s.respond r).latch = s.latch := rfl
@[simp] theorem State.respond_irq (s : State) (r : BusResponse) : (s.respond r).irq = s.irq := rfl
@[simp] theorem State.respond_port (s : State) (r : BusResponse) : (s.respond r).port = s.port := rfl
@[simp] theorem State.respond_inputs (s : State) (r : BusResponse) : (s.respond r).inputs = s.inputs := rfl
@[simp] theorem State.respond_schedule (s : State) (r : BusResponse) : (s.respond r).schedule = s.schedule := rfl
@[simp] theorem State.respond_responses (s : State) (r : BusResponse) :
    (s.respond r).responses = r :: s.responses := rfl
@[simp] theorem State.respond_observations (s : State) (r : BusResponse) :
    (s.respond r).observations = s.observations := rfl
@[simp] theorem State.respond_drawn (s : State) (r : BusResponse) :
    (s.respond r).drawn = s.drawn := rfl

/-! ### A write of CTRL -/

@[simp] theorem State.writeCtrl_ctrl (s : State) (v : Word) :
    (s.writeCtrl v).ctrl = ⟨v.getLsbD 0, v.getLsbD 1, v.extractLsb' 8 6⟩ := rfl
@[simp] theorem State.writeCtrl_status (s : State) (v : Word) : (s.writeCtrl v).status = s.status := rfl
@[simp] theorem State.writeCtrl_result (s : State) (v : Word) : (s.writeCtrl v).result = s.result := rfl
@[simp] theorem State.writeCtrl_errinfo (s : State) (v : Word) : (s.writeCtrl v).errinfo = s.errinfo := rfl
@[simp] theorem State.writeCtrl_ident (s : State) (v : Word) : (s.writeCtrl v).ident = s.ident := rfl
@[simp] theorem State.writeCtrl_hdr (s : State) (v : Word) : (s.writeCtrl v).hdr = s.hdr := rfl
@[simp] theorem State.writeCtrl_hdr2 (s : State) (v : Word) : (s.writeCtrl v).hdr2 = s.hdr2 := rfl
@[simp] theorem State.writeCtrl_splitcfg (s : State) (v : Word) : (s.writeCtrl v).splitcfg = s.splitcfg := rfl
@[simp] theorem State.writeCtrl_sharecnt (s : State) (v : Word) : (s.writeCtrl v).sharecnt = s.sharecnt := rfl
@[simp] theorem State.writeCtrl_rngcnt (s : State) (v : Word) : (s.writeCtrl v).rngcnt = s.rngcnt := rfl
@[simp] theorem State.writeCtrl_gspec (s : State) (v : Word) : (s.writeCtrl v).gspec = s.gspec := rfl
@[simp] theorem State.writeCtrl_mem (s : State) (v : Word) : (s.writeCtrl v).mem = s.mem := rfl
@[simp] theorem State.writeCtrl_latch (s : State) (v : Word) : (s.writeCtrl v).latch = s.latch := rfl
@[simp] theorem State.writeCtrl_irq (s : State) (v : Word) :
    (s.writeCtrl v).irq = irqLevel s.status.done (v.getLsbD 1) := rfl
@[simp] theorem State.writeCtrl_port (s : State) (v : Word) : (s.writeCtrl v).port = s.port := rfl
@[simp] theorem State.writeCtrl_inputs (s : State) (v : Word) : (s.writeCtrl v).inputs = s.inputs := rfl
@[simp] theorem State.writeCtrl_schedule (s : State) (v : Word) : (s.writeCtrl v).schedule = s.schedule := rfl
@[simp] theorem State.writeCtrl_responses (s : State) (v : Word) : (s.writeCtrl v).responses = s.responses := rfl
@[simp] theorem State.writeCtrl_observations (s : State) (v : Word) :
    (s.writeCtrl v).observations = s.observations := rfl
@[simp] theorem State.writeCtrl_drawn (s : State) (v : Word) :
    (s.writeCtrl v).drawn = s.drawn := rfl

/-! ### The output of the field commands -/

@[simp] theorem writeResult_ctrl (s : State) (v : Byte) : (writeResult v s).ctrl = s.ctrl := rfl
@[simp] theorem writeResult_status (s : State) (v : Byte) : (writeResult v s).status = s.status := rfl
@[simp] theorem writeResult_result (s : State) (v : Byte) : (writeResult v s).result = v := rfl
@[simp] theorem writeResult_errinfo (s : State) (v : Byte) : (writeResult v s).errinfo = s.errinfo := rfl
@[simp] theorem writeResult_ident (s : State) (v : Byte) : (writeResult v s).ident = s.ident := rfl
@[simp] theorem writeResult_hdr (s : State) (v : Byte) : (writeResult v s).hdr = s.hdr := rfl
@[simp] theorem writeResult_hdr2 (s : State) (v : Byte) : (writeResult v s).hdr2 = s.hdr2 := rfl
@[simp] theorem writeResult_splitcfg (s : State) (v : Byte) : (writeResult v s).splitcfg = s.splitcfg := rfl
@[simp] theorem writeResult_sharecnt (s : State) (v : Byte) : (writeResult v s).sharecnt = s.sharecnt := rfl
@[simp] theorem writeResult_rngcnt (s : State) (v : Byte) : (writeResult v s).rngcnt = s.rngcnt := rfl
@[simp] theorem writeResult_gspec (s : State) (v : Byte) : (writeResult v s).gspec = s.gspec := rfl
@[simp] theorem writeResult_mem (s : State) (v : Byte) : (writeResult v s).mem = s.mem := rfl
@[simp] theorem writeResult_latch (s : State) (v : Byte) : (writeResult v s).latch = s.latch := rfl
@[simp] theorem writeResult_irq (s : State) (v : Byte) : (writeResult v s).irq = s.irq := rfl
@[simp] theorem writeResult_port (s : State) (v : Byte) : (writeResult v s).port = s.port := rfl
@[simp] theorem writeResult_inputs (s : State) (v : Byte) : (writeResult v s).inputs = s.inputs := rfl
@[simp] theorem writeResult_schedule (s : State) (v : Byte) : (writeResult v s).schedule = s.schedule := rfl
@[simp] theorem writeResult_responses (s : State) (v : Byte) : (writeResult v s).responses = s.responses := rfl
@[simp] theorem writeResult_observations (s : State) (v : Byte) : (writeResult v s).observations = s.observations := rfl
@[simp] theorem writeResult_drawn (s : State) (v : Byte) : (writeResult v s).drawn = s.drawn := rfl

/-! ### The outputs of DIGEST_MAKE -/

@[simp] theorem writeDigest_ctrl (s : State) (L : Nat) (d : List Byte) : (writeDigest L d s).ctrl = s.ctrl := rfl
@[simp] theorem writeDigest_status (s : State) (L : Nat) (d : List Byte) : (writeDigest L d s).status = s.status := rfl
@[simp] theorem writeDigest_result (s : State) (L : Nat) (d : List Byte) : (writeDigest L d s).result = s.result := rfl
@[simp] theorem writeDigest_errinfo (s : State) (L : Nat) (d : List Byte) :
    (writeDigest L d s).errinfo = s.errinfo := rfl
@[simp] theorem writeDigest_ident (s : State) (L : Nat) (d : List Byte) : (writeDigest L d s).ident = s.ident := rfl
@[simp] theorem writeDigest_hdr (s : State) (L : Nat) (d : List Byte) : (writeDigest L d s).hdr = s.hdr := rfl
@[simp] theorem writeDigest_hdr2 (s : State) (L : Nat) (d : List Byte) : (writeDigest L d s).hdr2 = s.hdr2 := rfl
@[simp] theorem writeDigest_splitcfg (s : State) (L : Nat) (d : List Byte) :
    (writeDigest L d s).splitcfg = s.splitcfg := rfl
@[simp] theorem writeDigest_sharecnt (s : State) (L : Nat) (d : List Byte) :
    (writeDigest L d s).sharecnt = s.sharecnt := rfl
@[simp] theorem writeDigest_rngcnt (s : State) (L : Nat) (d : List Byte) : (writeDigest L d s).rngcnt = s.rngcnt := rfl
@[simp] theorem writeDigest_gspec (s : State) (L : Nat) (d : List Byte) : (writeDigest L d s).gspec = s.gspec := rfl
@[simp] theorem writeDigest_mem (s : State) (L : Nat) (d : List Byte) :
    (writeDigest L d s).mem = (s.mem.writeBytes Buffer.rbuf.base d).clear (Buffer.rbuf.base + L) (32 - L) := rfl
@[simp] theorem writeDigest_latch (s : State) (L : Nat) (d : List Byte) : (writeDigest L d s).latch = s.latch := rfl
@[simp] theorem writeDigest_irq (s : State) (L : Nat) (d : List Byte) : (writeDigest L d s).irq = s.irq := rfl
@[simp] theorem writeDigest_port (s : State) (L : Nat) (d : List Byte) : (writeDigest L d s).port = s.port := rfl
@[simp] theorem writeDigest_inputs (s : State) (L : Nat) (d : List Byte) : (writeDigest L d s).inputs = s.inputs := rfl
@[simp] theorem writeDigest_schedule (s : State) (L : Nat) (d : List Byte) :
    (writeDigest L d s).schedule = s.schedule := rfl
@[simp] theorem writeDigest_responses (s : State) (L : Nat) (d : List Byte) :
    (writeDigest L d s).responses = s.responses := rfl
@[simp] theorem writeDigest_observations (s : State) (L : Nat) (d : List Byte) :
    (writeDigest L d s).observations = s.observations := rfl
@[simp] theorem writeDigest_drawn (s : State) (L : Nat) (d : List Byte) :
    (writeDigest L d s).drawn = s.drawn := rfl

/-! ### The outputs of SHAMIR_SPLIT -/

@[simp] theorem writePoints_ctrl (s : State) (L c : Nat) (Y : List (List Byte)) :
    (writePoints L c Y s).ctrl = s.ctrl := rfl
@[simp] theorem writePoints_status (s : State) (L c : Nat) (Y : List (List Byte)) :
    (writePoints L c Y s).status = s.status := rfl
@[simp] theorem writePoints_result (s : State) (L c : Nat) (Y : List (List Byte)) :
    (writePoints L c Y s).result = s.result := rfl
@[simp] theorem writePoints_errinfo (s : State) (L c : Nat) (Y : List (List Byte)) :
    (writePoints L c Y s).errinfo = s.errinfo := rfl
@[simp] theorem writePoints_ident (s : State) (L c : Nat) (Y : List (List Byte)) :
    (writePoints L c Y s).ident = s.ident := rfl
@[simp] theorem writePoints_hdr (s : State) (L c : Nat) (Y : List (List Byte)) :
    (writePoints L c Y s).hdr = s.hdr := rfl
@[simp] theorem writePoints_hdr2 (s : State) (L c : Nat) (Y : List (List Byte)) :
    (writePoints L c Y s).hdr2 = s.hdr2 := rfl
@[simp] theorem writePoints_splitcfg (s : State) (L c : Nat) (Y : List (List Byte)) :
    (writePoints L c Y s).splitcfg = s.splitcfg := rfl
@[simp] theorem writePoints_sharecnt (s : State) (L c : Nat) (Y : List (List Byte)) :
    (writePoints L c Y s).sharecnt = s.sharecnt := rfl
@[simp] theorem writePoints_rngcnt (s : State) (L c : Nat) (Y : List (List Byte)) :
    (writePoints L c Y s).rngcnt = s.rngcnt := rfl
@[simp] theorem writePoints_gspec (s : State) (L c : Nat) (Y : List (List Byte)) :
    (writePoints L c Y s).gspec = s.gspec := rfl
@[simp] theorem writePoints_latch (s : State) (L c : Nat) (Y : List (List Byte)) :
    (writePoints L c Y s).latch = s.latch := rfl
@[simp] theorem writePoints_irq (s : State) (L c : Nat) (Y : List (List Byte)) :
    (writePoints L c Y s).irq = s.irq := rfl
@[simp] theorem writePoints_port (s : State) (L c : Nat) (Y : List (List Byte)) :
    (writePoints L c Y s).port = s.port := rfl
@[simp] theorem writePoints_inputs (s : State) (L c : Nat) (Y : List (List Byte)) :
    (writePoints L c Y s).inputs = s.inputs := rfl
@[simp] theorem writePoints_schedule (s : State) (L c : Nat) (Y : List (List Byte)) :
    (writePoints L c Y s).schedule = s.schedule := rfl
@[simp] theorem writePoints_responses (s : State) (L c : Nat) (Y : List (List Byte)) :
    (writePoints L c Y s).responses = s.responses := rfl
@[simp] theorem writePoints_observations (s : State) (L c : Nat) (Y : List (List Byte)) :
    (writePoints L c Y s).observations = s.observations := rfl
@[simp] theorem writePoints_drawn (s : State) (L c : Nat) (Y : List (List Byte)) :
    (writePoints L c Y s).drawn = s.drawn := rfl

/-! ### The outputs of SHARE_ENCODE -/

@[simp] theorem writeEncoded_ctrl (s : State) (k : Byte) (L : Nat) (V : List Byte) :
    (writeEncoded k L V s).ctrl = s.ctrl := rfl
@[simp] theorem writeEncoded_status (s : State) (k : Byte) (L : Nat) (V : List Byte) :
    (writeEncoded k L V s).status = s.status := rfl
@[simp] theorem writeEncoded_result (s : State) (k : Byte) (L : Nat) (V : List Byte) :
    (writeEncoded k L V s).result = s.result := rfl
@[simp] theorem writeEncoded_errinfo (s : State) (k : Byte) (L : Nat) (V : List Byte) :
    (writeEncoded k L V s).errinfo = s.errinfo := rfl
@[simp] theorem writeEncoded_ident (s : State) (k : Byte) (L : Nat) (V : List Byte) :
    (writeEncoded k L V s).ident = s.ident := rfl
@[simp] theorem writeEncoded_hdr (s : State) (k : Byte) (L : Nat) (V : List Byte) :
    (writeEncoded k L V s).hdr = s.hdr := rfl
@[simp] theorem writeEncoded_hdr2 (s : State) (k : Byte) (L : Nat) (V : List Byte) :
    (writeEncoded k L V s).hdr2 = ⟨s.hdr2.mi, 0#4, BitVec.ofNat 8 L⟩ := rfl
@[simp] theorem writeEncoded_splitcfg (s : State) (k : Byte) (L : Nat) (V : List Byte) :
    (writeEncoded k L V s).splitcfg = s.splitcfg := rfl
@[simp] theorem writeEncoded_sharecnt (s : State) (k : Byte) (L : Nat) (V : List Byte) :
    (writeEncoded k L V s).sharecnt = s.sharecnt := rfl
@[simp] theorem writeEncoded_rngcnt (s : State) (k : Byte) (L : Nat) (V : List Byte) :
    (writeEncoded k L V s).rngcnt = s.rngcnt := rfl
@[simp] theorem writeEncoded_gspec (s : State) (k : Byte) (L : Nat) (V : List Byte) :
    (writeEncoded k L V s).gspec = s.gspec := rfl
@[simp] theorem writeEncoded_mem (s : State) (k : Byte) (L : Nat) (V : List Byte) :
    (writeEncoded k L V s).mem = s.mem.writeSlot k.toNat V := rfl
@[simp] theorem writeEncoded_latch (s : State) (k : Byte) (L : Nat) (V : List Byte) :
    (writeEncoded k L V s).latch = s.latch := rfl
@[simp] theorem writeEncoded_irq (s : State) (k : Byte) (L : Nat) (V : List Byte) :
    (writeEncoded k L V s).irq = s.irq := rfl
@[simp] theorem writeEncoded_port (s : State) (k : Byte) (L : Nat) (V : List Byte) :
    (writeEncoded k L V s).port = s.port := rfl
@[simp] theorem writeEncoded_inputs (s : State) (k : Byte) (L : Nat) (V : List Byte) :
    (writeEncoded k L V s).inputs = s.inputs := rfl
@[simp] theorem writeEncoded_schedule (s : State) (k : Byte) (L : Nat) (V : List Byte) :
    (writeEncoded k L V s).schedule = s.schedule := rfl
@[simp] theorem writeEncoded_responses (s : State) (k : Byte) (L : Nat) (V : List Byte) :
    (writeEncoded k L V s).responses = s.responses := rfl
@[simp] theorem writeEncoded_observations (s : State) (k : Byte) (L : Nat) (V : List Byte) :
    (writeEncoded k L V s).observations = s.observations := rfl
@[simp] theorem writeEncoded_drawn (s : State) (k : Byte) (L : Nat) (V : List Byte) :
    (writeEncoded k L V s).drawn = s.drawn := rfl

/-! ### The outputs of SHARE_DECODE -/

@[simp] theorem writeDecoded_ctrl (s : State) (h : DecodedShare) : (writeDecoded h s).ctrl = s.ctrl := rfl
@[simp] theorem writeDecoded_status (s : State) (h : DecodedShare) : (writeDecoded h s).status = s.status := rfl
@[simp] theorem writeDecoded_result (s : State) (h : DecodedShare) : (writeDecoded h s).result = s.result := rfl
@[simp] theorem writeDecoded_errinfo (s : State) (h : DecodedShare) : (writeDecoded h s).errinfo = s.errinfo := rfl
@[simp] theorem writeDecoded_ident (s : State) (h : DecodedShare) : (writeDecoded h s).ident = h.id := rfl
@[simp] theorem writeDecoded_hdr (s : State) (h : DecodedShare) :
    (writeDecoded h s).hdr = ⟨BitVec.ofNat 8 h.gt, BitVec.ofNat 8 h.gc, BitVec.ofNat 8 h.gi, BitVec.ofNat 8 h.mt⟩ := rfl
@[simp] theorem writeDecoded_hdr2 (s : State) (h : DecodedShare) :
    (writeDecoded h s).hdr2 = ⟨BitVec.ofNat 8 h.mi, h.rsv, BitVec.ofNat 8 h.payload.length⟩ := rfl
@[simp] theorem writeDecoded_splitcfg (s : State) (h : DecodedShare) : (writeDecoded h s).splitcfg = s.splitcfg := rfl
@[simp] theorem writeDecoded_sharecnt (s : State) (h : DecodedShare) : (writeDecoded h s).sharecnt = s.sharecnt := rfl
@[simp] theorem writeDecoded_rngcnt (s : State) (h : DecodedShare) : (writeDecoded h s).rngcnt = s.rngcnt := rfl
@[simp] theorem writeDecoded_gspec (s : State) (h : DecodedShare) : (writeDecoded h s).gspec = s.gspec := rfl
@[simp] theorem writeDecoded_mem (s : State) (h : DecodedShare) :
    (writeDecoded h s).mem = s.mem.writeBytes Buffer.rbuf.base (padTo 32 h.payload) := rfl
@[simp] theorem writeDecoded_latch (s : State) (h : DecodedShare) : (writeDecoded h s).latch = s.latch := rfl
@[simp] theorem writeDecoded_irq (s : State) (h : DecodedShare) : (writeDecoded h s).irq = s.irq := rfl
@[simp] theorem writeDecoded_port (s : State) (h : DecodedShare) : (writeDecoded h s).port = s.port := rfl
@[simp] theorem writeDecoded_inputs (s : State) (h : DecodedShare) : (writeDecoded h s).inputs = s.inputs := rfl
@[simp] theorem writeDecoded_schedule (s : State) (h : DecodedShare) : (writeDecoded h s).schedule = s.schedule := rfl
@[simp] theorem writeDecoded_responses (s : State) (h : DecodedShare) :
    (writeDecoded h s).responses = s.responses := rfl
@[simp] theorem writeDecoded_observations (s : State) (h : DecodedShare) :
    (writeDecoded h s).observations = s.observations := rfl
@[simp] theorem writeDecoded_drawn (s : State) (h : DecodedShare) :
    (writeDecoded h s).drawn = s.drawn := rfl

/-! ### The outputs of SSKR_SPLIT -/

@[simp] theorem writeSplit_ctrl (s : State) (o : SplitOutput) : (writeSplit o s).ctrl = s.ctrl := rfl
@[simp] theorem writeSplit_status (s : State) (o : SplitOutput) : (writeSplit o s).status = s.status := rfl
@[simp] theorem writeSplit_result (s : State) (o : SplitOutput) : (writeSplit o s).result = s.result := rfl
@[simp] theorem writeSplit_errinfo (s : State) (o : SplitOutput) : (writeSplit o s).errinfo = s.errinfo := rfl
@[simp] theorem writeSplit_ident (s : State) (o : SplitOutput) : (writeSplit o s).ident = o.id := rfl
@[simp] theorem writeSplit_hdr (s : State) (o : SplitOutput) : (writeSplit o s).hdr = s.hdr := rfl
@[simp] theorem writeSplit_hdr2 (s : State) (o : SplitOutput) : (writeSplit o s).hdr2 = s.hdr2 := rfl
@[simp] theorem writeSplit_splitcfg (s : State) (o : SplitOutput) : (writeSplit o s).splitcfg = s.splitcfg := rfl
@[simp] theorem writeSplit_sharecnt (s : State) (o : SplitOutput) :
    (writeSplit o s).sharecnt = BitVec.ofNat 16 o.shares.length := rfl
@[simp] theorem writeSplit_rngcnt (s : State) (o : SplitOutput) : (writeSplit o s).rngcnt = s.rngcnt := rfl
@[simp] theorem writeSplit_gspec (s : State) (o : SplitOutput) : (writeSplit o s).gspec = s.gspec := rfl
@[simp] theorem writeSplit_mem (s : State) (o : SplitOutput) :
    (writeSplit o s).mem = storeShares 0 o.shares ((s.mem.clearBuffer .share).clearBuffer .slen) := rfl
@[simp] theorem writeSplit_latch (s : State) (o : SplitOutput) : (writeSplit o s).latch = s.latch := rfl
@[simp] theorem writeSplit_irq (s : State) (o : SplitOutput) : (writeSplit o s).irq = s.irq := rfl
@[simp] theorem writeSplit_port (s : State) (o : SplitOutput) : (writeSplit o s).port = s.port := rfl
@[simp] theorem writeSplit_inputs (s : State) (o : SplitOutput) : (writeSplit o s).inputs = s.inputs := rfl
@[simp] theorem writeSplit_schedule (s : State) (o : SplitOutput) : (writeSplit o s).schedule = s.schedule := rfl
@[simp] theorem writeSplit_responses (s : State) (o : SplitOutput) : (writeSplit o s).responses = s.responses := rfl
@[simp] theorem writeSplit_observations (s : State) (o : SplitOutput) :
    (writeSplit o s).observations = s.observations := rfl
@[simp] theorem writeSplit_drawn (s : State) (o : SplitOutput) :
    (writeSplit o s).drawn = s.drawn := rfl

/-! ### The outputs of SSKR_RECOMBINE -/

@[simp] theorem writeRecovered_ctrl (s : State) (o : Recovered) :
    (writeRecovered o s).ctrl = ⟨s.ctrl.strict, s.ctrl.ie, BitVec.ofNat 6 o.secret.length⟩ := rfl
@[simp] theorem writeRecovered_status (s : State) (o : Recovered) : (writeRecovered o s).status = s.status := rfl
@[simp] theorem writeRecovered_result (s : State) (o : Recovered) : (writeRecovered o s).result = s.result := rfl
@[simp] theorem writeRecovered_errinfo (s : State) (o : Recovered) : (writeRecovered o s).errinfo = s.errinfo := rfl
@[simp] theorem writeRecovered_ident (s : State) (o : Recovered) : (writeRecovered o s).ident = o.id := rfl
@[simp] theorem writeRecovered_hdr (s : State) (o : Recovered) : (writeRecovered o s).hdr = s.hdr := rfl
@[simp] theorem writeRecovered_hdr2 (s : State) (o : Recovered) : (writeRecovered o s).hdr2 = s.hdr2 := rfl
@[simp] theorem writeRecovered_splitcfg (s : State) (o : Recovered) : (writeRecovered o s).splitcfg = s.splitcfg := rfl
@[simp] theorem writeRecovered_sharecnt (s : State) (o : Recovered) : (writeRecovered o s).sharecnt = s.sharecnt := rfl
@[simp] theorem writeRecovered_rngcnt (s : State) (o : Recovered) : (writeRecovered o s).rngcnt = s.rngcnt := rfl
@[simp] theorem writeRecovered_gspec (s : State) (o : Recovered) : (writeRecovered o s).gspec = s.gspec := rfl
@[simp] theorem writeRecovered_mem (s : State) (o : Recovered) :
    (writeRecovered o s).mem = s.mem.writeBytes Buffer.secret.base (padTo 32 o.secret) := rfl
@[simp] theorem writeRecovered_latch (s : State) (o : Recovered) : (writeRecovered o s).latch = s.latch := rfl
@[simp] theorem writeRecovered_irq (s : State) (o : Recovered) : (writeRecovered o s).irq = s.irq := rfl
@[simp] theorem writeRecovered_port (s : State) (o : Recovered) : (writeRecovered o s).port = s.port := rfl
@[simp] theorem writeRecovered_inputs (s : State) (o : Recovered) : (writeRecovered o s).inputs = s.inputs := rfl
@[simp] theorem writeRecovered_schedule (s : State) (o : Recovered) : (writeRecovered o s).schedule = s.schedule := rfl
@[simp] theorem writeRecovered_responses (s : State) (o : Recovered) :
    (writeRecovered o s).responses = s.responses := rfl
@[simp] theorem writeRecovered_observations (s : State) (o : Recovered) :
    (writeRecovered o s).observations = s.observations := rfl
@[simp] theorem writeRecovered_drawn (s : State) (o : Recovered) :
    (writeRecovered o s).drawn = s.drawn := rfl

/-! ### ZEROIZE -/

@[simp] theorem zeroizeState_ctrl (s : State) : (zeroizeState s).ctrl = s.ctrl := rfl
@[simp] theorem zeroizeState_status (s : State) : (zeroizeState s).status = s.status := rfl
@[simp] theorem zeroizeState_result (s : State) : (zeroizeState s).result = 0#8 := rfl
@[simp] theorem zeroizeState_errinfo (s : State) : (zeroizeState s).errinfo = s.errinfo := rfl
@[simp] theorem zeroizeState_ident (s : State) : (zeroizeState s).ident = 0#16 := rfl
@[simp] theorem zeroizeState_hdr (s : State) : (zeroizeState s).hdr = ⟨0#8, 0#8, 0#8, 0#8⟩ := rfl
@[simp] theorem zeroizeState_hdr2 (s : State) : (zeroizeState s).hdr2 = ⟨0#8, 0#4, 0#8⟩ := rfl
@[simp] theorem zeroizeState_splitcfg (s : State) : (zeroizeState s).splitcfg = s.splitcfg := rfl
@[simp] theorem zeroizeState_sharecnt (s : State) : (zeroizeState s).sharecnt = 0#16 := rfl
@[simp] theorem zeroizeState_rngcnt (s : State) : (zeroizeState s).rngcnt = s.rngcnt := rfl
@[simp] theorem zeroizeState_gspec (s : State) : (zeroizeState s).gspec = s.gspec := rfl
@[simp] theorem zeroizeState_mem (s : State) : (zeroizeState s).mem = Buffer.all.foldl Memory.clearBuffer s.mem := rfl
@[simp] theorem zeroizeState_latch (s : State) : (zeroizeState s).latch = s.latch := rfl
@[simp] theorem zeroizeState_irq (s : State) : (zeroizeState s).irq = s.irq := rfl
@[simp] theorem zeroizeState_port (s : State) : (zeroizeState s).port = s.port := rfl
@[simp] theorem zeroizeState_inputs (s : State) : (zeroizeState s).inputs = s.inputs := rfl
@[simp] theorem zeroizeState_schedule (s : State) : (zeroizeState s).schedule = s.schedule := rfl
@[simp] theorem zeroizeState_responses (s : State) : (zeroizeState s).responses = s.responses := rfl
@[simp] theorem zeroizeState_observations (s : State) : (zeroizeState s).observations = s.observations := rfl
@[simp] theorem zeroizeState_drawn (s : State) : (zeroizeState s).drawn = s.drawn := rfl

/-! ### The failure writes of SHAMIR_SPLIT -/

@[simp] theorem wipePoints_ctrl (s : State) : (wipePoints s).ctrl = s.ctrl := rfl
@[simp] theorem wipePoints_status (s : State) : (wipePoints s).status = s.status := rfl
@[simp] theorem wipePoints_result (s : State) : (wipePoints s).result = s.result := rfl
@[simp] theorem wipePoints_errinfo (s : State) : (wipePoints s).errinfo = s.errinfo := rfl
@[simp] theorem wipePoints_ident (s : State) : (wipePoints s).ident = s.ident := rfl
@[simp] theorem wipePoints_hdr (s : State) : (wipePoints s).hdr = s.hdr := rfl
@[simp] theorem wipePoints_hdr2 (s : State) : (wipePoints s).hdr2 = s.hdr2 := rfl
@[simp] theorem wipePoints_splitcfg (s : State) : (wipePoints s).splitcfg = s.splitcfg := rfl
@[simp] theorem wipePoints_sharecnt (s : State) : (wipePoints s).sharecnt = s.sharecnt := rfl
@[simp] theorem wipePoints_rngcnt (s : State) : (wipePoints s).rngcnt = s.rngcnt := rfl
@[simp] theorem wipePoints_gspec (s : State) : (wipePoints s).gspec = s.gspec := rfl
@[simp] theorem wipePoints_mem (s : State) : (wipePoints s).mem = (s.mem.clearBuffer .px).clearBuffer .py := rfl
@[simp] theorem wipePoints_latch (s : State) : (wipePoints s).latch = s.latch := rfl
@[simp] theorem wipePoints_irq (s : State) : (wipePoints s).irq = s.irq := rfl
@[simp] theorem wipePoints_port (s : State) : (wipePoints s).port = s.port := rfl
@[simp] theorem wipePoints_inputs (s : State) : (wipePoints s).inputs = s.inputs := rfl
@[simp] theorem wipePoints_schedule (s : State) : (wipePoints s).schedule = s.schedule := rfl
@[simp] theorem wipePoints_responses (s : State) : (wipePoints s).responses = s.responses := rfl
@[simp] theorem wipePoints_observations (s : State) : (wipePoints s).observations = s.observations := rfl
@[simp] theorem wipePoints_drawn (s : State) : (wipePoints s).drawn = s.drawn := rfl

/-! ### The failure writes of SSKR_SPLIT -/

@[simp] theorem wipeShares_ctrl (s : State) : (wipeShares s).ctrl = s.ctrl := rfl
@[simp] theorem wipeShares_status (s : State) : (wipeShares s).status = s.status := rfl
@[simp] theorem wipeShares_result (s : State) : (wipeShares s).result = s.result := rfl
@[simp] theorem wipeShares_errinfo (s : State) : (wipeShares s).errinfo = s.errinfo := rfl
@[simp] theorem wipeShares_ident (s : State) : (wipeShares s).ident = 0#16 := rfl
@[simp] theorem wipeShares_hdr (s : State) : (wipeShares s).hdr = s.hdr := rfl
@[simp] theorem wipeShares_hdr2 (s : State) : (wipeShares s).hdr2 = s.hdr2 := rfl
@[simp] theorem wipeShares_splitcfg (s : State) : (wipeShares s).splitcfg = s.splitcfg := rfl
@[simp] theorem wipeShares_sharecnt (s : State) : (wipeShares s).sharecnt = 0#16 := rfl
@[simp] theorem wipeShares_rngcnt (s : State) : (wipeShares s).rngcnt = s.rngcnt := rfl
@[simp] theorem wipeShares_gspec (s : State) : (wipeShares s).gspec = s.gspec := rfl
@[simp] theorem wipeShares_mem (s : State) : (wipeShares s).mem = (s.mem.clearBuffer .share).clearBuffer .slen := rfl
@[simp] theorem wipeShares_latch (s : State) : (wipeShares s).latch = s.latch := rfl
@[simp] theorem wipeShares_irq (s : State) : (wipeShares s).irq = s.irq := rfl
@[simp] theorem wipeShares_port (s : State) : (wipeShares s).port = s.port := rfl
@[simp] theorem wipeShares_inputs (s : State) : (wipeShares s).inputs = s.inputs := rfl
@[simp] theorem wipeShares_schedule (s : State) : (wipeShares s).schedule = s.schedule := rfl
@[simp] theorem wipeShares_responses (s : State) : (wipeShares s).responses = s.responses := rfl
@[simp] theorem wipeShares_observations (s : State) : (wipeShares s).observations = s.observations := rfl
@[simp] theorem wipeShares_drawn (s : State) : (wipeShares s).drawn = s.drawn := rfl

/-! ### The failure writes of SHARE_ENCODE -/

@[simp] theorem wipeSlot_ctrl (s : State) (k : Byte) : (wipeSlot k s).ctrl = s.ctrl := rfl
@[simp] theorem wipeSlot_status (s : State) (k : Byte) : (wipeSlot k s).status = s.status := rfl
@[simp] theorem wipeSlot_result (s : State) (k : Byte) : (wipeSlot k s).result = s.result := rfl
@[simp] theorem wipeSlot_errinfo (s : State) (k : Byte) : (wipeSlot k s).errinfo = s.errinfo := rfl
@[simp] theorem wipeSlot_ident (s : State) (k : Byte) : (wipeSlot k s).ident = s.ident := rfl
@[simp] theorem wipeSlot_hdr (s : State) (k : Byte) : (wipeSlot k s).hdr = s.hdr := rfl
@[simp] theorem wipeSlot_hdr2 (s : State) (k : Byte) : (wipeSlot k s).hdr2 = s.hdr2 := rfl
@[simp] theorem wipeSlot_splitcfg (s : State) (k : Byte) : (wipeSlot k s).splitcfg = s.splitcfg := rfl
@[simp] theorem wipeSlot_sharecnt (s : State) (k : Byte) : (wipeSlot k s).sharecnt = s.sharecnt := rfl
@[simp] theorem wipeSlot_rngcnt (s : State) (k : Byte) : (wipeSlot k s).rngcnt = s.rngcnt := rfl
@[simp] theorem wipeSlot_gspec (s : State) (k : Byte) : (wipeSlot k s).gspec = s.gspec := rfl
@[simp] theorem wipeSlot_mem (s : State) (k : Byte) :
    (wipeSlot k s).mem = (s.mem.clear (shareAddr k.toNat) Config.slotBytes).clear (slenAddr k.toNat) 1 := rfl
@[simp] theorem wipeSlot_latch (s : State) (k : Byte) : (wipeSlot k s).latch = s.latch := rfl
@[simp] theorem wipeSlot_irq (s : State) (k : Byte) : (wipeSlot k s).irq = s.irq := rfl
@[simp] theorem wipeSlot_port (s : State) (k : Byte) : (wipeSlot k s).port = s.port := rfl
@[simp] theorem wipeSlot_inputs (s : State) (k : Byte) : (wipeSlot k s).inputs = s.inputs := rfl
@[simp] theorem wipeSlot_schedule (s : State) (k : Byte) : (wipeSlot k s).schedule = s.schedule := rfl
@[simp] theorem wipeSlot_responses (s : State) (k : Byte) : (wipeSlot k s).responses = s.responses := rfl
@[simp] theorem wipeSlot_observations (s : State) (k : Byte) : (wipeSlot k s).observations = s.observations := rfl
@[simp] theorem wipeSlot_drawn (s : State) (k : Byte) : (wipeSlot k s).drawn = s.drawn := rfl

/-! ### The failure writes of SHARE_DECODE -/

@[simp] theorem wipeDecoded_ctrl (s : State) : (wipeDecoded s).ctrl = s.ctrl := rfl
@[simp] theorem wipeDecoded_status (s : State) : (wipeDecoded s).status = s.status := rfl
@[simp] theorem wipeDecoded_result (s : State) : (wipeDecoded s).result = s.result := rfl
@[simp] theorem wipeDecoded_errinfo (s : State) : (wipeDecoded s).errinfo = s.errinfo := rfl
@[simp] theorem wipeDecoded_ident (s : State) : (wipeDecoded s).ident = 0#16 := rfl
@[simp] theorem wipeDecoded_hdr (s : State) : (wipeDecoded s).hdr = ⟨0#8, 0#8, 0#8, 0#8⟩ := rfl
@[simp] theorem wipeDecoded_hdr2 (s : State) : (wipeDecoded s).hdr2 = ⟨0#8, 0#4, 0#8⟩ := rfl
@[simp] theorem wipeDecoded_splitcfg (s : State) : (wipeDecoded s).splitcfg = s.splitcfg := rfl
@[simp] theorem wipeDecoded_sharecnt (s : State) : (wipeDecoded s).sharecnt = s.sharecnt := rfl
@[simp] theorem wipeDecoded_rngcnt (s : State) : (wipeDecoded s).rngcnt = s.rngcnt := rfl
@[simp] theorem wipeDecoded_gspec (s : State) : (wipeDecoded s).gspec = s.gspec := rfl
@[simp] theorem wipeDecoded_mem (s : State) : (wipeDecoded s).mem = s.mem.clearBuffer .rbuf := rfl
@[simp] theorem wipeDecoded_latch (s : State) : (wipeDecoded s).latch = s.latch := rfl
@[simp] theorem wipeDecoded_irq (s : State) : (wipeDecoded s).irq = s.irq := rfl
@[simp] theorem wipeDecoded_port (s : State) : (wipeDecoded s).port = s.port := rfl
@[simp] theorem wipeDecoded_inputs (s : State) : (wipeDecoded s).inputs = s.inputs := rfl
@[simp] theorem wipeDecoded_schedule (s : State) : (wipeDecoded s).schedule = s.schedule := rfl
@[simp] theorem wipeDecoded_responses (s : State) : (wipeDecoded s).responses = s.responses := rfl
@[simp] theorem wipeDecoded_observations (s : State) : (wipeDecoded s).observations = s.observations := rfl
@[simp] theorem wipeDecoded_drawn (s : State) : (wipeDecoded s).drawn = s.drawn := rfl

/-! ### Updates that are another update -/

@[simp] theorem writeSecret_eq (S : List Byte) (s : State) :
    writeSecret S s = s.store Buffer.secret.base (padTo 32 S) := rfl
@[simp] theorem writeRbuf_eq (V : List Byte) (s : State) : writeRbuf V s = s.store Buffer.rbuf.base (padTo 32 V) := rfl
@[simp] theorem wipeSecret_eq (s : State) : wipeSecret s = s.clearBuffer .secret := rfl
@[simp] theorem wipeRbuf_eq (s : State) : wipeRbuf s = s.clearBuffer .rbuf := rfl
@[simp] theorem wipeResult_eq (s : State) : wipeResult s = writeResult 0x00#8 s := rfl
@[simp] theorem wipeNothing_eq (s : State) : wipeNothing s = s := rfl


/-! ### The progress of a pending recombine -/

@[simp] theorem State.progress_ctrl (s : State) : (s.progress).ctrl = s.ctrl := by unfold State.progress; split <;> rfl
@[simp] theorem State.progress_result (s : State) :
    (s.progress).result = s.result := by unfold State.progress; split <;> rfl
@[simp] theorem State.progress_errinfo (s : State) :
    (s.progress).errinfo = s.errinfo := by unfold State.progress; split <;> rfl
@[simp] theorem State.progress_ident (s : State) :
    (s.progress).ident = s.ident := by unfold State.progress; split <;> rfl
@[simp] theorem State.progress_hdr (s : State) : (s.progress).hdr = s.hdr := by unfold State.progress; split <;> rfl
@[simp] theorem State.progress_hdr2 (s : State) : (s.progress).hdr2 = s.hdr2 := by unfold State.progress; split <;> rfl
@[simp] theorem State.progress_splitcfg (s : State) :
    (s.progress).splitcfg = s.splitcfg := by unfold State.progress; split <;> rfl
@[simp] theorem State.progress_sharecnt (s : State) :
    (s.progress).sharecnt = s.sharecnt := by unfold State.progress; split <;> rfl
@[simp] theorem State.progress_rngcnt (s : State) :
    (s.progress).rngcnt = s.rngcnt := by unfold State.progress; split <;> rfl
@[simp] theorem State.progress_gspec (s : State) :
    (s.progress).gspec = s.gspec := by unfold State.progress; split <;> rfl
@[simp] theorem State.progress_mem (s : State) : (s.progress).mem = s.mem := by unfold State.progress; split <;> rfl
@[simp] theorem State.progress_latch (s : State) :
    (s.progress).latch = s.latch := by unfold State.progress; split <;> rfl
@[simp] theorem State.progress_irq (s : State) : (s.progress).irq = s.irq := by unfold State.progress; split <;> rfl
@[simp] theorem State.progress_port (s : State) : (s.progress).port = s.port := by unfold State.progress; split <;> rfl
@[simp] theorem State.progress_inputs (s : State) :
    (s.progress).inputs = s.inputs := by unfold State.progress; split <;> rfl
@[simp] theorem State.progress_schedule (s : State) :
    (s.progress).schedule = s.schedule := by unfold State.progress; split <;> rfl
@[simp] theorem State.progress_drawn (s : State) : (s.progress).drawn = s.drawn := by unfold State.progress; split <;> rfl
@[simp] theorem State.progress_responses (s : State) :
    (s.progress).responses = s.responses := by unfold State.progress; split <;> rfl

/-! ### Taking a turn -/

@[simp] theorem State.takeTurn_ctrl (s : State) :
    (s.takeTurn).ctrl = s.ctrl := by unfold State.takeTurn; split <;> simp_all
@[simp] theorem State.takeTurn_status (s : State) :
    (s.takeTurn).status = s.status := by unfold State.takeTurn; split <;> simp_all
@[simp] theorem State.takeTurn_result (s : State) :
    (s.takeTurn).result = s.result := by unfold State.takeTurn; split <;> simp_all
@[simp] theorem State.takeTurn_errinfo (s : State) :
    (s.takeTurn).errinfo = s.errinfo := by unfold State.takeTurn; split <;> simp_all
@[simp] theorem State.takeTurn_ident (s : State) :
    (s.takeTurn).ident = s.ident := by unfold State.takeTurn; split <;> simp_all
@[simp] theorem State.takeTurn_hdr (s : State) :
    (s.takeTurn).hdr = s.hdr := by unfold State.takeTurn; split <;> simp_all
@[simp] theorem State.takeTurn_hdr2 (s : State) :
    (s.takeTurn).hdr2 = s.hdr2 := by unfold State.takeTurn; split <;> simp_all
@[simp] theorem State.takeTurn_splitcfg (s : State) :
    (s.takeTurn).splitcfg = s.splitcfg := by unfold State.takeTurn; split <;> simp_all
@[simp] theorem State.takeTurn_sharecnt (s : State) :
    (s.takeTurn).sharecnt = s.sharecnt := by unfold State.takeTurn; split <;> simp_all
@[simp] theorem State.takeTurn_rngcnt (s : State) :
    (s.takeTurn).rngcnt = s.rngcnt := by unfold State.takeTurn; split <;> simp_all
@[simp] theorem State.takeTurn_gspec (s : State) :
    (s.takeTurn).gspec = s.gspec := by unfold State.takeTurn; split <;> simp_all
@[simp] theorem State.takeTurn_mem (s : State) :
    (s.takeTurn).mem = s.mem := by unfold State.takeTurn; split <;> simp_all
@[simp] theorem State.takeTurn_latch (s : State) :
    (s.takeTurn).latch = s.latch := by unfold State.takeTurn; split <;> simp_all
@[simp] theorem State.takeTurn_irq (s : State) :
    (s.takeTurn).irq = s.irq := by unfold State.takeTurn; split <;> simp_all
@[simp] theorem State.takeTurn_port (s : State) :
    (s.takeTurn).port = s.port := by unfold State.takeTurn; split <;> simp_all
@[simp] theorem State.takeTurn_inputs (s : State) :
    (s.takeTurn).inputs = s.inputs := by unfold State.takeTurn; split <;> simp_all
@[simp] theorem State.takeTurn_schedule (s : State) :
    (s.takeTurn).schedule = s.schedule.tail := by unfold State.takeTurn; split <;> simp_all
@[simp] theorem State.takeTurn_responses (s : State) :
    (s.takeTurn).responses = s.responses := by unfold State.takeTurn; split <;> simp_all
@[simp] theorem State.takeTurn_observations (s : State) :
    (s.takeTurn).observations = s.observations := by unfold State.takeTurn; split <;> simp_all
@[simp] theorem State.takeTurn_drawn (s : State) :
    (s.takeTurn).drawn = s.drawn := by unfold State.takeTurn; split <;> simp_all

/-! ### A write of STATUS -/

@[simp] theorem State.writeStatus_ctrl (s : State) (v : Word) :
    (s.writeStatus v).ctrl = s.ctrl := by unfold State.writeStatus; split <;> rfl
@[simp] theorem State.writeStatus_result (s : State) (v : Word) :
    (s.writeStatus v).result = s.result := by unfold State.writeStatus; split <;> rfl
@[simp] theorem State.writeStatus_errinfo (s : State) (v : Word) :
    (s.writeStatus v).errinfo = s.errinfo := by unfold State.writeStatus; split <;> rfl
@[simp] theorem State.writeStatus_ident (s : State) (v : Word) :
    (s.writeStatus v).ident = s.ident := by unfold State.writeStatus; split <;> rfl
@[simp] theorem State.writeStatus_hdr (s : State) (v : Word) :
    (s.writeStatus v).hdr = s.hdr := by unfold State.writeStatus; split <;> rfl
@[simp] theorem State.writeStatus_hdr2 (s : State) (v : Word) :
    (s.writeStatus v).hdr2 = s.hdr2 := by unfold State.writeStatus; split <;> rfl
@[simp] theorem State.writeStatus_splitcfg (s : State) (v : Word) :
    (s.writeStatus v).splitcfg = s.splitcfg := by unfold State.writeStatus; split <;> rfl
@[simp] theorem State.writeStatus_sharecnt (s : State) (v : Word) :
    (s.writeStatus v).sharecnt = s.sharecnt := by unfold State.writeStatus; split <;> rfl
@[simp] theorem State.writeStatus_rngcnt (s : State) (v : Word) :
    (s.writeStatus v).rngcnt = s.rngcnt := by unfold State.writeStatus; split <;> rfl
@[simp] theorem State.writeStatus_gspec (s : State) (v : Word) :
    (s.writeStatus v).gspec = s.gspec := by unfold State.writeStatus; split <;> rfl
@[simp] theorem State.writeStatus_mem (s : State) (v : Word) :
    (s.writeStatus v).mem = s.mem := by unfold State.writeStatus; split <;> rfl
@[simp] theorem State.writeStatus_latch (s : State) (v : Word) :
    (s.writeStatus v).latch = s.latch := by unfold State.writeStatus; split <;> rfl
@[simp] theorem State.writeStatus_port (s : State) (v : Word) :
    (s.writeStatus v).port = s.port := by unfold State.writeStatus; split <;> rfl
@[simp] theorem State.writeStatus_inputs (s : State) (v : Word) :
    (s.writeStatus v).inputs = s.inputs := by unfold State.writeStatus; split <;> rfl
@[simp] theorem State.writeStatus_schedule (s : State) (v : Word) :
    (s.writeStatus v).schedule = s.schedule := by unfold State.writeStatus; split <;> rfl
@[simp] theorem State.writeStatus_responses (s : State) (v : Word) :
    (s.writeStatus v).responses = s.responses := by unfold State.writeStatus; split <;> rfl
@[simp] theorem State.writeStatus_observations (s : State) (v : Word) :
    (s.writeStatus v).observations = s.observations := by unfold State.writeStatus; split <;> rfl
@[simp] theorem State.writeStatus_drawn (s : State) (v : Word) :
    (s.writeStatus v).drawn = s.drawn := by unfold State.writeStatus; split <;> rfl

end Sys2Proof.Machine
end

