-- ==== Sys2Proof/Laws/Ops.lean ====
section
/-! SUPPORT. What the shared operations do, said once: draws from the random-byte port, completion, every command as a
body inside the completion frame, and the step of each agent. -/

namespace Sys2Proof.Machine

open Sys2Proof

/-! ### Draws -/

@[simp] theorem DrawResult.andThen_drawn {α β : Type} (a : α) (d : Drawing) (f : α → Drawing → DrawResult β) :
    (DrawResult.drawn a d).andThen f = f a d := rfl
@[simp] theorem DrawResult.andThen_unavailable {α β : Type} (d : Drawing) (f : α → Drawing → DrawResult β) :
    (DrawResult.unavailable d : DrawResult α).andThen f = .unavailable d := rfl
@[simp] theorem DrawResult.andThen_silent {α β : Type} (d : Drawing) (f : α → Drawing → DrawResult β) :
    (DrawResult.silent d : DrawResult α).andThen f = .silent d := rfl

/-- The inversion of a sequence of draws: it delivers a value only if both parts do. -/
theorem DrawResult.andThen_eq_drawn {α β : Type} {r : DrawResult α} {f : α → Drawing → DrawResult β} {b : β}
    {d : Drawing} (h : r.andThen f = .drawn b d) : ∃ a d', r = .drawn a d' ∧ f a d' = .drawn b d := by
  cases r with
  | drawn a d' => exact ⟨a, d', rfl, h⟩
  | unavailable d' => cases h
  | silent => cases h

@[simp] theorem drawByte_listed (b : Byte) (rest : List PortAnswer) (n k : Nat) :
    drawByte ⟨⟨.byte b :: rest, n⟩, k⟩ = .drawn b ⟨⟨rest, n⟩, k + 1⟩ := rfl
@[simp] theorem drawByte_refused (rest : List PortAnswer) (n k : Nat) :
    drawByte ⟨⟨.unavailable :: rest, n⟩, k⟩ = .unavailable ⟨⟨rest, n⟩, k⟩ := rfl
@[simp] theorem drawByte_silent (rest : List PortAnswer) (n k : Nat) :
    drawByte ⟨⟨.silent :: rest, n⟩, k⟩ = .silent ⟨⟨rest, n⟩, k⟩ := rfl

/-- Everything one draw can do. -/
theorem drawByte_cases (d : Drawing) :
    (∃ b p, d.port.next = (.byte b, p) ∧ drawByte d = .drawn b ⟨p, d.count + 1⟩) ∨
    (∃ p, d.port.next = (.unavailable, p) ∧ drawByte d = .unavailable ⟨p, d.count⟩) ∨
    (∃ p, d.port.next = (.silent, p) ∧ drawByte d = .silent ⟨p, d.count⟩) := by
  unfold drawByte
  rcases h : d.port.next with ⟨a, p⟩
  cases a with
  | byte b => exact .inl ⟨b, p, rfl, rfl⟩
  | unavailable => exact .inr (.inl ⟨p, rfl, rfl⟩)
  | silent => exact .inr (.inr ⟨p, rfl, rfl⟩)

theorem drawByte_count {d d' : Drawing} {b : Byte} (h : drawByte d = .drawn b d') : d'.count = d.count + 1 := by
  rcases drawByte_cases d with ⟨b', p, -, h'⟩ | ⟨p, -, h'⟩ | ⟨p, -, h'⟩ <;> rw [h'] at h <;> cases h
  rfl

/-- A drawn vector has the length asked for, and each of its bytes is counted (R32). -/
theorem drawVector_drawn {m : Nat} {d d' : Drawing} {v : List Byte} (h : drawVector m d = .drawn v d') :
    v.length = m ∧ d'.count = d.count + m := by
  induction m generalizing d d' v with
  | zero => cases h; exact ⟨rfl, rfl⟩
  | succ m ih =>
    obtain ⟨b, d1, hb, h⟩ := DrawResult.andThen_eq_drawn h
    obtain ⟨bs, d2, hbs, h⟩ := DrawResult.andThen_eq_drawn h
    cases h
    have := ih hbs
    have := drawByte_count hb
    simp only [List.length_cons]; omega

/-- Drawn vectors have the lengths asked for, and each of their bytes is counted (R32). -/
theorem drawVectors_drawn {n m : Nat} {d d' : Drawing} {vs : List (List Byte)}
    (h : drawVectors n m d = .drawn vs d') :
    vs.length = n ∧ (∀ v ∈ vs, v.length = m) ∧ d'.count = d.count + n * m := by
  induction n generalizing d d' vs with
  | zero => cases h; simp
  | succ n ih =>
    obtain ⟨v, d1, hv, h⟩ := DrawResult.andThen_eq_drawn h
    obtain ⟨vs', d2, hvs, h⟩ := DrawResult.andThen_eq_drawn h
    cases h
    have h1 := ih hvs
    have h2 := drawVector_drawn hv
    refine ⟨by simp [h1.1], ?_, by rw [h1.2.2, h2.2, Nat.succ_mul]; omega⟩
    intro w hw
    rcases List.mem_cons.mp hw with rfl | hw
    · exact h2.1
    · exact h1.2.1 w hw

/-- Drawing from listed bytes delivers them in order (R45, R161). -/
theorem drawVector_listed (bs : List Byte) (rest : List PortAnswer) (n k : Nat) :
    drawVector bs.length ⟨⟨bs.map PortAnswer.byte ++ rest, n⟩, k⟩ = .drawn bs ⟨⟨rest, n⟩, k + bs.length⟩ := by
  induction bs generalizing k with
  | nil => rfl
  | cons b bs ih =>
    simp only [List.length_cons, List.map_cons, List.cons_append, drawVector, drawByte_listed,
      DrawResult.andThen_drawn, ih]
    congr 2; omega

/-! ### Lengths -/

@[simp] theorem polyEval_length (coeffs : List (List Byte)) (x : Byte) (L : Nat) :
    (polyEval coeffs x L).length = L := by simp [polyEval]
@[simp] theorem interp_length (pts : List Point) (x : Byte) (L : Nat) : (interp pts x L).length = L := by
  simp [interp]
@[simp] theorem shareVectors_length (coeffs : List (List Byte)) (c L : Nat) :
    (shareVectors coeffs c L).length = c := by simp [shareVectors]
@[simp] theorem State.secretVec_length (s : State) (L : Nat) : (s.secretVec L).length = L :=
  Memory.readBytes_length _ _ _
@[simp] theorem State.rbufVec_length (s : State) (L : Nat) : (s.rbufVec L).length = L :=
  Memory.readBytes_length _ _ _
@[simp] theorem State.shareSlot_length (s : State) (k : Nat) : (s.shareSlot k).length = 64 :=
  Memory.readBytes_length _ _ _

theorem byteAt_polyEval (coeffs : List (List Byte)) (x : Byte) (L p : Nat) (h : p < L) :
    byteAt (polyEval coeffs x L) p = polyByte coeffs x p := by simp [polyEval, byteAt, h]
theorem byteAt_interp (pts : List Point) (x : Byte) (L p : Nat) (h : p < L) :
    byteAt (interp pts x L) p = interpByte pts x p := by simp [interp, byteAt, h]

/-- The legal lengths (R35): even, 16 to 32. -/
theorem lenOK_iff (L : Nat) : lenOK L = true ↔ L % 2 = 0 ∧ 16 ≤ L ∧ L ≤ 32 := by
  simp [lenOK, and_assoc]

/-! ### The completion frame -/

@[simp] theorem conclude_commit (s : State) (ph : Phase) (w : State → State) (t : State) :
    conclude s ph w (.commit t) = .next (t.completeOk ph) := rfl
@[simp] theorem conclude_raise (s : State) (ph : Phase) (w : State → State) (t : State) (r : Raised) :
    conclude s ph w (.raise t r) = .next ((w t).completeRaised r) := rfl
@[simp] theorem conclude_hang (s : State) (ph : Phase) (w : State → State) (d : Drawing) :
    conclude s ph w (.hang d) = .next { s with drawn := d.count + 1 } := rfl

@[simp] theorem drawBody_drawn {α : Type} (s : State) (a : α) (d : Drawing) (k : α → State → State) :
    drawBody s (.drawn a d) k = .commit (k a (s.afterDrawing d)) := rfl
@[simp] theorem drawBody_unavailable {α : Type} (s : State) (d : Drawing) (k : α → State → State) :
    drawBody s (.unavailable d) k = .raise (s.afterDrawing d) ⟨.randomnessUnavailable, infoCommand⟩ := rfl
@[simp] theorem drawBody_silent {α : Type} (s : State) (d : Drawing) (k : α → State → State) :
    drawBody s (.silent d : DrawResult α) k = .hang d := rfl

/-- The body of each command. -/
def commandBody (i : Instr) (s : State) : Body :=
  match i with
  | .nop => .commit s
  | .gfAdd a b => .commit (writeResult (gfAdd a b) s)
  | .gfMul a b => .commit (writeResult (gfMul a b) s)
  | .gfInv a => gfInvBody a s
  | .lagrEval n x => lagrEvalBody n x s
  | .shamirSplit t c dg => shamirSplitBody hwConfig t c dg s
  | .shamirRecombine t n dg => shamirRecombineBody hwConfig t n dg s
  | .digestMake => digestMakeBody hwConfig s
  | .digestVerify => digestVerifyBody hwConfig s
  | .sskrSplit => sskrSplitBody hwConfig s
  | .sskrRecombine => sskrRecombineBody hwConfig s
  | .shareEncode k => shareEncodeBody k s
  | .shareDecode k => shareDecodeBody k s
  | .zeroize => .commit (zeroizeState s)

/-- The failure writes of each command (R304). -/
def commandWipe (i : Instr) : State → State :=
  match i with
  | .nop => wipeNothing
  | .gfAdd _ _ => wipeNothing
  | .gfMul _ _ => wipeNothing
  | .gfInv _ => wipeResult
  | .lagrEval _ _ => wipeRbuf
  | .shamirSplit _ _ _ => wipePoints
  | .shamirRecombine _ _ _ => wipeSecret
  | .digestMake => wipeRbuf
  | .digestVerify => wipeNothing
  | .sskrSplit => wipeShares
  | .sskrRecombine => wipeSecret
  | .shareEncode k => wipeSlot k
  | .shareDecode _ => wipeDecoded
  | .zeroize => wipeNothing

/-- The phase each command completes in with success (R301). -/
def commandPhase (i : Instr) : Phase := if i.opcode = .sskrRecombine then .verified else .complete

/-- Every command is its body inside the completion frame (R301). -/
theorem exec_eq_conclude (i : Instr) (s : State) :
    exec i s = conclude s (commandPhase i) (commandWipe i) (commandBody i s) := by
  cases i <;> rfl

/-- Everything a command can do: commit, raise, or stay pending. -/
theorem exec_cases (i : Instr) (s : State) :
    (∃ t, commandBody i s = .commit t ∧ exec i s = .next (t.completeOk (commandPhase i))) ∨
    (∃ t r, commandBody i s = .raise t r ∧ exec i s = .next ((commandWipe i t).completeRaised r)) ∨
    (∃ d, commandBody i s = .hang d ∧ exec i s = .next { s with drawn := d.count + 1 }) := by
  rw [exec_eq_conclude]
  cases h : commandBody i s with
  | commit t => exact .inl ⟨t, rfl, rfl⟩
  | raise t r => exact .inr (.inl ⟨t, r, rfl, rfl⟩)
  | hang d => exact .inr (.inr ⟨d, rfl, rfl⟩)

/-- Only the two commands that draw can be left without an answer (R45, R311). -/
theorem commandBody_ne_hang {i : Instr} (h : i.opcode ≠ .shamirSplit ∧ i.opcode ≠ .sskrSplit) (s : State) (d : Drawing) :
    commandBody i s ≠ .hang d := by
  intro hb
  cases i <;>
    simp only [commandBody, gfInvBody, lagrEvalBody, shamirSplitBody, shamirRecombineBody, digestMakeBody,
      digestVerifyBody, sskrSplitBody, sskrRecombineBody, shareEncodeBody, shareDecodeBody] at hb <;>
    (repeat' split at hb) <;>
    first
    | cases hb
    | exact h.1 rfl
    | exact h.2 rfl

/-! ### The reset input -/

@[simp] theorem Port.skip_zero (p : Port) : p.skip 0 = p := by simp [Port.skip]

/-- Listed answers that are skipped whole leave what is listed after them. -/
theorem Port.skip_listed (as rest : List PortAnswer) (n : Nat) : (⟨as ++ rest, n⟩ : Port).skip as.length = ⟨rest, n⟩ := by
  simp [Port.skip]

/-- With no command pending, reset discards no draw (R340, R341). -/
theorem State.abandonedDraws_idle {s : State} (h : s.status.busy = false) : s.abandonedDraws = 0 := by
  simp [State.abandonedDraws, h]

/-- The draws reset discards of a pending command (R341): at least those it is known to have made, at most those its
completion step makes, and all of these where they are known to have been made. -/
theorem State.abandonedDraws_bounds {s : State} (h : s.status.busy = true) :
    s.drawn ≤ s.abandonedDraws ∧ s.abandonedDraws ≤ max s.drawn s.pendingDraws := by
  simp only [State.abandonedDraws, h, if_true]
  omega

/-! ### Whose step it is -/

theorem step_engine (s : State) (h : s.nextAgent = .engine) : step s = engineStep s.takeTurn := by
  simp [step, h, agentStep]
theorem step_host (s : State) (h : s.nextAgent = .host) : step s = .next s.takeTurn.hostStep := by
  simp [step, h, agentStep]

/-- Everything the engine's step can do (R301). -/
theorem engineStep_cases (s : State) :
    (s.status.busy = false ∧ engineStep s = .next s) ∨
    (s.status.busy = true ∧ s.latch = none ∧ engineStep s = .fault .latchEmpty) ∨
    (∃ w i, s.status.busy = true ∧ s.latch = some w ∧ decode w = .ok i ∧ engineStep s = exec i s) ∨
    (∃ w e, s.status.busy = true ∧ s.latch = some w ∧ decode w = .error e ∧ engineStep s = execIllegal s) := by
  unfold engineStep completeWord
  cases hb : s.status.busy with
  | false => exact .inl ⟨rfl, by simp⟩
  | true =>
    cases hl : s.latch with
    | none => exact .inr (.inl ⟨rfl, rfl, by simp⟩)
    | some w =>
      cases hd : decode w with
      | ok i => exact .inr (.inr (.inl ⟨w, i, rfl, rfl, hd, by simp [hd]⟩))
      | error e => exact .inr (.inr (.inr ⟨w, e, rfl, rfl, hd, by simp [hd]⟩))

end Sys2Proof.Machine
end

