-- ==== Sys2Proof/Laws/Encoding.lean ====
section
/-! SUPPORT. A command word and its four fields are the same thing (30_encoding.md R90). -/

namespace Sys2Proof

/-- Taking a word's fields apart undoes putting them together. -/
theorem CommandWord.ofWord_toWord (f : CommandWord) : CommandWord.ofWord f.toWord = f := by
  obtain ⟨o, a, b, c⟩ := f
  simp only [CommandWord.ofWord, CommandWord.toWord, CommandWord.mk.injEq]
  refine ⟨?_, ?_, ?_, ?_⟩ <;>
    · ext i hi
      simp only [BitVec.getElem_extractLsb', BitVec.getLsbD_append]
      simp [show ¬ (8 + i < 8) by omega, show ¬ (16 + i < 8) by omega, show ¬ (24 + i < 8) by omega,
        show ¬ (16 + i - 8 < 8) by omega, show ¬ (24 + i - 8 < 8) by omega, show ¬ (24 + i - 8 - 8 < 8) by omega,
        hi, show 24 + i - 8 - 8 - 8 = i by omega, show 16 + i - 8 - 8 = i by omega]
      try rw [← BitVec.getLsbD_eq_getElem]

/-- Decoding an encoded instruction decodes its fields. -/
theorem decode_encode_fields (i : Instr) : decode (encode i) = decodeFields (encodeFields i) := by
  unfold decode encode
  rw [CommandWord.ofWord_toWord]

end Sys2Proof
end

