-- ==== Sys2Proof/Laws/PerInstr.lean ====
section
/-! SUPPORT. Per instruction: the word it encodes to carries its own OPC and has every must-be-zero field zero. -/

namespace Sys2Proof.Laws.EncodesLegally

/-- The fields of the encoded word (R90) hold the instruction's OPC (R92) and pass the check of rule R94. -/
def Statement (i : Instr) : Prop :=
  (CommandWord.ofWord (encode i)).opc = i.opcode.toByte ∧
    i.opcode.format.mustBeZeroOk (CommandWord.ofWord (encode i)) = true

theorem statement_of_fields (i : Instr)
    (h : (encodeFields i).opc = i.opcode.toByte ∧ i.opcode.format.mustBeZeroOk (encodeFields i) = true) :
    Statement i := by
  unfold Statement encode
  rwa [CommandWord.ofWord_toWord]

theorem digestFlag_mustBeZeroOk : ∀ dg : Bool, (encodeDigestFlag dg &&& 0xFE#8 == 0#8) = true := by decide

theorem nop : Statement .nop := statement_of_fields _ ⟨rfl, rfl⟩
theorem gfAdd (a b : Byte) : Statement (.gfAdd a b) := statement_of_fields _ ⟨rfl, rfl⟩
theorem gfMul (a b : Byte) : Statement (.gfMul a b) := statement_of_fields _ ⟨rfl, rfl⟩
theorem gfInv (a : Byte) : Statement (.gfInv a) := statement_of_fields _ ⟨rfl, rfl⟩
theorem lagrEval (n : Nat) (x : Byte) : Statement (.lagrEval n x) := statement_of_fields _ ⟨rfl, rfl⟩
theorem shamirSplit (t c : Nat) (dg : Bool) : Statement (.shamirSplit t c dg) :=
  statement_of_fields _ ⟨rfl, digestFlag_mustBeZeroOk dg⟩
theorem shamirRecombine (t n : Nat) (dg : Bool) : Statement (.shamirRecombine t n dg) :=
  statement_of_fields _ ⟨rfl, digestFlag_mustBeZeroOk dg⟩
theorem digestMake : Statement .digestMake := statement_of_fields _ ⟨rfl, rfl⟩
theorem digestVerify : Statement .digestVerify := statement_of_fields _ ⟨rfl, rfl⟩
theorem sskrSplit : Statement .sskrSplit := statement_of_fields _ ⟨rfl, rfl⟩
theorem sskrRecombine : Statement .sskrRecombine := statement_of_fields _ ⟨rfl, rfl⟩
theorem shareEncode (k : Byte) : Statement (.shareEncode k) := statement_of_fields _ ⟨rfl, rfl⟩
theorem shareDecode (k : Byte) : Statement (.shareDecode k) := statement_of_fields _ ⟨rfl, rfl⟩
theorem zeroize : Statement .zeroize := statement_of_fields _ ⟨rfl, rfl⟩

end Sys2Proof.Laws.EncodesLegally
end

