-- ==== Sys2Proof/Certificates/Slice0/Obligations.lean ====
section
/-! DEFINITION. The statements for the provers, written from the numbered rules of spec/. -/

open Sys2Proof Sys2Proof.Machine

namespace Sys2Proof.Claims

/-! ### Vocabulary of the statements -/

/-- STATUS after a successful completion with a phase (R301 (a)); LASTOP is kept. -/
def okStatus (s : State) (ph : Phase) : Status := ⟨false, true, ph, none, s.status.lastop⟩

/-- STATUS after a completion with an error (R301 (b)); LASTOP is kept. -/
def errStatus (s : State) (e : ErrCode) : Status := ⟨false, true, .failed, some e, s.status.lastop⟩

/-- The byte at a bus offset. -/
def at_ (s : State) (a : Nat) : Byte := s.mem.read a

/-- Every byte outside the offsets `lo .. hi` (`hi` excluded) reads in `t` as in `s`. -/
def SameOutside (s t : State) (lo hi : Nat) : Prop := ∀ a, a < lo ∨ hi ≤ a → at_ t a = at_ s a

/-- Every byte of the offsets `lo .. hi` (`hi` excluded) reads 0. -/
def ZeroIn (t : State) (lo hi : Nat) : Prop := ∀ a, lo ≤ a → a < hi → at_ t a = 0x00#8

/-- The command word with the given fields (R90): C in [31:24], B in [23:16], A in [15:8], OPC in [7:0]. -/
def wordOf (opc a b c : Byte) : Word := c ++ b ++ a ++ opc

/-- The illegal words by their fields (R94, R95): the unassigned opcodes, and for each format the non-zero must-be-zero
fields. -/
def wordIsIllegal (w : Word) : Prop :=
  let opc := (w.extractLsb' 0 8).toNat
  let a := (w.extractLsb' 8 8).toNat
  let b := (w.extractLsb' 16 8).toNat
  let c := (w.extractLsb' 24 8).toNat
  (0x04 ≤ opc ∧ opc ≤ 0x0F) ∨ (0x11 ≤ opc ∧ opc ≤ 0x1F) ∨ (0x22 ≤ opc ∧ opc ≤ 0x2F) ∨ (0x32 ≤ opc ∧ opc ≤ 0x3F) ∨
    (0x42 ≤ opc ∧ opc ≤ 0x4F) ∨ (0x52 ≤ opc ∧ opc ≤ 0xFE) ∨
    (opc ∈ [0x00, 0x30, 0x31, 0x40, 0x41, 0xFF] ∧ ¬ (a = 0 ∧ b = 0 ∧ c = 0)) ∨
    (opc ∈ [0x01, 0x02, 0x10] ∧ c ≠ 0) ∨
    (opc ∈ [0x03, 0x50, 0x51] ∧ ¬ (b = 0 ∧ c = 0)) ∨
    (opc ∈ [0x20, 0x21] ∧ 2 ≤ c)

/-- The polynomial over GF(2) that a byte stands for (R121). -/
noncomputable def bytePoly (b : Byte) : Polynomial (ZMod 2) :=
  ∑ i ∈ Finset.range 8, if b.getLsbD i then Polynomial.X ^ i else 0

/-- FIELD_POLY as a polynomial (R5, R121): x^8 + x^4 + x^3 + x + 1. -/
noncomputable def reductionPoly : Polynomial (ZMod 2) :=
  Polynomial.X ^ 8 + Polynomial.X ^ 4 + Polynomial.X ^ 3 + Polynomial.X + 1

/-- `V[p]` of R140, written with the points' indices as the rule writes it, for the point table in memory. -/
def interpolatedByte (s : State) (n : Nat) (x : Byte) (p : Nat) : Byte :=
  gfSum ((List.range n).map fun i =>
    gfMul (at_ s (0x200 + 32 * i + p))
      (gfMul (gfProd (((List.range n).filter (· != i)).map fun j => x ^^^ at_ s (0x180 + j)))
        (gfInv (gfProd (((List.range n).filter (· != i)).map fun j => at_ s (0x180 + i) ^^^ at_ s (0x180 + j))))))

/-- Random bytes a Shamir level consumes (R163). -/
def levelDraws (t : Nat) (dg : Bool) (L : Nat) : Nat :=
  if t = 1 then 0 else if dg then (L - 4) + (t - 2) * L else (t - 1) * L

/-- The y-vectors `Y` are the digest-mode split of `S` with threshold t into c shares that the drawn bytes give (R161,
R163): copies for t = 1, and else the values at 1..c of a polynomial with t coefficients, whose value at 0 is `S`, whose
value at DIGEST_X is the digest share of `S` and the salt, which is the first L − 4 drawn bytes, and whose middle
coefficients r_1, r_2, … are the drawn bytes after it, in order. -/
def IsDigestSplit (t c L : Nat) (S drawn : List Byte) (Y : Nat → List Byte) : Prop :=
  (t = 1 → ∀ i < c, Y i = S) ∧
  (2 ≤ t → ∃ coeffs : List (List Byte), coeffs.length = t ∧ coeffs.head? = some S ∧
    polyEval coeffs hwConfig.digestX L = (hwConfig.digestFn S (drawn.take (L - 4))).toList ++ drawn.take (L - 4) ∧
    (∀ k, 1 ≤ k → k < t - 1 → ∀ p < L,
      (coeffs.getD k []).getD p 0x00#8 = drawn.getD ((L - 4) + (k - 1) * L + p) 0x00#8) ∧
    ∀ i < c, Y i = polyEval coeffs (BitVec.ofNat 8 (i + 1)) L)

/-- The split specification in the registers is legal (R211). -/
def SplitLegal (s : State) : Prop :=
  lenOK s.len = true ∧ 1 ≤ s.splitcfg.gc.toNat ∧ s.splitcfg.gc.toNat ≤ 16 ∧ 1 ≤ s.splitcfg.gt.toNat ∧
    s.splitcfg.gt.toNat ≤ s.splitcfg.gc.toNat ∧
    ∀ g < s.splitcfg.gc.toNat, 1 ≤ (s.groupSpec g).mt.toNat ∧ (s.groupSpec g).mt.toNat ≤ (s.groupSpec g).mc.toNat ∧
      (s.groupSpec g).mc.toNat ≤ 16

/-- `sum over h in 0..g of MC[h]` (R213, R216). -/
def sharesBefore (s : State) (g : Nat) : Nat := ((List.range g).map fun h => (s.groupSpec h).mc.toNat).sum

/-- The bytes a successful SSKR_SPLIT draws (R217). -/
def splitDraws (s : State) : Nat :=
  2 + levelDraws s.splitcfg.gt.toNat true s.len +
    ((List.range s.splitcfg.gc.toNat).map fun g => levelDraws (s.groupSpec g).mt.toNat true s.len).sum

/-- The bytes a successful SSKR_SPLIT draws before the members of group g: the identifier's, the outer level's, and those
of the groups before it (R214). -/
def drawsBefore (s : State) (g : Nat) : Nat :=
  2 + levelDraws s.splitcfg.gt.toNat true s.len +
    ((List.range g).map fun h => levelDraws (s.groupSpec h).mt.toNat true s.len).sum

/-- What is still to come from the port after `n` draws. -/
def portAfter (p : Port) (n : Nat) : Port := ⟨p.answers.drop n, p.freeDraws + (n - p.answers.length)⟩

/-- A buffer byte that a command may write, on success or failure (R304 and the command rules). -/
def isOutputByte (i : Instr) (a : Nat) : Prop :=
  match i with
  | .lagrEval _ _ | .digestMake | .shareDecode _ => 0x400 ≤ a ∧ a < 0x420
  | .shamirSplit _ _ _ => (0x180 ≤ a ∧ a < 0x190) ∨ (0x200 ≤ a ∧ a < 0x400)
  | .shamirRecombine _ _ _ | .sskrRecombine => 0x100 ≤ a ∧ a < 0x120
  | .sskrSplit => (0x800 ≤ a ∧ a < 0x900) ∨ (0x4000 ≤ a ∧ a < 0x8000)
  | .shareEncode k => a = 0x800 + k.toNat ∨ (0x4000 + 64 * k.toNat ≤ a ∧ a < 0x4000 + 64 * k.toNat + 64)
  | .zeroize =>
    (0x100 ≤ a ∧ a < 0x120) ∨ (0x180 ≤ a ∧ a < 0x190) ∨ (0x200 ≤ a ∧ a < 0x420) ∨ (0x800 ≤ a ∧ a < 0x900) ∨
      (0x4000 ≤ a ∧ a < 0x8000)
  | .nop | .gfAdd _ _ | .gfMul _ _ | .gfInv _ | .digestVerify => False

/-- What rule R66 leaves a host while a command is pending. -/
def acceptedAccess (isWrite : Bool) (addr : BitVec 16) (w : Width) : Prop :=
  w = .word ∧ (addr = 0x008#16 ∨ (addr = 0x000#16 ∧ isWrite = false))

/-- An access the address map makes legal (R61, R62, R64, R65). -/
def mappedAccess (a n : Nat) : Prop :=
  (n = 4 ∧ a % 4 = 0 ∧ (a < 0x030 ∨ (0x040 ≤ a ∧ a < 0x080))) ∨
  (a % n = 0 ∧ ((0x0100 ≤ a ∧ a + n ≤ 0x0120) ∨ (0x0180 ≤ a ∧ a + n ≤ 0x0190) ∨ (0x0200 ≤ a ∧ a + n ≤ 0x0400) ∨
    (0x0400 ≤ a ∧ a + n ≤ 0x0420) ∨ (0x0800 ≤ a ∧ a + n ≤ 0x0900) ∨ (0x4000 ≤ a ∧ a + n ≤ 0x8000)))

/-- The offsets of the registers below 0x040 (R21 to R32). -/
def registerMap : List (BitVec 16 × Reg) :=
  [(0x000#16, .id), (0x004#16, .ctrl), (0x008#16, .status), (0x00C#16, .cmd), (0x010#16, .result), (0x014#16, .errinfo),
    (0x018#16, .ident), (0x01C#16, .hdr), (0x020#16, .hdr2), (0x024#16, .splitcfg), (0x028#16, .sharecnt),
    (0x02C#16, .rngcnt)]

/-- The offset reaches the register: while no command is pending, word accesses there complete and read and write it. -/
def reaches (s : State) (v : Word) (off : BitVec 16) (r : Reg) : Prop :=
  s.busRead off .word = .readOkay (s.readReg r) ∧ s.busWriteResponse off .word = .writeOkay ∧
    s.busWrite off .word v = s.writeReg r v

/-- The reserved bits of each register (R21 to R33). -/
def reservedBits : Reg → Word
  | .id | .cmd | .hdr | .rngcnt => 0#32
  | .ctrl => 0xFFFFC0FC#32
  | .status => 0xFF000088#32
  | .result => 0xFFFFFF00#32
  | .errinfo | .ident | .splitcfg | .sharecnt | .gspec _ => 0xFFFF0000#32
  | .hdr2 => 0xFF00F000#32

/-- The shares of slots `ks` of a split, as a recombine decodes them from consecutive slots (R222). -/
def presented (o : SplitOutput) (L : Nat) (ks : List Nat) : List DecodedShare :=
  (List.range ks.length).map fun slot =>
    readShareFields (padTo 64 (o.shares.getD (ks.getD slot 0) [])) (5 + L) slot

/-- The number of different members of group g among the presented slots (R216: the slots of group g are
`sharesBefore g .. sharesBefore (g + 1)`). -/
def membersPresent (s : State) (ks : List Nat) (g : Nat) : Nat :=
  ((List.range (s.groupSpec g).mc.toNat).filter fun m => decide (sharesBefore s g + m ∈ ks)).length

/-- The number of groups with enough members among the presented slots (R226). -/
def groupsPresent (s : State) (ks : List Nat) : Nat :=
  ((List.range s.splitcfg.gc.toNat).filter fun g => decide ((s.groupSpec g).mt.toNat ≤ membersPresent s ks g)).length

end Sys2Proof.Claims

open Sys2Proof.Claims

/-! ### Encoding -/

/-- R90 to R98: decoding the encoding of a well-formed instruction gives it back, for every operand value. -/
def Obligations.EncodedInstructionsDecodeToThemselves : Prop :=
  ∀ i : Instr, i.wellFormed = true → decode (encode i) = .ok i

/-- R97, a rule the spec marks derived, with R98: a legal word is the encoding of its instruction, so decoding drops no bit. -/
def Obligations.LegalWordsAreTheirInstructionsEncodings : Prop :=
  ∀ (w : Word) (i : Instr), decode w = .ok i → i.wellFormed = true ∧ encode i = w

/-- R97, a rule the spec marks derived: every word is the command of exactly one row of the opcode map, or is illegal and matches none. -/
def Obligations.EveryWordIsOneCommandOrIllegal : Prop :=
  ∀ w : Word,
    (∃ r ∈ opcodeMap, r.selects w = true ∧ (∀ r' ∈ opcodeMap, r'.selects w = true → r' = r) ∧
      ∃ i, decode w = .ok i ∧ i.opcode = r.opcode) ∨
    ((∀ r ∈ opcodeMap, r.selects w = false) ∧ ∃ e, decode w = .error e)

/-- R94, R95, R96: which words are illegal; how one is issued; and that it completes with IllegalCommand(0xFFFF) and
touches nothing but STATUS and ERRINFO (and the frame's LATCH and IRQ; `drawn` is the model's own record, log entry 8). -/
def Obligations.IllegalWordsCompleteAsIllegalCommand : Prop :=
  (∀ w : Word, wordIsIllegal w ↔ ∃ e, decode w = .error e) ∧
  (∀ (s : State) (w : Word), wordIsIllegal w → s.status.busy = false →
    s.busWriteResponse 0x00C#16 .word = .writeOkay ∧
    s.busWrite 0x00C#16 .word w =
      { s with latch := some w, status := ⟨true, false, .executing, none, w.extractLsb' 0 8⟩, errinfo := 0xFFFF#16,
               rngcnt := 0#32, irq := false, drawn := 0 }) ∧
  (∀ (s : State) (w : Word), wordIsIllegal w → s.status.busy = true → s.latch = some w → s.schedule = [] →
    step s = .next { s with status := errStatus s .illegalCommand, errinfo := 0xFFFF#16, latch := none,
                            irq := s.ctrl.ie })

/-- R98: a few of the words the spec writes out decode to the commands it says. -/
def Obligations.ExampleWordsDecodeAsWritten : Prop :=
  decode 0x00000000#32 = .ok .nop ∧ decode 0x00835701#32 = .ok (.gfAdd 0x57#8 0x83#8) ∧
  decode 0x00835702#32 = .ok (.gfMul 0x57#8 0x83#8) ∧ decode 0x00005303#32 = .ok (.gfInv 0x53#8) ∧
  decode 0x00030210#32 = .ok (.lagrEval 2 0x03#8) ∧ decode 0x01040320#32 = .ok (.shamirSplit 3 4 true) ∧
  decode 0x00020221#32 = .ok (.shamirRecombine 2 2 false) ∧ decode 0x00000250#32 = .ok (.shareEncode 0x02#8) ∧
  decode 0x00000751#32 = .ok (.shareDecode 0x07#8) ∧ decode 0x000000FF#32 = .ok .zeroize

/-! ### The step, issue and completion -/

/-- R301: the engine's step on a latched legal word is exec of its instruction; a scheduled turn (the model's own record of
who moves next, log entry 3) is only taken off. -/
def Obligations.StepRunsTheDecodedCommand : Prop :=
  (∀ (s : State) (w : Word) (i : Instr), s.status.busy = true → s.latch = some w → decode w = .ok i →
    (s.schedule = [] → step s = exec i s) ∧
    (∀ rest, s.schedule = .engine :: rest → step s = exec i { s with schedule := rest })) ∧
  (∀ (s : State) (i : Instr), i.wellFormed = true →
    step (s.withFetchWord 32 (encode i).toNat) = exec i (s.withFetchWord 32 (encode i).toNat))

/-- R300: what a CMD write does while BUSY = 0, for every word (`drawn`, the model's own record of the draws of the pending
command, starts at 0, log entry 8). -/
def Obligations.CmdWriteIssuesTheWord : Prop :=
  ∀ (s : State) (w : Word), s.status.busy = false →
    s.busWriteResponse 0x00C#16 .word = .writeOkay ∧
    s.busWrite 0x00C#16 .word w =
      { s with
        latch := some w
        status := ⟨true, false, if w = 0x00000041#32 then .collecting else .executing, none, w.extractLsb' 0 8⟩
        errinfo := 0xFFFF#16
        rngcnt := 0#32
        irq := false
        drawn := 0 }

/-- R301: every command either is one of the two splits and stays pending with nothing of the hardware's changed (log
entry 8: the port does not answer; `drawn` is the model's own record of the draws made), or ends with
BUSY 0, DONE 1, LATCH empty, IRQ at the level of CTRL.IE, and PHASE and ERRCODE as the rule says. -/
def Obligations.EveryCommandEndsInTheCompletionFrame : Prop :=
  ∀ (i : Instr) (s : State), ∃ t, exec i s = .next t ∧
    (((i.opcode = .shamirSplit ∨ i.opcode = .sskrSplit) ∧ ∃ n, t = { s with drawn := n }) ∨
      (t.latch = none ∧ t.irq = s.ctrl.ie ∧
        ((t.status = okStatus s (if i = .sskrRecombine then .verified else .complete) ∧ t.errinfo = s.errinfo) ∨
          ∃ e, t.status = errStatus s e)))

/-- R311: with a port that answers, every command completes. -/
def Obligations.EveryCommandCompletesWhenThePortAnswers : Prop :=
  ∀ (i : Instr) (s : State), s.RngAnswers drawBound →
    ∃ t, exec i s = .next t ∧ t.status.busy = false ∧ t.status.done = true ∧ t.latch = none

/-- R311: a split whose port leaves a draw without an answer stays pending. That its completion step then changes nothing
but the model's own record of the draws made, and that a repeated one does the same, is the model's form of "leaves
BUSY = 1 for ever" (log entry 8). -/
def Obligations.SilentPortLeavesTheSplitPending : Prop :=
  ∀ (s : State) (bs : List Byte) (rest : List PortAnswer),
    s.port.answers = bs.map PortAnswer.byte ++ .silent :: rest → s.status.busy = true → s.schedule = [] →
    ((SplitLegal s ∧ s.latch = some 0x00000040#32 ∧ bs.length < splitDraws s) ∨
      ∃ (t c : Nat) (dg : Bool), lenOK s.len = true ∧ 1 ≤ t ∧ t ≤ c ∧ c ≤ 16 ∧
        s.latch = some (encode (.shamirSplit t c dg)) ∧ bs.length < levelDraws t dg s.len) →
    step s = .next { s with drawn := bs.length + 1 } ∧
    step { s with drawn := bs.length + 1 } = .next { s with drawn := bs.length + 1 }

/-- R303, R304: a command that fails writes 0 to its output buffers and registers, as the table of R304 says, and
changes nothing else but STATUS, ERRINFO, RNGCNT, LATCH and IRQ; RNGCNT counts the bytes the port delivered, and the
port's stream (the model's own record, log entry 1) has moved past them and past the refusal, if there was one; NOP,
GF_ADD, GF_MUL and ZEROIZE never fail; an illegal word clears nothing. -/
def Obligations.FailedCommandsOnlyClearTheirOutputs : Prop :=
  (∀ (i : Instr) (s t : State), exec i s = .next t → s.status.errcode = none → t.status.errcode ≠ none →
    i.opcode ∉ [.nop, .gfAdd, .gfMul, .zeroize] ∧
    (∀ a, isOutputByte i a → at_ t a = 0x00#8) ∧
    (∀ a, ¬ isOutputByte i a → at_ t a = at_ s a) ∧
    t.result = (if i.opcode = .gfInv then 0x00#8 else s.result) ∧
    t.ident = (if i.opcode = .sskrSplit ∨ i.opcode = .shareDecode then 0x0000#16 else s.ident) ∧
    t.hdr = (if i.opcode = .shareDecode then ⟨0x00#8, 0x00#8, 0x00#8, 0x00#8⟩ else s.hdr) ∧
    t.hdr2 = (if i.opcode = .shareDecode then ⟨0x00#8, 0#4, 0x00#8⟩ else s.hdr2) ∧
    t.sharecnt = (if i.opcode = .sskrSplit then 0x0000#16 else s.sharecnt) ∧
    t.ctrl = s.ctrl ∧ t.splitcfg = s.splitcfg ∧ t.gspec = s.gspec ∧ t.inputs = s.inputs ∧
    t.schedule = s.schedule ∧ t.responses = s.responses ∧ t.observations = s.observations ∧ t.drawn = s.drawn ∧
    t.latch = none ∧ t.irq = s.ctrl.ie ∧
    ∃ e k, t.status = errStatus s e ∧ t.rngcnt = s.rngcnt + BitVec.ofNat 32 k ∧
      ((k = 0 ∧ t.port = s.port) ∨
        (e = .randomnessUnavailable ∧ (∀ j < k, ∃ b, s.port.answerAt j = .byte b) ∧
          s.port.answerAt k = .unavailable ∧ t.port = portAfter s.port (k + 1)))) ∧
  (∀ s : State, execIllegal s =
    .next { s with status := errStatus s .illegalCommand, errinfo := 0xFFFF#16, latch := none, irq := s.ctrl.ie })

/-- The command rules: no command writes a buffer byte that is not an output of it, whether it succeeds or fails. -/
def Obligations.CommandsWriteOnlyTheirOutputBuffers : Prop :=
  ∀ (i : Instr) (s t : State), exec i s = .next t → ∀ a, ¬ isOutputByte i a → at_ t a = at_ s a

/-- The command rules (R22, R25, R27 to R33, R45): which registers each command leaves as they were. -/
def Obligations.CommandsKeepTheRegistersTheyDoNotWrite : Prop :=
  ∀ (i : Instr) (s t : State), exec i s = .next t →
    t.splitcfg = s.splitcfg ∧ t.gspec = s.gspec ∧ t.ctrl.strict = s.ctrl.strict ∧ t.ctrl.ie = s.ctrl.ie ∧
    t.status.lastop = s.status.lastop ∧ t.inputs = s.inputs ∧ t.schedule = s.schedule ∧ t.responses = s.responses ∧
    t.observations = s.observations ∧
    (i.opcode ≠ .sskrRecombine → t.ctrl.len = s.ctrl.len) ∧
    (i.opcode ∉ [.gfAdd, .gfMul, .gfInv, .zeroize] → t.result = s.result) ∧
    (i.opcode ∉ [.sskrSplit, .sskrRecombine, .shareDecode, .zeroize] → t.ident = s.ident) ∧
    (i.opcode ∉ [.shareDecode, .zeroize] → t.hdr = s.hdr) ∧
    (i.opcode ∉ [.shareEncode, .shareDecode, .zeroize] → t.hdr2 = s.hdr2) ∧
    (i.opcode ∉ [.sskrSplit, .zeroize] → t.sharecnt = s.sharecnt) ∧
    (i.opcode ∉ [.shamirSplit, .sskrSplit] → t.port = s.port ∧ t.rngcnt = s.rngcnt ∧ t.drawn = s.drawn)

/-! ### The invariant -/

/-- The invariant holds of the state after reset. -/
def Obligations.ResetStateMeetsTheInvariant : Prop := State.reset.Inv

/-- Every step of either agent keeps the invariant: memory stays canonical and within the buffers, IRQ stays the level
DONE and IE (R46), and BUSY, LATCH, PHASE, LASTOP, ERRCODE, ERRINFO and RNGCNT stay consistent (R23, R300, R301). -/
def Obligations.EveryStepKeepsTheInvariant : Prop :=
  ∀ s t : State, s.Inv → step s = .next t → t.Inv

/-- In a state that meets the invariant no step faults or is refused. -/
def Obligations.InvariantStatesStepSafely : Prop := ∀ s : State, s.Inv → s.SafeStep

/-! ### Reset -/

/-- R340, R341: asserting reset sets every piece of the hardware's state to its reset value, whatever was pending; the
environment is not the hardware's, but the bytes an abandoned command drew are gone from the port: at least those it is
known to have drawn, and none where no command, or none that draws, is pending (log entries 9 and 18). -/
def Obligations.ResetInputRestoresEveryResetValue : Prop :=
  ∀ (s : State) (rest : List HostOp) (sched : List Agent), s.inputs = .reset :: rest → s.schedule = .host :: sched →
    ∃ t k, step s = .next t ∧
      t.readReg .id = 0x534B5231#32 ∧ t.readReg .ctrl = 0#32 ∧ t.readReg .status = 0#32 ∧ t.readReg .cmd = 0#32 ∧
      t.readReg .result = 0#32 ∧ t.readReg .errinfo = 0x0000FFFF#32 ∧ t.readReg .ident = 0#32 ∧
      t.readReg .hdr = 0#32 ∧ t.readReg .hdr2 = 0#32 ∧ t.readReg .splitcfg = 0#32 ∧ t.readReg .sharecnt = 0#32 ∧
      t.readReg .rngcnt = 0#32 ∧ (∀ g, t.readReg (.gspec g) = 0#32) ∧ (∀ a, at_ t a = 0x00#8) ∧
      t.latch = none ∧ t.irq = false ∧ t.inputs = rest ∧ t.schedule = sched ∧ t.responses = s.responses ∧
      t.drawn = 0 ∧ t.port = portAfter s.port k ∧ (s.status.busy = false → k = 0) ∧ (s.status.busy = true → s.drawn ≤ k) ∧
      ((∀ w i, s.latch = some w → decode w = .ok i → i.opcode ≠ .shamirSplit ∧ i.opcode ≠ .sskrSplit) →
        s.drawn = 0 → k = 0)

/-- R341: reset ends a split that the port has left without an answer. The bytes the split drew before, and the unanswered
draw, are discarded: the port goes on after them. Where the split has made no completion step yet, how many of these draws
it has made, and reset discards, is free (log entry 18). -/
def Obligations.ResetDiscardsTheDrawsOfAHungSplit : Prop :=
  ∀ (s : State) (bs : List Byte) (rest : List PortAnswer) (more : List HostOp), SplitLegal s →
    s.port.answers = bs.map PortAnswer.byte ++ .silent :: rest → bs.length < splitDraws s → s.status.busy = true →
    s.latch = some 0x00000040#32 → s.inputs = .reset :: more →
    (s.schedule = [.engine, .host] → ∃ u t, step s = .next u ∧ step u = .next t ∧ u.status = s.status ∧
      t.status = ⟨false, false, .idle, none, 0x00#8⟩ ∧ t.latch = none ∧ t.mem = [] ∧ t.sharecnt = 0x0000#16 ∧
      t.ident = 0x0000#16 ∧ t.port = ⟨rest, s.port.freeDraws⟩) ∧
    (s.schedule = [.host] → s.drawn = 0 → ∃ t k, step s = .next t ∧ k ≤ bs.length + 1 ∧ t.port = portAfter s.port k)

/-- R49: what the state after reset reads as. -/
def Obligations.ResetValuesAreTheTables : Prop :=
  State.reset.readReg .id = 0x534B5231#32 ∧ State.reset.readReg .ctrl = 0x00000000#32 ∧
  State.reset.readReg .status = 0x00000000#32 ∧ State.reset.readReg .cmd = 0x00000000#32 ∧
  State.reset.readReg .result = 0x00000000#32 ∧ State.reset.readReg .errinfo = 0x0000FFFF#32 ∧
  State.reset.readReg .ident = 0x00000000#32 ∧ State.reset.readReg .hdr = 0x00000000#32 ∧
  State.reset.readReg .hdr2 = 0x00000000#32 ∧ State.reset.readReg .splitcfg = 0x00000000#32 ∧
  State.reset.readReg .sharecnt = 0x00000000#32 ∧ State.reset.readReg .rngcnt = 0x00000000#32 ∧
  (∀ g, State.reset.readReg (.gspec g) = 0x00000000#32) ∧ (∀ a, at_ State.reset a = 0x00#8) ∧
  State.reset.latch = none ∧ State.reset.irq = false

/-! ### The host bus -/

/-- R66: while BUSY = 1 every access but a read of ID, a read of STATUS and a write of STATUS is a bus error without
effect; the write of STATUS acts only on DONE. -/
def Obligations.BusyMachineAcceptsOnlyIdAndStatus : Prop :=
  ∀ (s : State) (addr : BitVec 16) (w : Width) (v : Word), s.status.busy = true →
    (¬ acceptedAccess false addr w → s.busRead addr w = .error) ∧
    (¬ acceptedAccess true addr w → s.busWriteResponse addr w = .error ∧ s.busWrite addr w v = s) ∧
    s.busRead 0x000#16 .word = .readOkay 0x534B5231#32 ∧
    s.busRead 0x008#16 .word = .readOkay (statusWord s.status) ∧
    s.busWriteResponse 0x008#16 .word = .writeOkay ∧
    s.busWrite 0x008#16 .word v =
      if v.getLsbD 1 then { s with status := { s.status with done := false }, irq := false } else s

/-- R64, R65, with R61 and R62: an access outside the address map is a bus error with no effect, whether or not a command
is pending; while BUSY = 0 every access of the map completes, for reads and for writes. -/
def Obligations.ExactlyTheMappedAccessesComplete : Prop :=
  (∀ (s : State) (addr : BitVec 16) (w : Width) (v : Word), ¬ mappedAccess addr.toNat w.bytes →
    s.busRead addr w = .error ∧ s.busWriteResponse addr w = .error ∧ s.busWrite addr w v = s) ∧
  (∀ (s : State) (addr : BitVec 16) (w : Width), s.status.busy = false → mappedAccess addr.toNat w.bytes →
    s.busRead addr w ≠ .error ∧ s.busWriteResponse addr w = .writeOkay)

/-- R306: a bus error changes no state; only the response is recorded. -/
def Obligations.BusErrorsChangeNoState : Prop :=
  ∀ (s : State) (addr : BitVec 16) (w : Width) (v : Word),
    (s.busRead addr w = .error → s.hostOp (.read addr w) = { s with responses := .error :: s.responses }) ∧
    (s.busWriteResponse addr w = .error →
      s.hostOp (.write addr w v) = { s with responses := .error :: s.responses })

/-- R62, R63, R67: while BUSY = 0 a legal buffer access of n bytes reads them as they stand, byte j in bits [8j+7:8j] and
0 above, whatever widths wrote them; a write stores the n low bytes of its data, least significant first, reads back as
those bytes zero-extended, and changes no other byte and no register. -/
def Obligations.BufferWritesReadBackLittleEndian : Prop :=
  ∀ (s : State) (addr : BitVec 16) (w : Width) (v : Word), s.status.busy = false → 0x100 ≤ addr.toNat →
    mappedAccess addr.toNat w.bytes →
    let t := s.busWrite addr w v
    (∃ d, s.busRead addr w = .readOkay d ∧ (∀ j < w.bytes, d.extractLsb' (8 * j) 8 = at_ s (addr.toNat + j)) ∧
      d.toNat < 2 ^ (8 * w.bytes)) ∧
    s.busWriteResponse addr w = .writeOkay ∧
    (∀ j < w.bytes, at_ t (addr.toNat + j) = v.extractLsb' (8 * j) 8) ∧
    SameOutside s t addr.toNat (addr.toNat + w.bytes) ∧
    t = { s with mem := t.mem } ∧
    t.busRead addr w = .readOkay (BitVec.ofNat 32 (v.toNat % 2 ^ (8 * w.bytes)))

/-- R34: what a host write of v does to each register but CMD: only the RW bits change, each to what v holds, writing 1
to STATUS.DONE clears it, read-only bits stay, and no other register or buffer changes; reserved bits read 0. With R21 to
R33: the offset at which, while BUSY = 0, a word access reads and writes each register. -/
def Obligations.RegisterWritesChangeOnlyWritableBits : Prop :=
  ∀ (s : State) (v : Word),
    (s.writeReg .ctrl v).readReg .ctrl = v &&& 0x00003F03#32 ∧
    (s.writeReg .ident v).readReg .ident = v &&& 0x0000FFFF#32 ∧
    (s.writeReg .hdr v).readReg .hdr = v ∧
    (s.writeReg .hdr2 v).readReg .hdr2 = (v &&& 0x000000FF#32) ||| (s.readReg .hdr2 &&& 0x00FF0F00#32) ∧
    (s.writeReg .splitcfg v).readReg .splitcfg = v &&& 0x0000FFFF#32 ∧
    (s.writeReg .sharecnt v).readReg .sharecnt = v &&& 0x0000FFFF#32 ∧
    (∀ g, (s.writeReg (.gspec g) v).readReg (.gspec g) = v &&& 0x0000FFFF#32 ∧
      ∀ g', g' ≠ g → (s.writeReg (.gspec g) v).readReg (.gspec g') = s.readReg (.gspec g')) ∧
    (∀ r ∈ [Reg.id, .result, .errinfo, .rngcnt], s.writeReg r v = s) ∧
    s.writeReg .status v =
      (if v.getLsbD 1 then { s with status := { s.status with done := false }, irq := false } else s) ∧
    s.readReg .cmd = 0#32 ∧
    (∀ r r', r ≠ r' → r ≠ .cmd → (s.writeReg r v).readReg r' = s.readReg r') ∧
    (∀ r, r ≠ .cmd → (s.writeReg r v).mem = s.mem) ∧
    (∀ r, s.readReg r &&& reservedBits r = 0#32) ∧
    (s.status.busy = false → (∀ m ∈ registerMap, reaches s v m.1 m.2) ∧
      ∀ g : Fin 16, reaches s v (BitVec.ofNat 16 (0x040 + 4 * g.val)) (.gspec g))

/-- R21 to R33: the places of the fields in the registers. -/
def Obligations.RegisterFieldsAreInTheirPlaces : Prop :=
  ∀ s : State,
    s.readReg .id = 0x534B5231#32 ∧
    (s.readReg .ctrl).getLsbD 0 = s.ctrl.strict ∧ (s.readReg .ctrl).getLsbD 1 = s.ctrl.ie ∧
    (s.readReg .ctrl).extractLsb' 8 6 = s.ctrl.len ∧
    s.readReg .status = statusWord s.status ∧ s.readReg .cmd = 0#32 ∧
    (s.readReg .result).extractLsb' 0 8 = s.result ∧ (s.readReg .errinfo).extractLsb' 0 16 = s.errinfo ∧
    (s.readReg .ident).extractLsb' 0 16 = s.ident ∧
    (s.readReg .hdr).extractLsb' 0 8 = s.hdr.gt ∧ (s.readReg .hdr).extractLsb' 8 8 = s.hdr.gc ∧
    (s.readReg .hdr).extractLsb' 16 8 = s.hdr.gi ∧ (s.readReg .hdr).extractLsb' 24 8 = s.hdr.mt ∧
    (s.readReg .hdr2).extractLsb' 0 8 = s.hdr2.mi ∧ (s.readReg .hdr2).extractLsb' 8 4 = s.hdr2.rsv ∧
    (s.readReg .hdr2).extractLsb' 16 8 = s.hdr2.plen ∧
    (s.readReg .splitcfg).extractLsb' 0 8 = s.splitcfg.gt ∧ (s.readReg .splitcfg).extractLsb' 8 8 = s.splitcfg.gc ∧
    (s.readReg .sharecnt).extractLsb' 0 16 = s.sharecnt ∧ s.readReg .rngcnt = s.rngcnt ∧
    ∀ g : Fin 16, (s.readReg (.gspec g)).extractLsb' 0 8 = (s.groupSpec g.val).mt ∧
      (s.readReg (.gspec g)).extractLsb' 8 8 = (s.groupSpec g.val).mc

/-- R46, R309: writing 1 to STATUS.DONE clears DONE and drops IRQ; writing CTRL.IE moves IRQ to DONE and IE. -/
def Obligations.HostControlsTheInterruptLine : Prop :=
  ∀ (s : State) (v : Word), s.status.busy = false →
    (v.getLsbD 1 = true →
      s.busWrite 0x008#16 .word v = { s with status := { s.status with done := false }, irq := false }) ∧
    (v.getLsbD 1 = false → s.busWrite 0x008#16 .word v = s) ∧
    s.busWrite 0x004#16 .word v =
      { s with ctrl := ⟨v.getLsbD 0, v.getLsbD 1, v.extractLsb' 8 6⟩, irq := s.status.done && v.getLsbD 1 }

/-- R23, R302: the places of the STATUS fields, the numbers of the eight phases and of the eleven errors. -/
def Obligations.StatusFieldsAreInTheirPlaces : Prop :=
  ∀ st : Status,
    (statusWord st).getLsbD 0 = st.busy ∧ (statusWord st).getLsbD 1 = st.done ∧
    (statusWord st).getLsbD 2 = st.errcode.isSome ∧ (statusWord st).getLsbD 3 = false ∧
    (statusWord st).extractLsb' 4 3 = st.phase.code ∧ (statusWord st).getLsbD 7 = false ∧
    (statusWord st).extractLsb' 8 8 = errcodeField st.errcode ∧ (statusWord st).extractLsb' 16 8 = st.lastop ∧
    (statusWord st).extractLsb' 24 8 = 0x00#8 ∧
    Phase.idle.code = 0#3 ∧ Phase.executing.code = 1#3 ∧ Phase.collecting.code = 2#3 ∧
    Phase.groupsQualifying.code = 3#3 ∧ Phase.outerReady.code = 4#3 ∧ Phase.verified.code = 5#3 ∧
    Phase.complete.code = 6#3 ∧ Phase.failed.code = 7#3 ∧
    errcodeField none = 0#8 ∧ errcodeField (some .invalidParameters) = 1#8 ∧
    errcodeField (some .insufficientShares) = 2#8 ∧ errcodeField (some .duplicateShare) = 3#8 ∧
    errcodeField (some .inconsistentParameters) = 4#8 ∧ errcodeField (some .mixedShareSets) = 5#8 ∧
    errcodeField (some .checksumMismatch) = 6#8 ∧ errcodeField (some .truncatedShare) = 7#8 ∧
    errcodeField (some .randomnessUnavailable) = 8#8 ∧ errcodeField (some .reservedNonZero) = 9#8 ∧
    errcodeField (some .domainError) = 10#8 ∧ errcodeField (some .illegalCommand) = 11#8

/-- R233: while SSKR_RECOMBINE is pending, a host step never moves PHASE back, and keeps it one of 2, 3, 4 unless it is
the reset input. -/
def Obligations.PendingRecombinePhaseNeverFallsBack : Prop :=
  ∀ (s : State), s.status.busy = true → s.status.phase.recombining = true → s.inputs.head? ≠ some .reset →
    s.hostStep.status.phase.recombining = true ∧
    s.status.phase.code.toNat ≤ s.hostStep.status.phase.code.toNat ∧ s.hostStep.latch = s.latch

/-! ### Field arithmetic -/

/-- R125 with R120: the word of GF_ADD a, b; it stores a XOR b in RESULT, and changes nothing else but the completion
frame. -/
def Obligations.GfAddStoresTheXor : Prop :=
  ∀ (a b : Byte) (s : State), decode (wordOf 0x01#8 a b 0x00#8) = .ok (.gfAdd a b) ∧
    exec (.gfAdd a b) s = .next { s with result := a ^^^ b, status := okStatus s .complete, latch := none,
                                         irq := s.ctrl.ie }

/-- R121, R126: the word of GF_MUL a, b; it stores the product of the polynomials of a and b reduced modulo
x^8 + x^4 + x^3 + x + 1. -/
def Obligations.GfMulStoresTheReducedPolynomialProduct : Prop :=
  ∀ (a b : Byte) (s : State), decode (wordOf 0x02#8 a b 0x00#8) = .ok (.gfMul a b) ∧ ∃ c : Byte,
    bytePoly c = (bytePoly a * bytePoly b) %ₘ reductionPoly ∧
    exec (.gfMul a b) s = .next { s with result := c, status := okStatus s .complete, latch := none, irq := s.ctrl.ie }

/-- R127 with R304: the word of GF_INV a; for a ≠ 0 it stores inv(a), the unique b with a ⊗ b = 1, which is a^254 (R122;
that there is exactly one, and which, R122 takes from general knowledge); for a = 0 it ends with DomainError(0xFFFF) and
RESULT 0. -/
def Obligations.GfInvStoresTheUniqueInverseOrFailsOnZero : Prop :=
  (∀ a : Byte, decode (wordOf 0x03#8 a 0x00#8 0x00#8) = .ok (.gfInv a)) ∧
  (∀ (a : Byte) (s : State), a ≠ 0x00#8 → ∃ b : Byte,
    gfMul a b = 0x01#8 ∧ (∀ c, gfMul a c = 0x01#8 → c = b) ∧ b = gfPow a 254 ∧
    exec (.gfInv a) s = .next { s with result := b, status := okStatus s .complete, latch := none, irq := s.ctrl.ie }) ∧
  (∀ s : State, exec (.gfInv 0x00#8) s =
    .next { s with result := 0x00#8, status := errStatus s .domainError, errinfo := 0xFFFF#16, latch := none,
                   irq := s.ctrl.ie })

/-- R124, which the spec takes from general knowledge: the arithmetic laws of ⊕ and ⊗. -/
def Obligations.BytesObeyTheFieldLaws : Prop :=
  (∀ a b, gfAdd a b = gfAdd b a) ∧ (∀ a b c, gfAdd (gfAdd a b) c = gfAdd a (gfAdd b c)) ∧
  (∀ a, gfAdd 0x00#8 a = a) ∧ (∀ a, gfAdd a a = 0x00#8) ∧
  (∀ a b, gfMul a b = gfMul b a) ∧ (∀ a b c, gfMul (gfMul a b) c = gfMul a (gfMul b c)) ∧
  (∀ a b c, gfMul a (gfAdd b c) = gfAdd (gfMul a b) (gfMul a c)) ∧
  (∀ a, gfMul 0x00#8 a = 0x00#8) ∧ (∀ a, gfMul 0x01#8 a = a) ∧
  (∀ a b, gfMul a b = 0x00#8 → a = 0x00#8 ∨ b = 0x00#8) ∧ (∀ a k, a ≠ 0x00#8 → gfPow a k ≠ 0x00#8)

/-! ### Interpolation -/

/-- R142 with R304: the word of LAGR_EVAL n, x; on pairwise-distinct coordinates it stores the Lagrange formula's value
(R140, whose formula the spec takes from general knowledge, written out in the points' indices), byte by byte, in RBUF;
its errors, in their order, are an illegal length, an illegal n and the first repeated coordinate, and clear RBUF. -/
def Obligations.LagrEvalInterpolatesOrRejectsInOrder : Prop :=
  (∀ n x : Byte, decode (wordOf 0x10#8 n x 0x00#8) = .ok (.lagrEval n.toNat x)) ∧
  (∀ (n : Nat) (x : Byte) (s : State), lenOK s.len = true → 1 ≤ n → n ≤ 16 →
     (∀ i < n, ∀ j < i, at_ s (0x180 + j) ≠ at_ s (0x180 + i)) →
     ∃ t, exec (.lagrEval n x) s = .next t ∧
       (∀ p < s.len, at_ t (0x400 + p) = interpolatedByte s n x p) ∧ ZeroIn t (0x400 + s.len) 0x420 ∧
       SameOutside s t 0x400 0x420 ∧
       t = { s with mem := t.mem, status := okStatus s .complete, latch := none, irq := s.ctrl.ie }) ∧
  (∀ (n : Nat) (x : Byte) (s : State) (info : BitVec 16),
     ((lenOK s.len = false ∧ info = 0xFFFF#16) ∨
       (lenOK s.len = true ∧ (n = 0 ∨ 16 < n) ∧ info = 0xFFFF#16) ∨
       (lenOK s.len = true ∧ 1 ≤ n ∧ n ≤ 16 ∧ ∃ i < n, info = BitVec.ofNat 16 (0x0100 + i) ∧
         (∃ j < i, at_ s (0x180 + j) = at_ s (0x180 + i)) ∧
         ∀ i' < i, ∀ j < i', at_ s (0x180 + j) ≠ at_ s (0x180 + i'))) →
     ∃ t, exec (.lagrEval n x) s = .next t ∧ ZeroIn t 0x400 0x420 ∧ SameOutside s t 0x400 0x420 ∧
       t = { s with mem := t.mem, status := errStatus s .invalidParameters, errinfo := info, latch := none,
                    irq := s.ctrl.ie })

/-- R141 (a), (c), a rule the spec marks derived: interpolation of at least m points of a polynomial with m coefficient
vectors gives the polynomial's value at every x. -/
def Obligations.InterpolationRecoversThePolynomial : Prop :=
  ∀ (coeffs : List (List Byte)) (pts : List Point) (x : Byte) (L : Nat),
    coeffs.length ≤ pts.length → (pts.map Point.x).Nodup → (∀ pt ∈ pts, pt.y = polyEval coeffs pt.x L) →
    interp pts x L = polyEval coeffs x L

/-! ### The Shamir controller -/

/-- R161, R163, R166: SHAMIR_SPLIT with t ≥ 2 draws (t−1)·L bytes as coefficient vectors and stores the polynomial's
values at 1..c. -/
def Obligations.ShamirSplitStoresThePolynomialsValues : Prop :=
  ∀ (t c : Nat) (s : State) (bs : List Byte) (rest : List PortAnswer), lenOK s.len = true → 2 ≤ t → t ≤ c → c ≤ 16 →
    s.port.answers = bs.map PortAnswer.byte ++ rest → bs.length = (t - 1) * s.len →
    ∃ u, exec (.shamirSplit t c false) s = .next u ∧
      (∀ i < 16, at_ u (0x180 + i) = if i < c then BitVec.ofNat 8 (i + 1) else 0x00#8) ∧
      (∀ i < 16, ∀ p < 32, at_ u (0x200 + 32 * i + p) =
        if i < c ∧ p < s.len then
          gfSum ((List.range t).map fun k =>
            gfMul (if k = 0 then at_ s (0x100 + p) else bs.getD ((k - 1) * s.len + p) 0x00#8)
              (gfPow (BitVec.ofNat 8 (i + 1)) k))
        else 0x00#8) ∧
      (∀ a, a < 0x180 ∨ (0x190 ≤ a ∧ a < 0x200) ∨ 0x400 ≤ a → at_ u a = at_ s a) ∧
      u = { s with mem := u.mem, port := ⟨rest, s.port.freeDraws⟩, rngcnt := s.rngcnt + BitVec.ofNat 32 bs.length,
                   status := okStatus s .complete, latch := none, irq := s.ctrl.ie }

/-- R161, R166: with t = 1 SHAMIR_SPLIT copies the secret to every share and draws nothing, in either mode. -/
def Obligations.ShamirSplitThresholdOneCopiesTheSecret : Prop :=
  ∀ (c : Nat) (dg : Bool) (s : State), lenOK s.len = true → 1 ≤ c → c ≤ 16 →
    ∃ u, exec (.shamirSplit 1 c dg) s = .next u ∧
      (∀ i < 16, at_ u (0x180 + i) = if i < c then BitVec.ofNat 8 (i + 1) else 0x00#8) ∧
      (∀ i < 16, ∀ p < 32, at_ u (0x200 + 32 * i + p) = if i < c ∧ p < s.len then at_ s (0x100 + p) else 0x00#8) ∧
      (∀ a, a < 0x180 ∨ (0x190 ≤ a ∧ a < 0x200) ∨ 0x400 ≤ a → at_ u a = at_ s a) ∧
      u = { s with mem := u.mem, status := okStatus s .complete, latch := none, irq := s.ctrl.ie }

/-- R161 to R163, R166: SHAMIR_SPLIT.DG with t ≥ 2 draws the salt and t−2 coefficient vectors and stores the values at
1..c of a polynomial that is the secret at 0 and the digest share of the drawn salt at DIGEST_X. -/
def Obligations.ShamirSplitDigestModePassesThroughTheDigestShare : Prop :=
  ∀ (t c : Nat) (s : State) (bs : List Byte) (rest : List PortAnswer), lenOK s.len = true → 2 ≤ t → t ≤ c → c ≤ 16 →
    s.port.answers = bs.map PortAnswer.byte ++ rest → bs.length = (s.len - 4) + (t - 2) * s.len →
    ∃ (u : State) (coeffs : List (List Byte)), exec (.shamirSplit t c true) s = .next u ∧
      coeffs.length = t ∧ coeffs.head? = some (s.secretVec s.len) ∧
      polyEval coeffs 0x00#8 s.len = s.secretVec s.len ∧
      polyEval coeffs hwConfig.digestX s.len =
        (hwConfig.digestFn (s.secretVec s.len) (bs.take (s.len - 4))).toList ++ bs.take (s.len - 4) ∧
      (∀ k, 1 ≤ k → k < t - 1 → ∀ p < s.len,
        (coeffs.getD k []).getD p 0x00#8 = bs.getD ((s.len - 4) + (k - 1) * s.len + p) 0x00#8) ∧
      (∀ i < 16, at_ u (0x180 + i) = if i < c then BitVec.ofNat 8 (i + 1) else 0x00#8) ∧
      (∀ i < c, u.pyVec i s.len = polyEval coeffs (BitVec.ofNat 8 (i + 1)) s.len ∧
        ZeroIn u (0x200 + 32 * i + s.len) (0x200 + 32 * i + 32)) ∧
      ZeroIn u (0x200 + 32 * c) 0x400 ∧
      (∀ a, a < 0x180 ∨ (0x190 ≤ a ∧ a < 0x200) ∨ 0x400 ≤ a → at_ u a = at_ s a) ∧
      u = { s with mem := u.mem, port := ⟨rest, s.port.freeDraws⟩, rngcnt := s.rngcnt + BitVec.ofNat 32 bs.length,
                   status := okStatus s .complete, latch := none, irq := s.ctrl.ie }

/-- R166, R304, R305: SHAMIR_SPLIT with an illegal L, t or c ends with InvalidParameters(0xFFFF) before any draw, and
clears PX and PY; with legal ones and a port that refuses a draw it ends with RandomnessUnavailable(0xFFFF), and RNGCNT
counts the bytes delivered before. -/
def Obligations.ShamirSplitFailsWithItsPointsCleared : Prop :=
  ∀ (t c : Nat) (dg : Bool) (s : State),
    ((lenOK s.len = false ∨ t < 1 ∨ 16 < t ∨ c < t ∨ 16 < c) →
      ∃ u, exec (.shamirSplit t c dg) s = .next u ∧ ZeroIn u 0x180 0x190 ∧ ZeroIn u 0x200 0x400 ∧
        (∀ a, a < 0x180 ∨ (0x190 ≤ a ∧ a < 0x200) ∨ 0x400 ≤ a → at_ u a = at_ s a) ∧
        u = { s with mem := u.mem, status := errStatus s .invalidParameters, errinfo := 0xFFFF#16, latch := none,
                     irq := s.ctrl.ie }) ∧
    (lenOK s.len = true → 1 ≤ t → t ≤ c → c ≤ 16 →
      ∀ (bs : List Byte) (rest : List PortAnswer),
        s.port.answers = bs.map PortAnswer.byte ++ .unavailable :: rest → bs.length < levelDraws t dg s.len →
      ∃ u, exec (.shamirSplit t c dg) s = .next u ∧ ZeroIn u 0x180 0x190 ∧ ZeroIn u 0x200 0x400 ∧
        (∀ a, a < 0x180 ∨ (0x190 ≤ a ∧ a < 0x200) ∨ 0x400 ≤ a → at_ u a = at_ s a) ∧
        u = { s with mem := u.mem, port := ⟨rest, s.port.freeDraws⟩,
                     rngcnt := s.rngcnt + BitVec.ofNat 32 bs.length,
                     status := errStatus s .randomnessUnavailable, errinfo := 0xFFFF#16, latch := none,
                     irq := s.ctrl.ie })

/-- R167 with R164 and R304: the words of SHAMIR_RECOMBINE t, n and its .DG form; with legal operands and t distinct
coordinates it stores the value at 0 of the first t distinct points in SECRET (the first point's vector for t = 1),
provided that in digest mode the value at DIGEST_X verifies; its errors, in their order, are an illegal L, t or n, the
first coordinate outside 1..16, fewer than t distinct coordinates, and a digest share that does not verify, and clear
SECRET. -/
def Obligations.ShamirRecombineStoresTheSecretOrRejectsInOrder : Prop :=
  (∀ t n : Byte, decode (wordOf 0x21#8 t n 0x00#8) = .ok (.shamirRecombine t.toNat n.toNat false) ∧
     decode (wordOf 0x21#8 t n 0x01#8) = .ok (.shamirRecombine t.toNat n.toNat true)) ∧
  (∀ (t n : Nat) (dg : Bool) (s : State), lenOK s.len = true → 1 ≤ t → t ≤ 16 → n ≤ 16 →
     (∀ i < n, 1 ≤ (at_ s (0x180 + i)).toNat ∧ (at_ s (0x180 + i)).toNat ≤ 16) →
     t ≤ (selectDistinct [] (s.points n s.len)).length →
     let Q := (selectDistinct [] (s.points n s.len)).take t
     (dg = true → 2 ≤ t → verifyDigestShare hwConfig (interp Q 0x00#8 s.len) (interp Q 0xFE#8 s.len) = true) →
     ∃ u, exec (.shamirRecombine t n dg) s = .next u ∧
       (∀ p < s.len, at_ u (0x100 + p) =
         if t = 1 then at_ s (0x200 + p) else (interp Q 0x00#8 s.len).getD p 0x00#8) ∧
       ZeroIn u (0x100 + s.len) 0x120 ∧ SameOutside s u 0x100 0x120 ∧
       u = { s with mem := u.mem, status := okStatus s .complete, latch := none, irq := s.ctrl.ie }) ∧
  (∀ (t n : Nat) (dg : Bool) (s : State) (e : ErrCode) (info : BitVec 16),
     (((lenOK s.len = false ∨ t < 1 ∨ 16 < t ∨ 16 < n) ∧ e = .invalidParameters ∧ info = 0xFFFF#16) ∨
       (lenOK s.len = true ∧ 1 ≤ t ∧ t ≤ 16 ∧ n ≤ 16 ∧
         ((∃ i < n, ¬ (1 ≤ (s.px i).toNat ∧ (s.px i).toNat ≤ 16) ∧
             (∀ j < i, 1 ≤ (s.px j).toNat ∧ (s.px j).toNat ≤ 16) ∧
             e = .invalidParameters ∧ info = BitVec.ofNat 16 (0x0100 + i)) ∨
           ((∀ i < n, 1 ≤ (s.px i).toNat ∧ (s.px i).toNat ≤ 16) ∧ info = 0xFFFF#16 ∧
             (((selectDistinct [] (s.points n s.len)).length < t ∧ e = .insufficientShares) ∨
               (t ≤ (selectDistinct [] (s.points n s.len)).length ∧ 2 ≤ t ∧ dg = true ∧
                 verifyDigestShare hwConfig (interp ((selectDistinct [] (s.points n s.len)).take t) 0x00#8 s.len)
                   (interp ((selectDistinct [] (s.points n s.len)).take t) 0xFE#8 s.len) = false ∧
                 e = .checksumMismatch)))))) →
     ∃ u, exec (.shamirRecombine t n dg) s = .next u ∧ ZeroIn u 0x100 0x120 ∧ SameOutside s u 0x100 0x120 ∧
       u = { s with mem := u.mem, status := errStatus s e, errinfo := info, latch := none, irq := s.ctrl.ie })

/-- R168, a rule the spec marks derived: recombining any t or more shares of a split, in any order and in either mode,
returns the secret, for every legal configuration and every draw the port makes. -/
def Obligations.ShamirRecombineInvertsSplit : Prop :=
  ∀ (cfg : Config) (t c : Nat) (dg : Bool) (S : List Byte) (d d' : Drawing) (Y : List (List Byte)) (is : List Nat)
    (info : BitVec 16),
    cfg.Legal → 1 ≤ t → t ≤ c → c ≤ 16 → lenOK S.length = true →
    shamirSplit cfg t c dg S d = .drawn Y d' →
    is.Nodup → (∀ i ∈ is, i < c) → t ≤ is.length →
    shamirRecombine cfg t (is.map fun i => ⟨BitVec.ofNat 8 (i + 1), Y.getD i []⟩) dg S.length info = .ok S

/-! ### The checksum -/

/-- R193 with R190 and R304: DIGEST_MAKE stores DIGEST_FN of the secret and the salt in RBUF[0..4), keeps the salt and
clears RBUF[L..32); with an illegal length it ends with InvalidParameters(0xFFFF) and clears RBUF. -/
def Obligations.DigestMakeStoresTheDigestBeforeTheSalt : Prop :=
  decode 0x00000030#32 = .ok .digestMake ∧
  (∀ s : State, lenOK s.len = true →
    ∃ t, exec .digestMake s = .next t ∧
      (∀ q (h : q < 4), at_ t (0x400 + q) = (hwConfig.digestFn (s.secretVec s.len) (s.rbufSalt s.len))[q]) ∧
      (∀ p, 4 ≤ p → p < s.len → at_ t (0x400 + p) = at_ s (0x400 + p)) ∧ ZeroIn t (0x400 + s.len) 0x420 ∧
      SameOutside s t 0x400 0x420 ∧
      t = { s with mem := t.mem, status := okStatus s .complete, latch := none, irq := s.ctrl.ie }) ∧
  (∀ s : State, lenOK s.len = false →
    ∃ t, exec .digestMake s = .next t ∧ ZeroIn t 0x400 0x420 ∧ SameOutside s t 0x400 0x420 ∧
      t = { s with mem := t.mem, status := errStatus s .invalidParameters, errinfo := 0xFFFF#16, latch := none,
                   irq := s.ctrl.ie })

/-- R191, R194: DIGEST_VERIFY succeeds exactly when RBUF[0..4) is DIGEST_FN of the secret and RBUF[4..L); else it ends
with ChecksumMismatch(0xFFFF), and with an illegal length with InvalidParameters(0xFFFF); it writes no buffer. -/
def Obligations.DigestVerifyComparesTheWholeDigest : Prop :=
  decode 0x00000031#32 = .ok .digestVerify ∧
  (∀ s : State, lenOK s.len = true →
    ((∀ q (h : q < 4), at_ s (0x400 + q) = (hwConfig.digestFn (s.secretVec s.len) (s.rbufSalt s.len))[q]) →
      exec .digestVerify s = .next { s with status := okStatus s .complete, latch := none, irq := s.ctrl.ie }) ∧
    ((∃ q, ∃ h : q < 4, at_ s (0x400 + q) ≠ (hwConfig.digestFn (s.secretVec s.len) (s.rbufSalt s.len))[q]) →
      exec .digestVerify s = .next { s with status := errStatus s .checksumMismatch, errinfo := 0xFFFF#16,
                                            latch := none, irq := s.ctrl.ie })) ∧
  (∀ s : State, lenOK s.len = false →
    exec .digestVerify s = .next { s with status := errStatus s .invalidParameters, errinfo := 0xFFFF#16,
                                          latch := none, irq := s.ctrl.ie })

/-! ### The share codec -/

/-- R258, a rule the spec marks derived: an encoded share, followed by zeros up to the slot's 64 bytes, decodes to the
fields it was made of, in either mode. -/
def Obligations.EncodedSharesDecodeToTheirFields : Prop :=
  ∀ (id : BitVec 16) (gt gc gi mt mi k : Nat) (P : List Byte) (strict : Bool),
    1 ≤ gt → gt ≤ gc → gc ≤ 16 → gi < gc → 1 ≤ mt → mt ≤ 16 → mi ≤ 15 → lenOK P.length = true →
    decodeShare (padTo 64 (encodeShare id gt gc gi mt mi P)) (5 + P.length) strict k =
      .ok ⟨k, id, gt, gc, gi, mt, mi, 0#4, P⟩

/-- R251 to R253, R255: the checks of decoding in their order, and when decoding succeeds. -/
def Obligations.ShareDecodingChecksInOrder : Prop :=
  ∀ (B : List Byte) (len : Nat) (strict : Bool) (k : Nat),
    let gt := (B.getD 2 0x00#8).toNat / 16 + 1
    let gc := (B.getD 2 0x00#8).toNat % 16 + 1
    let gi := (B.getD 3 0x00#8).toNat / 16
    let rsv := (B.getD 4 0x00#8).toNat % 16
    let lenBad := 37 < len ∨ (len - 5) % 2 = 1
    (len < 21 → decodeShare B len strict k = .error ⟨.truncatedShare, BitVec.ofNat 16 k⟩) ∧
    (21 ≤ len → lenBad → decodeShare B len strict k = .error ⟨.invalidParameters, BitVec.ofNat 16 k⟩) ∧
    (21 ≤ len → ¬ lenBad → strict = true → rsv ≠ 0 →
      decodeShare B len strict k = .error ⟨.reservedNonZero, BitVec.ofNat 16 k⟩) ∧
    (21 ≤ len → ¬ lenBad → ¬ (strict = true ∧ rsv ≠ 0) → (gc < gt ∨ gc ≤ gi) →
      decodeShare B len strict k = .error ⟨.invalidParameters, BitVec.ofNat 16 k⟩) ∧
    (21 ≤ len → ¬ lenBad → ¬ (strict = true ∧ rsv ≠ 0) → ¬ (gc < gt ∨ gc ≤ gi) →
      ∃ h, decodeShare B len strict k = .ok h ∧
        h.id.toNat = 256 * (B.getD 0 0x00#8).toNat + (B.getD 1 0x00#8).toNat ∧ h.gt = gt ∧ h.gc = gc ∧ h.gi = gi ∧
        h.mt = (B.getD 3 0x00#8).toNat % 16 + 1 ∧ h.mi = (B.getD 4 0x00#8).toNat / 16 ∧ h.rsv.toNat = rsv ∧
        h.payload = (B.drop 5).take (len - 5) ∧ h.slot = k)

/-- R250: only bytes 0..SLEN[k]−1 of a slot are read: bytes at or beyond it are ignored whatever they hold. -/
def Obligations.BytesBeyondTheShareLengthAreIgnored : Prop :=
  ∀ (s s' : State) (k : Nat), k < 256 → s.ctrl.strict = s'.ctrl.strict → s.slen k = s'.slen k →
    (∀ j < s.slen k, j < 64 → at_ s (0x4000 + 64 * k + j) = at_ s' (0x4000 + 64 * k + j)) →
    s.decodeSlot k = s'.decodeSlot k

/-- R256 with R254 and R304: SHARE_ENCODE with a legal length and header stores the share and its length in the slot, clears
the rest of the slot, and writes HDR2.RSV and HDR2.PLEN; with an illegal length or header value it ends with
InvalidParameters(0xFFFF) and clears the slot and its length. -/
def Obligations.ShareEncodeStoresTheWireFormatOrRejects : Prop :=
  (∀ k : Byte, decode (wordOf 0x50#8 k 0x00#8 0x00#8) = .ok (.shareEncode k)) ∧
  (∀ (k : Byte) (s : State), lenOK s.len = true →
     1 ≤ s.hdr.gt.toNat → s.hdr.gt.toNat ≤ s.hdr.gc.toNat → s.hdr.gc.toNat ≤ 16 → s.hdr.gi.toNat < s.hdr.gc.toNat →
     1 ≤ s.hdr.mt.toNat → s.hdr.mt.toNat ≤ 16 → s.hdr2.mi.toNat ≤ 15 →
     let slot := 0x4000 + 64 * k.toNat
     ∃ t, exec (.shareEncode k) s = .next t ∧
       at_ t slot = s.ident.extractLsb' 8 8 ∧ at_ t (slot + 1) = s.ident.extractLsb' 0 8 ∧
       (at_ t (slot + 2)).toNat = 16 * (s.hdr.gt.toNat - 1) + (s.hdr.gc.toNat - 1) ∧
       (at_ t (slot + 3)).toNat = 16 * s.hdr.gi.toNat + (s.hdr.mt.toNat - 1) ∧
       (at_ t (slot + 4)).toNat = 16 * s.hdr2.mi.toNat ∧
       (∀ p < s.len, at_ t (slot + 5 + p) = at_ s (0x400 + p)) ∧ ZeroIn t (slot + 5 + s.len) (slot + 64) ∧
       (at_ t (0x800 + k.toNat)).toNat = 5 + s.len ∧
       (∀ a, a ≠ 0x800 + k.toNat → a < slot ∨ slot + 64 ≤ a → at_ t a = at_ s a) ∧
       t = { s with mem := t.mem, hdr2 := ⟨s.hdr2.mi, 0#4, BitVec.ofNat 8 s.len⟩, status := okStatus s .complete,
                    latch := none, irq := s.ctrl.ie }) ∧
  (∀ (k : Byte) (s : State),
     (lenOK s.len = false ∨ s.hdr.gt.toNat < 1 ∨ 16 < s.hdr.gc.toNat ∨ s.hdr.gc.toNat < s.hdr.gt.toNat ∨
       s.hdr.gc.toNat ≤ s.hdr.gi.toNat ∨ s.hdr.mt.toNat < 1 ∨ 16 < s.hdr.mt.toNat ∨ 15 < s.hdr2.mi.toNat) →
     let slot := 0x4000 + 64 * k.toNat
     ∃ t, exec (.shareEncode k) s = .next t ∧ ZeroIn t slot (slot + 64) ∧ at_ t (0x800 + k.toNat) = 0x00#8 ∧
       (∀ a, a ≠ 0x800 + k.toNat → a < slot ∨ slot + 64 ≤ a → at_ t a = at_ s a) ∧
       t = { s with mem := t.mem, status := errStatus s .invalidParameters, errinfo := 0xFFFF#16, latch := none,
                    irq := s.ctrl.ie })

/-- R257: SHARE_DECODE of a slot that decodes writes IDENT, HDR, HDR2 and RBUF from its fields; of one that does not, it
ends with the error of its check and clears them. -/
def Obligations.ShareDecodeWritesTheFieldsOrClearsThem : Prop :=
  ∀ (k : Byte) (s : State), decode (wordOf 0x51#8 k 0x00#8 0x00#8) = .ok (.shareDecode k) ∧
    (∀ h, s.decodeSlot k.toNat = .ok h → ∃ t, exec (.shareDecode k) s = .next t ∧
      (∀ p < 32, at_ t (0x400 + p) = if p < s.slen k.toNat - 5 then at_ s (0x4000 + 64 * k.toNat + 5 + p) else 0x00#8) ∧
      SameOutside s t 0x400 0x420 ∧
      t = { s with mem := t.mem, ident := h.id,
                   hdr := ⟨BitVec.ofNat 8 h.gt, BitVec.ofNat 8 h.gc, BitVec.ofNat 8 h.gi, BitVec.ofNat 8 h.mt⟩,
                   hdr2 := ⟨BitVec.ofNat 8 h.mi, h.rsv, BitVec.ofNat 8 (s.slen k.toNat - 5)⟩,
                   status := okStatus s .complete, latch := none, irq := s.ctrl.ie }) ∧
    (∀ r, s.decodeSlot k.toNat = .error r → ∃ t, exec (.shareDecode k) s = .next t ∧
      ZeroIn t 0x400 0x420 ∧ SameOutside s t 0x400 0x420 ∧
      t = { s with mem := t.mem, ident := 0x0000#16, hdr := ⟨0x00#8, 0x00#8, 0x00#8, 0x00#8⟩,
                   hdr2 := ⟨0x00#8, 0#4, 0x00#8⟩, status := errStatus s r.err, errinfo := r.info, latch := none,
                   irq := s.ctrl.ie })

/-! ### The hierarchy engine -/

/-- R212, R305: the validation order of SSKR_SPLIT; a rejected split draws nothing and clears SHARE, SLEN, SHARECNT and
IDENT. -/
def Obligations.SskrSplitValidatesInOrder : Prop :=
  ∀ (s : State) (info : BitVec 16),
    let gt := s.splitcfg.gt.toNat
    let gc := s.splitcfg.gc.toNat
    let bad := fun g => (s.groupSpec g).mt.toNat < 1 ∨ (s.groupSpec g).mc.toNat < (s.groupSpec g).mt.toNat ∨
      16 < (s.groupSpec g).mc.toNat
    (((lenOK s.len = false ∨ gc < 1 ∨ 16 < gc ∨ gt < 1 ∨ gc < gt) ∧ info = 0xFFFF#16) ∨
      (lenOK s.len = true ∧ 1 ≤ gc ∧ gc ≤ 16 ∧ 1 ≤ gt ∧ gt ≤ gc ∧
        ∃ g < gc, bad g ∧ (∀ h < g, ¬ bad h) ∧ info = BitVec.ofNat 16 (0x1000 + g))) →
    ∃ t, exec .sskrSplit s = .next t ∧ ZeroIn t 0x800 0x900 ∧ ZeroIn t 0x4000 0x8000 ∧
      (∀ a, a < 0x800 ∨ (0x900 ≤ a ∧ a < 0x4000) ∨ 0x8000 ≤ a → at_ t a = at_ s a) ∧
      t = { s with mem := t.mem, sharecnt := 0x0000#16, ident := 0x0000#16,
                   status := errStatus s .invalidParameters, errinfo := info, latch := none, irq := s.ctrl.ie }

/-- R214 to R216, with R213 and R217, which the spec marks derived: SSKR_SPLIT of a legal specification, with a port that
delivers the bytes of R217, stores every share in group-major order with its header. Both levels are the
digest-mode splits that the drawn bytes give, in the order of R163 and R214: the identifier, the outer level, then the
groups ascending. -/
def Obligations.SskrSplitStoresEveryShare : Prop :=
  ∀ (s : State) (bs : List Byte) (rest : List PortAnswer), SplitLegal s →
    s.port.answers = bs.map PortAnswer.byte ++ rest → bs.length = splitDraws s →
    let N := sharesBefore s s.splitcfg.gc.toNat
    ∃ (t : State) (GS : Nat → List Byte) (M : Nat → Nat → List Byte), exec .sskrSplit s = .next t ∧
      IsDigestSplit s.splitcfg.gt.toNat s.splitcfg.gc.toNat s.len (s.secretVec s.len) (bs.drop 2) GS ∧
      (∀ g < s.splitcfg.gc.toNat,
        IsDigestSplit (s.groupSpec g).mt.toNat (s.groupSpec g).mc.toNat s.len (GS g) (bs.drop (drawsBefore s g)) (M g)) ∧
      (∀ g < s.splitcfg.gc.toNat, ∀ m < (s.groupSpec g).mc.toNat,
        let k := sharesBefore s g + m
        (at_ t (0x800 + k)).toNat = 5 + s.len ∧
        t.mem.readBytes (0x4000 + 64 * k) 64 =
          padTo 64 (encodeShare t.ident s.splitcfg.gt.toNat s.splitcfg.gc.toNat g (s.groupSpec g).mt.toNat m (M g m))) ∧
      ZeroIn t (0x800 + N) 0x900 ∧ ZeroIn t (0x4000 + 64 * N) 0x8000 ∧
      (∀ a, a < 0x800 ∨ (0x900 ≤ a ∧ a < 0x4000) ∨ 0x8000 ≤ a → at_ t a = at_ s a) ∧
      t = { s with mem := t.mem, sharecnt := BitVec.ofNat 16 N,
                   ident := bs.getD 0 0x00#8 ++ bs.getD 1 0x00#8,
                   port := ⟨rest, s.port.freeDraws⟩, rngcnt := s.rngcnt + BitVec.ofNat 32 (splitDraws s),
                   status := okStatus s .complete, latch := none, irq := s.ctrl.ie }

/-- R215, R304, R305: SSKR_SPLIT of a legal specification with a port that refuses a draw before the last one of R217 ends
with RandomnessUnavailable(0xFFFF); no share is left, and RNGCNT counts the bytes delivered before. -/
def Obligations.SskrSplitLeavesNothingWhenThePortRefuses : Prop :=
  ∀ (s : State) (bs : List Byte) (rest : List PortAnswer), SplitLegal s →
    s.port.answers = bs.map PortAnswer.byte ++ .unavailable :: rest → bs.length < splitDraws s →
    ∃ t, exec .sskrSplit s = .next t ∧ ZeroIn t 0x800 0x900 ∧ ZeroIn t 0x4000 0x8000 ∧
      (∀ a, a < 0x800 ∨ (0x900 ≤ a ∧ a < 0x4000) ∨ 0x8000 ≤ a → at_ t a = at_ s a) ∧
      t = { s with mem := t.mem, sharecnt := 0x0000#16, ident := 0x0000#16, port := ⟨rest, s.port.freeDraws⟩,
                   rngcnt := s.rngcnt + BitVec.ofNat 32 bs.length, status := errStatus s .randomnessUnavailable,
                   errinfo := 0xFFFF#16, latch := none, irq := s.ctrl.ie }

/-- R221 to R225: the first failing phase of SSKR_RECOMBINE decides the error: the count, then the first slot that does
not decode, another identifier, other parameters, another member threshold within a group, a conflicting duplicate. -/
def Obligations.SskrRecombineReportsTheFirstFailingPhase : Prop :=
  ∀ (s : State) (hs : List DecodedShare) (h0 : DecodedShare) (e : ErrCode) (info : BitVec 16),
    let N := s.sharecnt.toNat
    let sameGroup := fun k => hs.find? fun j => j.gi == (hs.getD k h0).gi
    let twin := fun k => hs.find? fun j => j.gi == (hs.getD k h0).gi && j.mi == (hs.getD k h0).mi
    let mixed := fun k => (hs.getD k h0).id ≠ h0.id
    let other := fun k => (hs.getD k h0).payload.length ≠ h0.payload.length ∨ (hs.getD k h0).gt ≠ h0.gt ∨
      (hs.getD k h0).gc ≠ h0.gc
    let otherMt := fun k => ∃ j, sameGroup k = some j ∧ (hs.getD k h0).mt ≠ j.mt
    let conflict := fun k => ∃ j, twin k = some j ∧ (hs.getD k h0).payload ≠ j.payload
    let decoded := hs.length = N ∧ hs.head? = some h0 ∧ ∀ k < N, s.decodeSlot k = .ok (hs.getD k h0)
    let first := fun (bad : Nat → Prop) => ∃ k < N, bad k ∧ (∀ j < k, ¬ bad j) ∧ info = BitVec.ofNat 16 k
    let never := fun (bad : Nat → Prop) => ∀ k < N, ¬ bad k
    ((N = 0 ∧ e = .insufficientShares ∧ info = 0xFFFF#16) ∨
      (256 < N ∧ e = .invalidParameters ∧ info = 0xFFFF#16) ∨
      (1 ≤ N ∧ N ≤ 256 ∧
        ((∃ k < N, s.decodeSlot k = .error ⟨e, info⟩ ∧ ∀ j < k, ∃ h, s.decodeSlot j = .ok h) ∨
          (decoded ∧
            ((first mixed ∧ e = .mixedShareSets) ∨
              (never mixed ∧
                ((first other ∧ e = .inconsistentParameters) ∨
                  (never other ∧
                    ((first otherMt ∧ e = .inconsistentParameters) ∨
                      (never otherMt ∧ first conflict ∧ e = .duplicateShare)))))))))) →
    ∃ t, exec .sskrRecombine s = .next t ∧ ZeroIn t 0x100 0x120 ∧ SameOutside s t 0x100 0x120 ∧
      t = { s with mem := t.mem, status := errStatus s e, errinfo := info, latch := none, irq := s.ctrl.ie }

/-- R226 to R231: SSKR_RECOMBINE of a consistent share set with enough qualifying groups, whose levels recombine, stores
the secret, its length and the identifier, and is VERIFIED. -/
def Obligations.SskrRecombineStoresTheRecoveredSecret : Prop :=
  ∀ (s : State) (hs : List DecodedShare) (h0 : DecodedShare) (S : List Byte),
    1 ≤ s.sharecnt.toNat → s.sharecnt.toNat ≤ 256 → hs.length = s.sharecnt.toNat → hs.head? = some h0 →
    (∀ k < s.sharecnt.toNat, s.decodeSlot k = .ok (hs.getD k h0)) →
    (∀ h ∈ hs, h.id = h0.id ∧ h.payload.length = h0.payload.length ∧ h.gt = h0.gt ∧ h.gc = h0.gc) →
    (∀ h ∈ hs, ∀ j ∈ hs, h.gi = j.gi → h.mt = j.mt ∧ (h.mi = j.mi → h.payload = j.payload)) →
    h0.gt ≤ (qualifyingGroups (keptShares hs)).length →
    recombineKept hwConfig (keptShares hs) h0.payload.length h0.gt = .ok S →
    ∃ t, exec .sskrRecombine s = .next t ∧ S.length = h0.payload.length ∧
      (∀ p < 32, at_ t (0x100 + p) = S.getD p 0x00#8) ∧ SameOutside s t 0x100 0x120 ∧
      t = { s with mem := t.mem, ctrl := ⟨s.ctrl.strict, s.ctrl.ie, BitVec.ofNat 6 h0.payload.length⟩,
                   ident := h0.id, status := okStatus s .verified, latch := none, irq := s.ctrl.ie }

/-- R227 to R229: with a consistent share set, too few qualifying groups are InsufficientShares(0x2000), the first
selected group whose digest share does not verify is ChecksumMismatch(0x1000 + g), and an outer digest share that does
not verify is ChecksumMismatch(0x2000). -/
def Obligations.SskrRecombineReportsWeakOrCorruptGroups : Prop :=
  ∀ (s : State) (hs : List DecodedShare) (h0 : DecodedShare) (e : ErrCode) (info : BitVec 16),
    let kept := keptShares hs
    let L := h0.payload.length
    1 ≤ s.sharecnt.toNat → s.sharecnt.toNat ≤ 256 → hs.length = s.sharecnt.toNat → hs.head? = some h0 →
    (∀ k < s.sharecnt.toNat, s.decodeSlot k = .ok (hs.getD k h0)) →
    (∀ h ∈ hs, h.id = h0.id ∧ h.payload.length = L ∧ h.gt = h0.gt ∧ h.gc = h0.gc) →
    (∀ h ∈ hs, ∀ j ∈ hs, h.gi = j.gi → h.mt = j.mt ∧ (h.mi = j.mi → h.payload = j.payload)) →
    (((qualifyingGroups kept).length < h0.gt ∧ e = .insufficientShares ∧ info = 0x2000#16) ∨
      (h0.gt ≤ (qualifyingGroups kept).length ∧ ∃ q < h0.gt,
        let g := (qualifyingGroups kept).getD q 0
        let Q := fun mt => ((groupMembers kept g).map memberPoint).take mt
        (∃ mt, groupThreshold kept g = some mt ∧ 2 ≤ mt ∧
          verifyDigestShare hwConfig (interp (Q mt) 0x00#8 L) (interp (Q mt) 0xFE#8 L) = false) ∧
        (∀ q' < q, ∃ G, recombineGroup hwConfig kept L ((qualifyingGroups kept).getD q' 0) = .ok G) ∧
        e = .checksumMismatch ∧ info = BitVec.ofNat 16 (0x1000 + g)) ∨
      (2 ≤ h0.gt ∧ h0.gt ≤ (qualifyingGroups kept).length ∧ ∃ GS : List (List Byte),
        let P : List Point := (List.range h0.gt).map fun q =>
          ⟨BitVec.ofNat 8 ((qualifyingGroups kept).getD q 0 + 1), GS.getD q []⟩
        (∀ q < h0.gt, recombineGroup hwConfig kept L ((qualifyingGroups kept).getD q 0) = .ok (GS.getD q [])) ∧
        verifyDigestShare hwConfig (interp P 0x00#8 L) (interp P 0xFE#8 L) = false ∧
        e = .checksumMismatch ∧ info = 0x2000#16)) →
    ∃ t, exec .sskrRecombine s = .next t ∧ ZeroIn t 0x100 0x120 ∧ SameOutside s t 0x100 0x120 ∧
      t = { s with mem := t.mem, status := errStatus s e, errinfo := info, latch := none, irq := s.ctrl.ie }

/-- R230: SSKR_RECOMBINE never writes SHARE, SLEN or SHARECNT, on success or failure. -/
def Obligations.SskrRecombinePreservesItsInputs : Prop :=
  ∀ s t : State, exec .sskrRecombine s = .next t →
    t.sharecnt = s.sharecnt ∧ (∀ k < 256, at_ t (0x800 + k) = at_ s (0x800 + k)) ∧
    ∀ k < 256, ∀ j < 64, at_ t (0x4000 + 64 * k + j) = at_ s (0x4000 + 64 * k + j)

/-- R234, a rule the spec marks derived: recombining shares of a legal split, in any order and with repeats, gives back
the secret and the identifier when enough groups have enough members among them, and InsufficientShares(0x2000)
otherwise. -/
def Obligations.SskrRecombineInvertsSplit : Prop :=
  ∀ (cfg : Config) (s : State) (d d' : Drawing) (o : SplitOutput) (ks : List Nat),
    cfg.Legal → SplitLegal s → sskrSplit cfg s d = .drawn o d' → ks ≠ [] → (∀ k ∈ ks, k < o.shares.length) →
    recombineShares cfg (presented o s.len ks) =
      if s.splitcfg.gt.toNat ≤ groupsPresent s ks then .ok ⟨s.secretVec s.len, o.id⟩
      else .error ⟨.insufficientShares, 0x2000#16⟩

/-- R234, a rule the spec marks derived, of the command itself: SSKR_RECOMBINE of slots that hold shares of a legal split,
in any order and with repeats, in either decoding mode, stores the split's secret, its length and its identifier when
enough groups have enough members among them, and ends with InsufficientShares(0x2000) otherwise. -/
def Obligations.SskrRecombineCommandInvertsSplit : Prop :=
  ∀ (s u : State) (d d' : Drawing) (o : SplitOutput) (ks : List Nat),
    SplitLegal s → sskrSplit hwConfig s d = .drawn o d' → ks ≠ [] → ks.length ≤ 256 → (∀ k ∈ ks, k < o.shares.length) →
    u.sharecnt.toNat = ks.length →
    (∀ j < ks.length, u.slen j = 5 + s.len ∧
      ∀ p < 5 + s.len, at_ u (0x4000 + 64 * j + p) = (o.shares.getD (ks.getD j 0) []).getD p 0x00#8) →
    ∃ t, exec .sskrRecombine u = .next t ∧ SameOutside u t 0x100 0x120 ∧
      if s.splitcfg.gt.toNat ≤ groupsPresent s ks then
        (∀ p < 32, at_ t (0x100 + p) = if p < s.len then at_ s (0x100 + p) else 0x00#8) ∧
        t = { u with mem := t.mem, ctrl := ⟨u.ctrl.strict, u.ctrl.ie, BitVec.ofNat 6 s.len⟩, ident := o.id,
                     status := okStatus u .verified, latch := none, irq := u.ctrl.ie }
      else
        ZeroIn t 0x100 0x120 ∧
        t = { u with mem := t.mem, status := errStatus u .insufficientShares, errinfo := 0x2000#16, latch := none,
                     irq := u.ctrl.ie }

/-! ### Control -/

/-- R280: NOP has no effect beyond the command frame; from its CMD write to its completion, it clears ERRCODE, ERRINFO
and RNGCNT (and starts `drawn`, the model's own record, at 0, log entry 8). -/
def Obligations.NopOnlyCompletes : Prop :=
  decode 0x00000000#32 = .ok .nop ∧
  (∀ s : State, exec .nop s = .next { s with status := okStatus s .complete, latch := none, irq := s.ctrl.ie }) ∧
  (∀ s : State, s.status.busy = false → s.schedule = [] →
    step (s.busWrite 0x00C#16 .word 0x00000000#32) =
      .next { s with status := ⟨false, true, .complete, none, 0x00#8⟩, errinfo := 0xFFFF#16, rngcnt := 0#32,
                     latch := none, irq := s.ctrl.ie, drawn := 0 })

/-- R281: ZEROIZE writes every buffer byte, SHARECNT, IDENT, HDR, HDR2 and RESULT to 0 and keeps CTRL, SPLITCFG and
GSPEC. In a state that meets the invariant, the state after a pending ZEROIZE is the reset state but for CTRL, SPLITCFG,
GSPEC, STATUS and IRQ (and the model's own fields, log entries 1 to 4 and 8). -/
def Obligations.ZeroizeClearsBuffersAndKeepsConfiguration : Prop :=
  decode 0x000000FF#32 = .ok .zeroize ∧
  (∀ s : State, ∃ t, exec .zeroize s = .next t ∧
    (∀ a, isOutputByte .zeroize a → at_ t a = 0x00#8) ∧ (∀ a, ¬ isOutputByte .zeroize a → at_ t a = at_ s a) ∧
    t = { s with mem := t.mem, sharecnt := 0x0000#16, ident := 0x0000#16, hdr := ⟨0x00#8, 0x00#8, 0x00#8, 0x00#8⟩,
                 hdr2 := ⟨0x00#8, 0#4, 0x00#8⟩, result := 0x00#8, status := okStatus s .complete, latch := none,
                 irq := s.ctrl.ie }) ∧
  (∀ s : State, s.Inv → s.latch = some 0x000000FF#32 → s.schedule = [] →
    step s = .next { State.reset with
      ctrl := s.ctrl, splitcfg := s.splitcfg, gspec := s.gspec, status := ⟨false, true, .complete, none, 0xFF#8⟩,
      irq := s.ctrl.ie, port := s.port, inputs := s.inputs, schedule := [], responses := s.responses,
      observations := s.observations, drawn := s.drawn })
end

