-- ==== Sys2Proof/Laws/Buffers.lean ====
section
/-! SUPPORT. What the commands' writes to the buffers do, said once: the byte each of them leaves at every offset, and that
every one keeps the memory canonical and within the buffers. -/

namespace Sys2Proof.Machine

open Sys2Proof

/-! ### Reading after each write -/

theorem Buffer.holds_iff (b : Buffer) (a n : Nat) : b.holds a n = true ↔ b.base ≤ a ∧ a + n ≤ b.base + b.size := by
  simp [Buffer.holds]

/-- The offsets of the buffers (R61). -/
theorem isBufferByte_iff (a : Nat) : isBufferByte a = true ↔
    (0x100 ≤ a ∧ a < 0x120) ∨ (0x180 ≤ a ∧ a < 0x190) ∨ (0x200 ≤ a ∧ a < 0x420) ∨ (0x800 ≤ a ∧ a < 0x900) ∨
      (0x4000 ≤ a ∧ a < 0x8000) := by
  simp only [isBufferByte, Buffer.all, List.any_cons, List.any_nil, Buffer.holds_iff, Buffer.base, Buffer.size,
    Bool.or_eq_true, Bool.or_false]
  omega

/-- The byte at every offset after a vector of at most 32 bytes, followed by zeros, is stored (R36, R39). -/
theorem Memory.read_writeBytes_padTo (m : Memory) (base : Nat) (v : List Byte) (a : Nat) (h : v.length ≤ 32) :
    (m.writeBytes base (padTo 32 v)).read a = if base ≤ a ∧ a < base + 32 then byteAt v (a - base) else m.read a := by
  rw [Memory.read_writeBytes, byteAt_padTo, padTo_length, max_eq_left h]

/-- The byte at every offset after ZEROIZE (R281). -/
theorem read_zeroized (m : Memory) (a : Nat) :
    (Buffer.all.foldl Memory.clearBuffer m).read a = if isBufferByte a then 0x00#8 else m.read a := by
  rw [if_congr (isBufferByte_iff a) rfl rfl]
  simp only [Buffer.all, List.foldl, Memory.clearBuffer, Memory.read_clear, Buffer.base, Buffer.size]
  (repeat' split) <;> first | rfl | omega

/-- The byte at every offset after a share is stored in a slot (R41, R215, R256). -/
theorem Memory.read_writeSlot (m : Memory) (k : Nat) (V : List Byte) (a : Nat) (hV : V.length ≤ 64) :
    (m.writeSlot k V).read a =
      if a = 0x800 + k then BitVec.ofNat 8 V.length
      else if 0x4000 + 64 * k ≤ a ∧ a < 0x4000 + 64 * k + 64 then byteAt V (a - (0x4000 + 64 * k))
      else m.read a := by
  unfold Memory.writeSlot
  rw [Memory.read_writeBytes, Memory.read_writeBytes]
  simp only [byteAt_padTo, padTo_length, slenAddr, shareAddr, Buffer.base, Config.slotBytes, List.length_cons,
    List.length_nil]
  rw [max_eq_left hV]
  by_cases h1 : a = 0x800 + k
  · subst h1; simp [byteAt]
  · rw [if_neg (by omega), if_neg h1]

/-- The byte at every offset after shares are stored in the slots from `k` on (R215). -/
theorem read_storeShares (W : List (List Byte)) (k : Nat) (m : Memory) (a : Nat) (hW : ∀ w ∈ W, w.length ≤ 64)
    (hk : k + W.length ≤ 256) :
    (storeShares k W m).read a =
      if 0x800 + k ≤ a ∧ a < 0x800 + k + W.length then BitVec.ofNat 8 (W.getD (a - (0x800 + k)) []).length
      else if 0x4000 + 64 * k ≤ a ∧ a < 0x4000 + 64 * (k + W.length) then
        byteAt (W.getD ((a - (0x4000 + 64 * k)) / 64) []) ((a - 0x4000) % 64)
      else m.read a := by
  induction W generalizing k m with
  | nil => simp only [storeShares, List.length_nil]; rw [if_neg (by omega), if_neg (by omega)]
  | cons V W ih =>
    simp only [List.length_cons] at hk
    unfold storeShares
    rw [ih (k + 1) _ (fun w hw => hW w (by simp [hw])) (by omega),
      Memory.read_writeSlot _ _ _ _ (hW V (by simp))]
    simp only [List.length_cons]
    by_cases h1 : 0x800 + (k + 1) ≤ a ∧ a < 0x800 + (k + 1) + W.length
    · rw [if_pos h1, if_pos (by omega), show a - (0x800 + k) = (a - (0x800 + (k + 1))) + 1 by omega]
      simp
    · rw [if_neg h1]
      by_cases h2 : 0x4000 + 64 * (k + 1) ≤ a ∧ a < 0x4000 + 64 * (k + 1 + W.length)
      · rw [if_pos h2, if_neg (by omega), if_pos (by omega),
          show (a - (0x4000 + 64 * k)) / 64 = (a - (0x4000 + 64 * (k + 1))) / 64 + 1 by omega]
        simp
      · rw [if_neg h2]
        by_cases h3 : a = 0x800 + k
        · subst h3; simp
        · rw [if_neg h3]
          by_cases h4 : 0x4000 + 64 * k ≤ a ∧ a < 0x4000 + 64 * k + 64
          · rw [if_pos h4, if_neg (by omega), if_pos (by omega), show (a - (0x4000 + 64 * k)) / 64 = 0 by omega,
              show a - (0x4000 + 64 * k) = (a - 0x4000) % 64 by omega]
            simp
          · rw [if_neg h4, if_neg (by omega), if_neg (by omega)]

/-- Rows of equal length laid end to end, read by row and column. -/
theorem byteAt_flatMap_range (f : Nat → List Byte) (n w i p : Nat) (h : ∀ i < n, (f i).length = w) (hi : i < n)
    (hp : p < w) : byteAt ((List.range n).flatMap f) (w * i + p) = byteAt (f i) p := by
  have hl : ∀ m ≤ n, ((List.range m).flatMap f).length = w * m := by
    intro m hm
    induction m with
    | zero => simp
    | succ m ih =>
      rw [List.range_succ, List.flatMap_append]
      simp [ih (by omega), h m (by omega), Nat.mul_succ]
  induction n with
  | zero => omega
  | succ n ih =>
    rw [List.range_succ, List.flatMap_append]
    unfold byteAt at *
    have hn := hl n (by omega)
    by_cases e : i < n
    · have hlt : w * i + p < w * n :=
        Nat.lt_of_lt_of_le (by rw [Nat.mul_succ]; omega) (Nat.mul_le_mul_left w (show i + 1 ≤ n from e))
      rw [List.getD_append _ _ _ _ (by rw [hn]; exact hlt)]
      exact ih (fun i hi => h i (by omega)) e fun m hm => hl m (by omega)
    · obtain rfl : i = n := by omega
      rw [List.getD_append_right _ _ _ _ (by omega), hn]
      simp

/-- PY as SHAMIR_SPLIT writes it has 512 bytes (R38, R166). -/
theorem pointRows_length (L c : Nat) (Y : List (List Byte)) (hL : L ≤ 32) :
    ((List.range 16).flatMap fun i => padTo 32 (if i < c then (Y.getD i []).take L else [])).length = 512 := by
  have : ∀ i ∈ List.range 16, (padTo 32 (if i < c then (Y.getD i []).take L else [])).length = 32 := by
    intro i _
    rw [padTo_length]
    split
    · simp; omega
    · simp
  rw [List.length_flatMap, List.map_congr_left this]
  rfl

/-- The byte at every offset after SHAMIR_SPLIT's points are stored (R166). -/
theorem read_writePoints (s : State) (L c : Nat) (Y : List (List Byte)) (a : Nat) (hL : L ≤ 32) :
    (writePoints L c Y s).mem.read a =
      if 0x180 ≤ a ∧ a < 0x190 then if a - 0x180 < c then BitVec.ofNat 8 (a - 0x180 + 1) else 0x00#8
      else if 0x200 ≤ a ∧ a < 0x400 then
        if (a - 0x200) / 32 < c then byteAt ((Y.getD ((a - 0x200) / 32) []).take L) ((a - 0x200) % 32) else 0x00#8
      else s.mem.read a := by
  unfold writePoints
  simp only
  rw [Memory.read_writeBytes, pointRows_length _ _ _ hL, Memory.read_writeBytes]
  simp only [Buffer.base, List.length_map, List.length_range]
  by_cases h1 : 0x180 ≤ a ∧ a < 0x190
  · have : a - 0x180 < 16 := by omega
    rw [if_neg (by omega), if_pos (by omega), if_pos h1]
    simp [byteAt, this, shareX]
  · rw [if_neg (by omega : ¬ (384 ≤ a ∧ a < 384 + 16)), if_neg h1]
    by_cases h2 : 0x200 ≤ a ∧ a < 0x400
    · have hrow : ∀ i < 16, (padTo 32 (if i < c then (Y.getD i []).take L else [])).length = 32 := by
        intro i _
        rw [padTo_length]
        split
        · simp; omega
        · simp
      have := byteAt_flatMap_range _ 16 32 ((a - 0x200) / 32) ((a - 0x200) % 32) hrow (by omega) (by omega)
      rw [show 32 * ((a - 0x200) / 32) + (a - 0x200) % 32 = a - 512 by omega] at this
      rw [if_pos (by omega), if_pos h2, this, byteAt_padTo]
      split <;> simp [byteAt]
    · rw [if_neg (by omega), if_neg h2]

/-! ### The canonical form -/

/-- The memory is canonical and lists only buffer bytes. -/
abbrev Memory.Good (m : Memory) : Prop := m.wf = true ∧ m.inBuffers = true

theorem Memory.good_clear {m : Memory} (base n : Nat) (h : m.Good) : (m.clear base n).Good :=
  ⟨Memory.wf_clear _ _ _ h.1, Memory.inBuffers_clear _ _ _ h.2⟩

theorem Memory.good_clearBuffer {m : Memory} (b : Buffer) (h : m.Good) : (m.clearBuffer b).Good :=
  Memory.good_clear _ _ h

/-- ZEROIZE keeps the canonical form. -/
theorem good_zeroized {m : Memory} (h : m.Good) : (Buffer.all.foldl Memory.clearBuffer m).Good := by
  unfold Buffer.all
  iterate 6 rw [List.foldl_cons]
  exact ((((((h |> Memory.good_clearBuffer .secret) |> Memory.good_clearBuffer .px) |> Memory.good_clearBuffer .py) |>
    Memory.good_clearBuffer .rbuf) |> Memory.good_clearBuffer .slen) |> Memory.good_clearBuffer .share)

theorem Memory.good_writeBytes {m : Memory} (base : Nat) (bs : List Byte) (h : m.Good)
    (hb : ∀ a, base ≤ a → a < base + bs.length → isBufferByte a = true) : (m.writeBytes base bs).Good :=
  ⟨Memory.wf_writeBytes _ _ _ h.1, Memory.inBuffers_writeBytes _ _ _ h.2 hb⟩

/-- Storing a vector with its zeros in SECRET or RBUF keeps the canonical form. -/
theorem Memory.good_writeBytes_padTo {m : Memory} (b : Buffer) (v : List Byte) (h : m.Good) (hv : v.length ≤ 32)
    (hb : b = .secret ∨ b = .rbuf) : (m.writeBytes b.base (padTo 32 v)).Good := by
  refine Memory.good_writeBytes _ _ h ?_
  intro a h1 h2
  rw [padTo_length, max_eq_left hv] at h2
  rw [isBufferByte_iff]
  rcases hb with rfl | rfl <;> simp only [Buffer.base] at h1 h2 <;> omega

/-- Storing a share in a slot keeps the canonical form. -/
theorem Memory.good_writeSlot {m : Memory} (k : Nat) (V : List Byte) (h : m.Good) (hk : k < 256)
    (hV : V.length ≤ 64) : (m.writeSlot k V).Good := by
  unfold Memory.writeSlot
  refine Memory.good_writeBytes _ _ (Memory.good_writeBytes _ _ h ?_) ?_
  · intro a h1 h2
    rw [padTo_length, Config.slotBytes, max_eq_left hV] at h2
    rw [isBufferByte_iff]
    simp only [shareAddr, Buffer.base, Config.slotBytes] at h1 h2
    omega
  · intro a h1 h2
    rw [isBufferByte_iff]
    simp only [slenAddr, Buffer.base, List.length_cons, List.length_nil] at h1 h2
    omega

/-- Storing shares in slots keeps the canonical form. -/
theorem good_storeShares {m : Memory} (W : List (List Byte)) (k : Nat) (h : m.Good) (hW : ∀ w ∈ W, w.length ≤ 64)
    (hk : k + W.length ≤ 256) : (storeShares k W m).Good := by
  induction W generalizing k m with
  | nil => exact h
  | cons V W ih =>
    simp only [List.length_cons] at hk
    exact ih (k + 1) (Memory.good_writeSlot k V h (by omega) (hW V (by simp))) (fun w hw => hW w (by simp [hw]))
      (by omega)

/-- Storing SHAMIR_SPLIT's points keeps the canonical form. -/
theorem good_writePoints (s : State) (L c : Nat) (Y : List (List Byte)) (h : s.mem.Good) (hL : L ≤ 32) :
    (writePoints L c Y s).mem.Good := by
  unfold writePoints
  refine Memory.good_writeBytes _ _ (Memory.good_writeBytes _ _ h ?_) ?_
  · intro a h1 h2
    rw [isBufferByte_iff]
    simp only [Buffer.base, List.length_map, List.length_range] at h1 h2
    omega
  · intro a h1 h2
    rw [pointRows_length _ _ _ hL] at h2
    rw [isBufferByte_iff]
    simp only [Buffer.base] at h1 h2
    omega

/-- DIGEST_MAKE's write keeps the canonical form. -/
theorem good_writeDigest (s : State) (L : Nat) (D : Vector Byte 4) (h : s.mem.Good) :
    (writeDigest L D.toList s).mem.Good := by
  refine Memory.good_clear _ _ (Memory.good_writeBytes _ _ h ?_)
  intro a h1 h2
  rw [isBufferByte_iff]
  simp only [Buffer.base, Vector.length_toList] at h1 h2
  omega

/-- Every command's failure writes keep the canonical form (R304). -/
theorem good_commandWipe (i : Instr) (s : State) (h : s.mem.Good) : (commandWipe i s).mem.Good := by
  cases i <;>
    first
    | exact h
    | exact Memory.good_clear _ _ h
    | exact Memory.good_clear _ _ (Memory.good_clear _ _ h)

end Sys2Proof.Machine
end

