-- ==== Sys2Proof/Laws/Bus.lean ====
section
/-! SUPPORT. The address map (20_memory.md R61 to R65), said once: which register an offset names, which buffer accesses are
legal, and what a legal access in a state tells of it. -/

namespace Sys2Proof.Machine

open Sys2Proof

theorem Reg.mem_all (r : Reg) : r ∈ Reg.all := by cases r <;> simp [Reg.all]

/-- An offset names exactly the register that lies there. -/
theorem regAt_eq_some (a : Nat) (r : Reg) : regAt a = some r ↔ r.offset = a := by
  constructor
  · intro h
    simpa using List.find?_some h
  · rintro rfl
    have key : ∀ r ∈ Reg.all, regAt r.offset = some r := by decide
    exact key r r.mem_all

/-- The offsets that name a register (R61). -/
theorem regAt_eq_none (a : Nat) : regAt a = none ↔ ¬ (a % 4 = 0 ∧ (a < 0x30 ∨ (0x40 ≤ a ∧ a < 0x80))) := by
  rw [← not_iff_not, not_not, ← ne_eq, Option.ne_none_iff_exists']
  constructor
  · rintro ⟨r, h⟩
    rw [regAt_eq_some] at h
    subst h
    cases r with
    | gspec g => simp only [Reg.offset]; omega
    | _ => simp [Reg.offset]
  · intro h
    have key : ∀ a < 0x80, (a % 4 = 0 ∧ (a < 0x30 ∨ (0x40 ≤ a ∧ a < 0x80))) → ∃ r ∈ Reg.all, r.offset = a := by decide
    obtain ⟨r, -, hr⟩ := key a (by omega) h
    exact ⟨r, (regAt_eq_some a r).mpr hr⟩

/-- The legal buffer accesses (R62, R65). -/
theorem bufferAccessLegal_iff (a n : Nat) : bufferAccessLegal a n = true ↔
    a % n = 0 ∧ ((0x0100 ≤ a ∧ a + n ≤ 0x0120) ∨ (0x0180 ≤ a ∧ a + n ≤ 0x0190) ∨ (0x0200 ≤ a ∧ a + n ≤ 0x0400) ∨
      (0x0400 ≤ a ∧ a + n ≤ 0x0420) ∨ (0x0800 ≤ a ∧ a + n ≤ 0x0900) ∨ (0x4000 ≤ a ∧ a + n ≤ 0x8000)) := by
  simp only [bufferAccessLegal, Buffer.all, List.any_cons, List.any_nil, Buffer.holds_iff, Buffer.base, Buffer.size,
    Bool.or_eq_true, Bool.and_eq_true, Bool.or_false, beq_iff_eq]

/-- Every byte of a legal buffer access is a buffer byte. -/
theorem isBufferByte_of_legal {a n x : Nat} (h : bufferAccessLegal a n = true) (h1 : a ≤ x) (h2 : x < a + n) :
    isBufferByte x = true := by
  rw [bufferAccessLegal_iff] at h
  rw [isBufferByte_iff]
  omega

/-- While BUSY = 0 the target is that of the address map. -/
theorem State.target_idle (s : State) (isWrite : Bool) (addr : BitVec 16) (w : Width) (h : s.status.busy = false) :
    s.target isWrite addr w = accessTarget addr w := by
  unfold State.target
  rw [h]
  cases accessTarget addr w <;> rfl

/-- An access reaches a buffer only while BUSY = 0, and then it is a legal buffer access (R62, R65, R66). -/
theorem State.target_buffer {s : State} {isWrite : Bool} {addr : BitVec 16} {w : Width} {a n : Nat}
    (h : s.target isWrite addr w = some (.buffer a n)) :
    s.status.busy = false ∧ a = addr.toNat ∧ n = w.bytes ∧ bufferAccessLegal a n = true := by
  unfold State.target at h
  split at h
  · rename_i t ht
    split at h
    · cases h
    · rename_i hb
      cases h
      refine ⟨by simpa [acceptedWhileBusy] using hb, ?_⟩
      unfold accessTarget at ht
      split at ht
      · split at ht <;> cases ht
      · split at ht
        · rename_i hl
          cases ht
          exact ⟨rfl, rfl, hl⟩
        · cases ht
  · cases h

/-- An access reaches a register only as a word at its offset; while BUSY = 1 only as R66 allows. -/
theorem State.target_register {s : State} {isWrite : Bool} {addr : BitVec 16} {w : Width} {r : Reg}
    (h : s.target isWrite addr w = some (.register r)) :
    w = .word ∧ r.offset = addr.toNat ∧ (s.status.busy = true → acceptedWhileBusy isWrite (.register r) = true) := by
  unfold State.target at h
  split at h
  · rename_i t ht
    split at h
    · cases h
    · rename_i hb
      cases h
      unfold accessTarget at ht
      split at ht
      · rename_i r' hr
        split at ht
        · rename_i hw
          cases ht
          exact ⟨hw, (regAt_eq_some _ _).mp hr, fun hbusy => by simpa [hbusy] using hb⟩
        · cases ht
      · split at ht <;> cases ht
  · cases h

end Sys2Proof.Machine
end

