-- ==== Sys2Proof/Laws/Draws.lean ====
section
/-! SUPPORT. Draws from the random-byte port (10_state.md R45), said once: from listed answers, from a list that ends in a
refusal, and from a port that is only known to answer. -/

namespace Sys2Proof.Machine

open Sys2Proof

/-! ### Listed answers -/

/-- Drawing a vector takes the first listed bytes and leaves the rest. -/
theorem drawVector_prefix (m : Nat) (bs : List Byte) (rest : List PortAnswer) (n q : Nat) (h : m ≤ bs.length) :
    drawVector m ⟨⟨bs.map PortAnswer.byte ++ rest, n⟩, q⟩ =
      .drawn (bs.take m) ⟨⟨(bs.drop m).map PortAnswer.byte ++ rest, n⟩, q + m⟩ := by
  have := drawVector_listed (bs.take m) ((bs.drop m).map PortAnswer.byte ++ rest) n q
  rw [← List.append_assoc, ← List.map_append, List.take_append_drop] at this
  simpa [h] using this

/-- Drawing vectors cuts the listed bytes into rows (R161). -/
theorem drawVectors_listed (k m : Nat) (bs : List Byte) (rest : List PortAnswer) (n q : Nat)
    (h : bs.length = k * m) :
    drawVectors k m ⟨⟨bs.map PortAnswer.byte ++ rest, n⟩, q⟩ =
      .drawn ((List.range k).map fun i => (bs.drop (i * m)).take m) ⟨⟨rest, n⟩, q + bs.length⟩ := by
  induction k generalizing bs q with
  | zero =>
    obtain rfl : bs = [] := by simpa using h
    rfl
  | succ k ih =>
    have hm : m ≤ bs.length := by rw [h, Nat.succ_mul]; omega
    unfold drawVectors
    rw [drawVector_prefix _ _ _ _ _ hm, DrawResult.andThen_drawn, ih _ _ (by simp [h, Nat.succ_mul]),
      DrawResult.andThen_drawn, List.range_succ_eq_map]
    simp only [List.map_cons, List.map_map, Nat.zero_mul, List.drop_zero, List.length_drop]
    congr 2
    · congr 1
      funext i
      simp [Function.comp, Nat.succ_mul, add_comm]
    · omega

/-! ### A refused draw -/

/-- A refusal within a vector ends the drawing; the bytes before it are counted (R32). -/
theorem drawVector_refused (m : Nat) (bs : List Byte) (rest : List PortAnswer) (n q : Nat) (h : bs.length < m) :
    drawVector m ⟨⟨bs.map PortAnswer.byte ++ .unavailable :: rest, n⟩, q⟩ =
      .unavailable ⟨⟨rest, n⟩, q + bs.length⟩ := by
  induction bs generalizing m q with
  | nil =>
    obtain ⟨m, rfl⟩ : ∃ j, m = j + 1 := ⟨m - 1, by simp at h; omega⟩
    rfl
  | cons b bs ih =>
    obtain ⟨m, rfl⟩ : ∃ j, m = j + 1 := ⟨m - 1, by omega⟩
    simp only [List.map_cons, List.cons_append, drawVector, drawByte_listed, DrawResult.andThen_drawn]
    rw [ih m (q + 1) (by simpa using h)]
    simp; omega

/-- A refusal within a sequence of vectors ends the drawing; the bytes before it are counted (R32). -/
theorem drawVectors_refused (k m : Nat) (bs : List Byte) (rest : List PortAnswer) (n q : Nat)
    (h : bs.length < k * m) :
    drawVectors k m ⟨⟨bs.map PortAnswer.byte ++ .unavailable :: rest, n⟩, q⟩ =
      .unavailable ⟨⟨rest, n⟩, q + bs.length⟩ := by
  induction k generalizing bs q with
  | zero => simp at h
  | succ k ih =>
    unfold drawVectors
    by_cases hm : bs.length < m
    · rw [drawVector_refused _ _ _ _ _ hm]; rfl
    · rw [drawVector_prefix _ _ _ _ _ (by omega), DrawResult.andThen_drawn,
        ih _ _ (by simp; rw [Nat.succ_mul] at h; omega)]
      simp; omega

/-! ### An unanswered draw -/

/-- A silence within a vector ends the drawing there (R311). -/
theorem drawVector_unanswered (m : Nat) (bs : List Byte) (rest : List PortAnswer) (n q : Nat) (h : bs.length < m) :
    drawVector m ⟨⟨bs.map PortAnswer.byte ++ .silent :: rest, n⟩, q⟩ = .silent ⟨⟨rest, n⟩, q + bs.length⟩ := by
  induction bs generalizing m q with
  | nil =>
    obtain ⟨m, rfl⟩ : ∃ j, m = j + 1 := ⟨m - 1, by simp at h; omega⟩
    rfl
  | cons b bs ih =>
    obtain ⟨m, rfl⟩ : ∃ j, m = j + 1 := ⟨m - 1, by omega⟩
    simp only [List.map_cons, List.cons_append, drawVector, drawByte_listed, DrawResult.andThen_drawn]
    rw [ih m (q + 1) (by simpa using h)]
    simp; omega

/-- A silence within a sequence of vectors ends the drawing there (R311). -/
theorem drawVectors_unanswered (k m : Nat) (bs : List Byte) (rest : List PortAnswer) (n q : Nat)
    (h : bs.length < k * m) :
    drawVectors k m ⟨⟨bs.map PortAnswer.byte ++ .silent :: rest, n⟩, q⟩ = .silent ⟨⟨rest, n⟩, q + bs.length⟩ := by
  induction k generalizing bs q with
  | zero => simp at h
  | succ k ih =>
    unfold drawVectors
    by_cases hm : bs.length < m
    · rw [drawVector_unanswered _ _ _ _ _ hm]; rfl
    · rw [drawVector_prefix _ _ _ _ _ (by omega), DrawResult.andThen_drawn,
        ih _ _ (by simp; rw [Nat.succ_mul] at h; omega)]
      simp; omega

/-! ### A port that answers -/

theorem Port.next_fst (p : Port) : p.next.1 = p.answerAt 0 := by
  obtain ⟨as, f⟩ := p
  cases as <;> simp [Port.next, Port.answerAt]

theorem Port.answerAt_next (p : Port) (j : Nat) : p.next.2.answerAt j = p.answerAt (j + 1) := by
  obtain ⟨as, f⟩ := p
  cases as with
  | nil => simp [Port.next, Port.answerAt]; congr 1; omega
  | cons a as => simp [Port.next, Port.answerAt]

/-- The port's next `n` draws are answered (R311). -/
abbrev Port.AnswersFor (p : Port) (n : Nat) : Prop := ∀ j < n, p.answerAt j ≠ .silent

theorem Port.AnswersFor.mono {p : Port} {n m : Nat} (h : p.AnswersFor n) (hm : m ≤ n) : p.AnswersFor m :=
  fun j hj => h j (by omega)

/-- A drawing is not silent, and one that delivers leaves a port that answers `n` more draws. -/
abbrev DrawResult.Answered {α : Type} (r : DrawResult α) (n : Nat) : Prop :=
  (∀ d, r ≠ .silent d) ∧ ∀ a d, r = .drawn a d → d.port.AnswersFor n

theorem DrawResult.answered_drawn {α : Type} (a : α) {d : Drawing} {n : Nat} (h : d.port.AnswersFor n) :
    (DrawResult.drawn a d).Answered n := by
  refine ⟨by simp, ?_⟩
  rintro a d h
  cases h
  assumption

theorem DrawResult.answered_andThen {α β : Type} {r : DrawResult α} {f : α → Drawing → DrawResult β} {n m : Nat}
    (h : r.Answered n) (hf : ∀ a d, r = .drawn a d → d.port.AnswersFor n → (f a d).Answered m) :
    (r.andThen f).Answered m := by
  cases r with
  | drawn a d => exact hf a d rfl (h.2 a d rfl)
  | unavailable d => simp [DrawResult.Answered]
  | silent d => exact absurd rfl (h.1 d)

theorem drawByte_answered {d : Drawing} {n : Nat} (h : d.port.AnswersFor (n + 1)) : (drawByte d).Answered n := by
  have h0 := h 0 (by omega)
  rw [← Port.next_fst] at h0
  have hn : d.port.next.2.AnswersFor n := fun j hj => by rw [Port.answerAt_next]; exact h _ (by omega)
  rcases drawByte_cases d with ⟨b, p, hp, hd⟩ | ⟨p, hp, hd⟩ | ⟨p, hp, hd⟩ <;> rw [hd] <;> rw [hp] at h0 hn
  · exact DrawResult.answered_drawn b hn
  · simp [DrawResult.Answered]
  · exact absurd rfl h0

/-- Drawing a vector of m bytes from a port that answers m + n draws. -/
theorem drawVector_answered {m n : Nat} {d : Drawing} (h : d.port.AnswersFor (m + n)) :
    (drawVector m d).Answered n := by
  induction m generalizing d with
  | zero => exact DrawResult.answered_drawn _ (by simpa using h)
  | succ m ih =>
    exact DrawResult.answered_andThen (n := m + n) (drawByte_answered (h.mono (by omega))) fun _ _ _ h1 =>
      DrawResult.answered_andThen (ih h1) fun _ _ _ h2 => DrawResult.answered_drawn _ h2

/-- Drawing k vectors of m bytes from a port that answers k · m + n draws. -/
theorem drawVectors_answered {k m n : Nat} {d : Drawing} (h : d.port.AnswersFor (k * m + n)) :
    (drawVectors k m d).Answered n := by
  induction k generalizing d with
  | zero => exact DrawResult.answered_drawn _ (by simpa using h)
  | succ k ih =>
    exact DrawResult.answered_andThen (n := k * m + n) (drawVector_answered (h.mono (by rw [Nat.succ_mul]; omega)))
      fun _ _ _ h1 => DrawResult.answered_andThen (ih h1) fun _ _ _ h2 => DrawResult.answered_drawn _ h2

end Sys2Proof.Machine
end

