-- ==== Sys2Proof/Laws/Frame.lean ====
section
/-! SUPPORT. What a command's body and its failure writes leave as it was: the lemmas behind every frame statement. -/

namespace Sys2Proof.Machine

open Sys2Proof

/-- What every body that ends normally keeps: the completion frame's fields (R301), the configuration registers and the
host's side of the environment. -/
theorem commandBody_commit_keeps {i : Instr} {s t : State} (h : commandBody i s = .commit t) :
    t.status = s.status ∧ t.errinfo = s.errinfo ∧ t.latch = s.latch ∧ t.irq = s.irq ∧ t.splitcfg = s.splitcfg ∧
      t.gspec = s.gspec ∧ t.ctrl.strict = s.ctrl.strict ∧ t.ctrl.ie = s.ctrl.ie ∧ t.inputs = s.inputs ∧
      t.schedule = s.schedule ∧ t.responses = s.responses ∧ t.observations = s.observations ∧ t.drawn = s.drawn := by
  cases i <;>
    simp only [commandBody, gfInvBody, lagrEvalBody, shamirSplitBody, shamirRecombineBody, digestMakeBody,
      digestVerifyBody, sskrSplitBody, sskrRecombineBody, shareEncodeBody, shareDecodeBody, drawBody] at h <;>
    (repeat' split at h) <;>
    first
    | (cases h; done)
    | (cases h
       simp [writeResult, writeRbuf, writePoints, writeSecret, writeDigest, writeSplit, writeRecovered, writeEncoded,
         writeDecoded, zeroizeState, State.store, State.afterDrawing])

/-- A body that raises has changed nothing but what the port and RNGCNT show of its draws (R303), and without draws
nothing. -/
theorem commandBody_raise_keeps {i : Instr} {s t : State} {r : Raised} (h : commandBody i s = .raise t r) :
    t = s ∨ (r = ⟨.randomnessUnavailable, infoCommand⟩ ∧ (i.opcode = .shamirSplit ∨ i.opcode = .sskrSplit) ∧
      ∃ d, t = s.afterDrawing d) := by
  cases i <;>
    simp only [commandBody, gfInvBody, lagrEvalBody, shamirSplitBody, shamirRecombineBody, digestMakeBody,
      digestVerifyBody, sskrSplitBody, sskrRecombineBody, shareEncodeBody, shareDecodeBody, drawBody] at h <;>
    (repeat' split at h) <;>
    first
    | (cases h; done)
    | (cases h; exact .inl rfl)
    | (cases h; exact .inr ⟨rfl, by simp [Instr.opcode], _, rfl⟩)

/-- What every command's failure writes keep (R304). -/
theorem commandWipe_keeps (i : Instr) (s : State) :
    (commandWipe i s).status = s.status ∧ (commandWipe i s).ctrl = s.ctrl ∧
      (commandWipe i s).splitcfg = s.splitcfg ∧ (commandWipe i s).gspec = s.gspec ∧
      (commandWipe i s).inputs = s.inputs ∧ (commandWipe i s).schedule = s.schedule ∧
      (commandWipe i s).responses = s.responses ∧ (commandWipe i s).observations = s.observations ∧
      (commandWipe i s).port = s.port ∧ (commandWipe i s).rngcnt = s.rngcnt ∧ (commandWipe i s).drawn = s.drawn := by
  cases i <;>
    simp [commandWipe, wipeNothing, wipeResult, writeResult, wipeRbuf, wipePoints, wipeSecret, wipeShares, wipeSlot,
      wipeDecoded, State.clearBuffer]

end Sys2Proof.Machine
end

