-- ==== Sys2Proof/Laws/Shares.lean ====
section
/-! SUPPORT. The Shamir primitive (43_shamir.md R161 to R164), the share codec (46_codec.md R251 to R255) and the phases of
the hierarchy (45_sskr.md R214, R222 to R229), said once: the lengths they deliver, and what each success or failure tells
of its inputs. -/

namespace Sys2Proof.Machine

open Sys2Proof

/-- The first number below `n` with a property. -/
theorem find?_range_eq_some_iff (n : Nat) (p : Nat → Bool) (i : Nat) :
    (List.range n).find? p = some i ↔ i < n ∧ p i = true ∧ ∀ j < i, p j = false := by
  rw [List.find?_range_eq_some]
  simp
  tauto

/-! ### Selection and the Shamir primitive -/

theorem mem_of_mem_selectDistinct (seen : List Byte) (P : List Point) : ∀ q ∈ selectDistinct seen P, q ∈ P := by
  induction P generalizing seen with
  | nil => simp [selectDistinct]
  | cons p P ih =>
    intro q hq
    unfold selectDistinct at hq
    split at hq
    · exact List.mem_cons_of_mem _ (ih _ _ hq)
    · rcases List.mem_cons.mp hq with rfl | hq
      · simp
      · exact List.mem_cons_of_mem _ (ih _ _ hq)

/-- Points with distinct coordinates are all selected. -/
theorem selectDistinct_of_nodup (P : List Point) (seen : List Byte) (h : (P.map Point.x).Nodup)
    (hs : ∀ p ∈ P, p.x ∉ seen) : selectDistinct seen P = P := by
  induction P generalizing seen with
  | nil => rfl
  | cons p P ih =>
    simp only [List.map_cons, List.nodup_cons] at h
    unfold selectDistinct
    rw [if_neg (by simpa using hs p (by simp)), ih _ h.2]
    intro q hq
    simp only [List.mem_cons, not_or]
    exact ⟨fun e => h.1 (by rw [← e]; exact List.mem_map_of_mem hq), hs q (by simp [hq])⟩

theorem head?_selectDistinct (P : List Point) : (selectDistinct [] P).head? = P.head? := by
  cases P <;> simp [selectDistinct]

/-- A split delivers c vectors as long as the secret. -/
theorem shamirSplit_lengths {cfg : Config} {t c : Nat} {dg : Bool} {S : List Byte} {d d' : Drawing}
    {Y : List (List Byte)} (h : shamirSplit cfg t c dg S d = .drawn Y d') :
    Y.length = c ∧ ∀ y ∈ Y, y.length = S.length := by
  have hv : ∀ coeffs, ∀ v ∈ shareVectors coeffs c S.length, v.length = S.length := by simp [shareVectors]
  unfold shamirSplit at h
  split at h
  · cases h; simp
  · split at h
    · obtain ⟨a, d1, -, h⟩ := DrawResult.andThen_eq_drawn h
      obtain ⟨a', d2, -, h⟩ := DrawResult.andThen_eq_drawn h
      cases h
      exact ⟨by simp, hv _⟩
    · obtain ⟨a, d1, -, h⟩ := DrawResult.andThen_eq_drawn h
      cases h
      exact ⟨by simp, hv _⟩

/-- A recombination delivers a vector as long as the points' vectors. -/
theorem shamirRecombine_length {cfg : Config} {t : Nat} {P : List Point} {dg : Bool} {L : Nat} {info : BitVec 16}
    {S : List Byte} (h : shamirRecombine cfg t P dg L info = .ok S) (ht : 1 ≤ t) (hP : ∀ p ∈ P, p.y.length = L) :
    S.length = L := by
  unfold shamirRecombine at h
  split at h
  · cases h
  · rename_i hl
    unfold recombineSelected at h
    split at h
    · rename_i h1
      cases h
      subst h1
      cases hq : selectDistinct [] P with
      | nil => simp [hq] at hl
      | cons q qs =>
        simp only [List.take_succ_cons, List.map_cons, List.headD_cons]
        exact hP q (mem_of_mem_selectDistinct [] P q (by simp [hq]))
    · split at h
      · cases h
      · cases h; simp

/-! ### The share codec -/

@[simp] theorem encodeShare_length (id : BitVec 16) (gt gc gi mt mi : Nat) (P : List Byte) :
    (encodeShare id gt gc gi mt mi P).length = 5 + P.length := by
  simp [encodeShare, shareHeader]; omega

/-- What a successful decoding tells of the slot (R251, R253, R255). -/
theorem State.decodeSlot_ok {s : State} {k : Nat} {h : DecodedShare} (hd : s.decodeSlot k = .ok h) :
    h = readShareFields (s.shareSlot k) (s.slen k) k ∧ h.payload.length = s.slen k - 5 ∧ 21 ≤ s.slen k ∧
      s.slen k ≤ 37 ∧ (s.slen k - 5) % 2 = 0 ∧ 1 ≤ h.gt ∧ h.gt ≤ h.gc ∧ h.gi < h.gc ∧ 1 ≤ h.mt ∧ h.slot = k := by
  unfold State.decodeSlot decodeShare at hd
  split at hd; · cases hd
  split at hd; · cases hd
  split at hd; · cases hd
  split at hd; · cases hd
  cases hd
  simp [readShareFields] at *
  omega

/-- Phase 2 delivers the slots' shares in order when each decodes (R222). -/
theorem State.decodeSlots_eq_ok {s : State} {ks : List Nat} {hs : List DecodedShare} (x : DecodedShare)
    (hl : hs.length = ks.length) (h : ∀ i < ks.length, s.decodeSlot (ks.getD i 0) = .ok (hs.getD i x)) :
    s.decodeSlots ks = .ok hs := by
  induction ks generalizing hs with
  | nil =>
    obtain rfl : hs = [] := by simpa using hl
    rfl
  | cons k ks ih =>
    cases hs with
    | nil => simp at hl
    | cons y hs =>
      have h0 := h 0 (by simp)
      have ht := ih (by simpa using hl) fun i hi => h (i + 1) (by simpa using hi)
      simp only [List.getD_cons_zero] at h0
      unfold State.decodeSlots
      rw [h0]
      simp only
      rw [ht]

/-- Phase 2 raises what the first slot that fails raises (R222). -/
theorem State.decodeSlots_eq_error {s : State} {ks : List Nat} {i : Nat} {r : Raised} (hi : i < ks.length)
    (h : s.decodeSlot (ks.getD i 0) = .error r) (hm : ∀ j < i, ∃ h, s.decodeSlot (ks.getD j 0) = .ok h) :
    s.decodeSlots ks = .error r := by
  induction ks generalizing i with
  | nil => simp at hi
  | cons k ks ih =>
    unfold State.decodeSlots
    cases i with
    | zero =>
      simp only [List.getD_cons_zero] at h
      rw [h]
    | succ i =>
      obtain ⟨y, hy⟩ := hm 0 (by omega)
      simp only [List.getD_cons_zero] at hy
      rw [hy]
      simp only
      rw [ih (by simpa using hi) (by simpa using h) fun j hj => by simpa using hm (j + 1) (by omega)]

/-- Every share that phase 2 delivers is the decoding of one of the slots. -/
theorem State.mem_decodeSlots {s : State} {ks : List Nat} {hs : List DecodedShare} (h : s.decodeSlots ks = .ok hs) :
    ∀ x ∈ hs, ∃ k ∈ ks, s.decodeSlot k = .ok x := by
  induction ks generalizing hs with
  | nil => cases h; simp
  | cons k ks ih =>
    unfold State.decodeSlots at h
    split at h
    · cases h
    · rename_i h0 hd
      split at h
      · cases h
      · rename_i hs' hs''
        cases h
        intro x hx
        rcases List.mem_cons.mp hx with rfl | hx
        · exact ⟨k, by simp, hd⟩
        · obtain ⟨k', hk', e⟩ := ih hs'' x hx
          exact ⟨k', by simp [hk'], e⟩

/-! ### The hierarchy -/

/-- The inner level delivers every group's member shares, each 5 bytes longer than the secret. -/
theorem splitGroups_lengths {cfg : Config} {id : BitVec 16} {gt gc L : Nat} {jobs : List GroupJob} {d d' : Drawing}
    {W : List (List Byte)} (hj : ∀ j ∈ jobs, j.secret.length = L) (h : splitGroups cfg id gt gc jobs d = .drawn W d') :
    W.length = (jobs.map fun j => j.spec.mc.toNat).sum ∧ ∀ w ∈ W, w.length = 5 + L := by
  induction jobs generalizing d W d' with
  | nil => cases h; simp
  | cons j jobs ih =>
    unfold splitGroups at h
    obtain ⟨M, d1, h1, h⟩ := DrawResult.andThen_eq_drawn h
    obtain ⟨W', d2, h2, h⟩ := DrawResult.andThen_eq_drawn h
    cases h
    obtain ⟨i1, i2⟩ := ih (fun j hj' => hj j (by simp [hj'])) h2
    obtain ⟨m1, m2⟩ := shamirSplit_lengths h1
    refine ⟨by simp [groupShares, i1], ?_⟩
    intro w hw
    rcases List.mem_append.mp hw with hw | hw
    · simp only [groupShares, List.mem_map, List.mem_range] at hw
      obtain ⟨m, hm, rfl⟩ := hw
      have hM : M.getD m [] ∈ M := by
        rw [List.getD_eq_getElem _ _ (by omega)]
        exact List.getElem_mem _
      rw [encodeShare_length, m2 _ hM, hj j (by simp)]
    · exact i2 w hw

/-- A split delivers one share per member, each of 5 + L bytes (R216). -/
theorem sskrSplit_lengths {cfg : Config} {s : State} {d d' : Drawing} {o : SplitOutput}
    (h : sskrSplit cfg s d = .drawn o d') :
    o.shares.length = ((List.range s.splitcfg.gc.toNat).map fun g => (s.groupSpec g).mc.toNat).sum ∧
      ∀ w ∈ o.shares, w.length = 5 + s.len := by
  unfold sskrSplit at h
  obtain ⟨b0, d1, h1, h⟩ := DrawResult.andThen_eq_drawn h
  obtain ⟨b1, d2, h2, h⟩ := DrawResult.andThen_eq_drawn h
  obtain ⟨GS, d3, h3, h⟩ := DrawResult.andThen_eq_drawn h
  obtain ⟨W, d4, h4, h⟩ := DrawResult.andThen_eq_drawn h
  cases h
  have hg := shamirSplit_lengths h3
  have hj : ∀ j ∈ s.groupJobs GS, j.secret.length = s.len := by
    intro j hj
    simp only [State.groupJobs, List.mem_map, List.mem_range] at hj
    obtain ⟨g, hg', rfl⟩ := hj
    have hm : GS.getD g [] ∈ GS := by
      rw [List.getD_eq_getElem _ _ (by omega)]
      exact List.getElem_mem _
    simpa using hg.2 _ hm
  obtain ⟨w1, w2⟩ := splitGroups_lengths hj h4
  refine ⟨?_, w2⟩
  simp only [w1, State.groupJobs, List.map_map]
  rfl

/-- A check raises at the first share, in slot order, that fails it. -/
theorem firstFailing_eq_some {e : ErrCode} {bad : DecodedShare → Bool} {hs : List DecodedShare} {k : Nat}
    (x : DecodedShare) (hk : k < hs.length) (hslot : (hs.getD k x).slot = k) (hb : bad (hs.getD k x) = true)
    (hm : ∀ j < k, bad (hs.getD j x) = false) : firstFailing e bad hs = some ⟨e, infoSlot k⟩ := by
  have hf : hs.find? bad = some (hs.getD k x) := by
    rw [List.find?_eq_some_iff_getElem]
    refine ⟨hb, k, hk, by rw [List.getD_eq_getElem _ _ hk], ?_⟩
    intro j hj
    have := hm j hj
    rw [List.getD_eq_getElem _ _ (by omega)] at this
    simp [this]
  simp only [firstFailing, hf, Option.map_some, hslot]

theorem firstFailing_eq_none {e : ErrCode} {bad : DecodedShare → Bool} {hs : List DecodedShare} :
    firstFailing e bad hs = none ↔ ∀ x ∈ hs, bad x = false := by
  simp [firstFailing]

/-- A set of shares with one identifier, one set of parameters, one threshold per group and equal duplicates passes
phases 3 to 5 (R223 to R225). -/
theorem shareSetError_of_consistent {hs : List DecodedShare} {h0 : DecodedShare}
    (h1 : ∀ h ∈ hs, h.id = h0.id ∧ h.payload.length = h0.payload.length ∧ h.gt = h0.gt ∧ h.gc = h0.gc)
    (h2 : ∀ h ∈ hs, ∀ j ∈ hs, h.gi = j.gi → h.mt = j.mt ∧ (h.mi = j.mi → h.payload = j.payload)) :
    shareSetError h0 hs = none := by
  simp only [shareSetError, Option.or_eq_none_iff, firstFailing_eq_none]
  refine ⟨?_, ?_, ?_, ?_⟩
  · intro x hx; simp [otherIdentifier, (h1 x hx).1]
  · intro x hx; simp [otherParameters, h1 x hx]
  · intro x hx
    unfold otherMemberThreshold
    split
    · rename_i j hj
      have hgi : j.gi = x.gi := by simpa using List.find?_some hj
      simp [(h2 x hx j (List.mem_of_find?_eq_some hj) hgi.symm).1]
    · rfl
  · intro x hx
    unfold conflictsWithTwin firstTwin
    split
    · rename_i j hj
      have hji : j.gi = x.gi ∧ j.mi = x.mi := by simpa using List.find?_some hj
      simp [(h2 x hx j (List.mem_of_find?_eq_some hj) hji.1.symm).2 hji.2.symm]
    · rfl

/-- Distinct indices below 16 have distinct coordinates (R160). -/
theorem shareX_injOn {a b : Nat} (ha : a < 16) (hb : b < 16) (h : shareX a = shareX b) : a = b := by
  have := congrArg BitVec.toNat h
  simp [shareX] at this
  omega

/-- A group's members have ascending member indices below 16 (R226). -/
theorem groupMembers_indices (kept : List DecodedShare) (g : Nat) :
    (groupMembers kept g).map DecodedShare.mi =
      (List.range 16).filter fun m => (kept.find? fun h => h.gi == g && h.mi == m).isSome := by
  unfold groupMembers
  generalize List.range 16 = l
  induction l with
  | nil => rfl
  | cons m l ih =>
    cases hf : kept.find? fun h => h.gi == g && h.mi == m with
    | none =>
      rw [List.filterMap_cons, hf, List.filter_cons_of_neg (by simp only [hf]; simp)]
      exact ih
    | some j =>
      have hj : j.gi = g ∧ j.mi = m := by simpa using List.find?_some hf
      rw [List.filterMap_cons, hf, List.filter_cons_of_pos (by simp only [hf]; rfl), List.map_cons, ih, hj.2]

/-- A group's member points are all selected: their coordinates are distinct. -/
theorem selectDistinct_groupMembers (kept : List DecodedShare) (g : Nat) :
    selectDistinct [] ((groupMembers kept g).map memberPoint) = (groupMembers kept g).map memberPoint := by
  refine selectDistinct_of_nodup _ _ ?_ (by simp)
  have hx : ((groupMembers kept g).map memberPoint).map Point.x =
      ((groupMembers kept g).map DecodedShare.mi).map shareX := by
    simp only [List.map_map]
    rfl
  rw [hx, groupMembers_indices]
  refine List.Nodup.map_on ?_ (List.nodup_range.filter _)
  intro a ha b hb h
  exact shareX_injOn (by simpa using (List.mem_filter.mp ha).1) (by simpa using (List.mem_filter.mp hb).1) h

/-- Phase 8 raises what the first group that fails raises (R228). -/
theorem recombineGroups_eq_error {cfg : Config} {kept : List DecodedShare} {L q : Nat} {gs : List Nat} {r : Raised}
    (hq : q < gs.length) (h : recombineGroup cfg kept L (gs.getD q 0) = .error r)
    (hm : ∀ j < q, ∃ G, recombineGroup cfg kept L (gs.getD j 0) = .ok G) :
    recombineGroups cfg kept L gs = .error r := by
  induction gs generalizing q with
  | nil => simp at hq
  | cons g gs ih =>
    unfold recombineGroups
    cases q with
    | zero =>
      simp only [List.getD_cons_zero] at h
      rw [h]
    | succ q =>
      obtain ⟨G, hG⟩ := hm 0 (by omega)
      simp only [List.getD_cons_zero] at hG
      rw [hG]
      simp only
      rw [ih (by simpa using hq) (by simpa using h) fun j hj => by simpa using hm (j + 1) (by omega)]

/-- A group's recombination delivers a vector of the members' length. -/
theorem recombineGroup_length {cfg : Config} {kept : List DecodedShare} {L g : Nat} {G : List Byte}
    (hk : ∀ h ∈ kept, h.payload.length = L ∧ 1 ≤ h.mt) (h : recombineGroup cfg kept L g = .ok G) : G.length = L := by
  unfold recombineGroup at h
  refine shamirRecombine_length h ?_ ?_
  · unfold groupThreshold
    cases hf : kept.find? fun h => h.gi == g with
    | none => simp
    | some j => simpa using (hk j (List.mem_of_find?_eq_some hf)).2
  · intro p hp
    obtain ⟨m, hm, rfl⟩ := List.mem_map.mp hp
    unfold groupMembers at hm
    obtain ⟨i, -, hi⟩ := List.mem_filterMap.mp hm
    exact (hk m (List.mem_of_find?_eq_some hi)).1

/-- Phase 8 delivers one point per group, in order, when every group recombines. -/
theorem recombineGroups_eq_ok {cfg : Config} {kept : List DecodedShare} {L : Nat} {gs : List Nat} {GS : List (List Byte)}
    (hG : ∀ q < gs.length, recombineGroup cfg kept L (gs.getD q 0) = .ok (GS.getD q [])) :
    recombineGroups cfg kept L gs = .ok ((List.range gs.length).map fun q => ⟨shareX (gs.getD q 0), GS.getD q []⟩) := by
  induction gs generalizing GS with
  | nil => rfl
  | cons g gs ih =>
    have h0 := hG 0 (by simp)
    have ht := ih (GS := GS.tail) fun q hq => by
      have := hG (q + 1) (by simpa using hq)
      simpa [List.getD, List.getElem?_tail] using this
    simp only [List.getD_cons_zero] at h0
    unfold recombineGroups
    rw [h0, ht]
    simp [List.range_succ_eq_map, List.getD, List.getElem?_tail, Function.comp_def]

/-- The outer points of different groups have different coordinates (R160), so R164 selects them all. -/
theorem selectDistinct_outerPoints {gs : List Nat} (hn : gs.Nodup) (hlt : ∀ g ∈ gs, g < 16) (Y : Nat → List Byte) :
    selectDistinct [] ((List.range gs.length).map fun q => ⟨shareX (gs.getD q 0), Y q⟩) =
      (List.range gs.length).map fun q => ⟨shareX (gs.getD q 0), Y q⟩ := by
  refine selectDistinct_of_nodup _ _ ?_ (by simp)
  rw [List.map_map]
  refine List.Nodup.map_on ?_ List.nodup_range
  intro q hq r hr h
  have hq := List.mem_range.mp hq
  have hr := List.mem_range.mp hr
  simp only [Function.comp_apply, List.getD_eq_getElem _ _ hq, List.getD_eq_getElem _ _ hr] at h
  exact (List.Nodup.getElem_inj_iff hn).mp
    (shareX_injOn (hlt _ (List.getElem_mem _)) (hlt _ (List.getElem_mem _)) h)

/-- Phase 8 delivers points with vectors of the members' length. -/
theorem recombineGroups_lengths {cfg : Config} {kept : List DecodedShare} {L : Nat} {gs : List Nat} {pts : List Point}
    (hk : ∀ h ∈ kept, h.payload.length = L ∧ 1 ≤ h.mt) (h : recombineGroups cfg kept L gs = .ok pts) :
    ∀ p ∈ pts, p.y.length = L := by
  induction gs generalizing pts with
  | nil => cases h; simp
  | cons g gs ih =>
    unfold recombineGroups at h
    split at h
    · cases h
    · rename_i G hG
      split at h
      · cases h
      · rename_i pts' hp
        cases h
        intro p hp'
        rcases List.mem_cons.mp hp' with rfl | hp'
        · exact recombineGroup_length hk hG
        · exact ih hp _ hp'

/-- Phases 6 to 9 deliver a secret of the members' length. -/
theorem recombineKept_length {cfg : Config} {kept : List DecodedShare} {L gt : Nat} {S : List Byte} (hg : 1 ≤ gt)
    (hk : ∀ h ∈ kept, h.payload.length = L ∧ 1 ≤ h.mt) (h : recombineKept cfg kept L gt = .ok S) : S.length = L := by
  unfold recombineKept at h
  split at h
  · cases h
  · split at h
    · cases h
    · rename_i pts hp
      exact shamirRecombine_length h hg (recombineGroups_lengths hk hp)

/-- What a successful recombine delivers is a secret of 16 to 32 bytes (R231, R251). -/
theorem sskrRecombine_length {cfg : Config} {s : State} {o : Recovered} (h : sskrRecombine cfg s = .ok o) :
    16 ≤ o.secret.length ∧ o.secret.length ≤ 32 := by
  unfold sskrRecombine at h
  split at h; · cases h
  split at h; · cases h
  split at h
  · cases h
  · rename_i hs hd
    unfold recombineShares at h
    split at h
    · cases h
    · rename_i h0 tl
      split at h
      · cases h
      · rename_i hse
        split at h
        · cases h
        · rename_i S hS
          cases h
          have hall : ∀ x ∈ h0 :: tl, 16 ≤ x.payload.length ∧ x.payload.length ≤ 32 ∧ 1 ≤ x.gt ∧ 1 ≤ x.mt := by
            intro x hx
            obtain ⟨k, -, hk⟩ := State.mem_decodeSlots hd x hx
            have := State.decodeSlot_ok hk
            omega
          have hpay : ∀ x ∈ h0 :: tl, x.payload.length = h0.payload.length := by
            simp only [shareSetError, Option.or_eq_none_iff, firstFailing_eq_none] at hse
            intro x hx
            have := hse.2.1 x hx
            simp only [otherParameters, Bool.or_eq_false_iff, bne_eq_false_iff_eq] at this
            exact this.1.1
          have h0' := hall h0 (by simp)
          have := recombineKept_length h0'.2.2.1 (fun x hx => ⟨hpay x (List.mem_filter.mp hx).1,
            (hall x (List.mem_filter.mp hx).1).2.2.2⟩) hS
          simp only
          omega

end Sys2Proof.Machine
end

