-- ==== Sys2Proof/Tests/Slice0.lean ====
section
/-! SUPPORT. Tests of the model, each about one decoding, one bus access or one step, with the results 95_test_vectors.md
gives (cited by the vector's id); and for each obligation with hypotheses a concrete state and operands that meet them. -/

open Sys2Proof Sys2Proof.Machine Sys2Proof.Claims

namespace Sys2Proof.Tests

/-! ### Helpers -/

/-- The state after a command word is issued and completed. -/
def ran (w : Word) (s : State) : State :=
  match step (s.withFetchWord 32 w.toNat) with
  | .next t => t
  | .fault _ => s
  | .refused _ => s

/-- The reset state with CTRL.LEN = L. -/
def withLen (L : Nat) : State := State.reset.writeReg .ctrl (BitVec.ofNat 32 (256 * L))

/-- The bytes 00, 01, … -/
def countUp (n : Nat) : List Byte := (List.range n).map (BitVec.ofNat 8)

/-- The first `n` bytes of the stream RNG-A. -/
def rngA (n : Nat) : List Byte := (List.range n).map fun i => BitVec.ofNat 8 (0x3D + 7 * i)

/-- The state with a port that lists the first `n` bytes of RNG-A and then refuses. -/
def deadAfter (n : Nat) (s : State) : State := { s with port := ⟨(rngA n).map PortAnswer.byte ++ [.unavailable], 0⟩ }

/-- The state with a point stored at an index. -/
def withPoint (i : Nat) (x : Byte) (y : List Byte) (s : State) : State := (s.store (0x180 + i) [x]).store (0x200 + 32 * i) y

/-- The state with a share stored in a slot, its length and SHARECNT. -/
def withShare (k : Nat) (V : List Byte) (s : State) : State :=
  { s with mem := s.mem.writeSlot k V, sharecnt := BitVec.ofNat 16 (k + 1) }

/-- The slots 0 .. SHARECNT − 1 as their fields. -/
def slotFields (s : State) : List DecodedShare :=
  (List.range s.sharecnt.toNat).map fun k => readShareFields (s.shareSlot k) (s.slen k) k

/-- A byte vector by its numbers, index 0 first. -/
def bytesOf (ns : List Nat) : List Byte := ns.map (BitVec.ofNat 8)

/-- A drawing delivered a value. -/
def delivered {α : Type} : DrawResult α → Bool
  | .drawn _ _ => true
  | .unavailable _ => false
  | .silent _ => false

theorem exists_of_delivered {α : Type} {r : DrawResult α} (h : delivered r = true) : ∃ a d, r = .drawn a d := by
  cases r with
  | drawn a d => exact ⟨a, d, rfl⟩
  | unavailable d => cases h
  | silent d => cases h

theorem exists_of_isOk {ε α : Type} {r : Except ε α} (h : r.isOk = true) : ∃ a, r = .ok a := by
  cases r with
  | ok a => exact ⟨a, rfl⟩
  | error e => cases h

theorem exists_of_not_isOk {ε α : Type} {r : Except ε α} (h : r.isOk = false) : ∃ e, r = .error e := by
  cases r with
  | ok a => cases h
  | error e => exact ⟨e, rfl⟩

/-- The outcome is a next state with a property. -/
def nextWith (o : Host.Outcome State Fault Refusal) (p : State → Bool) : Bool :=
  match o with
  | .next t => p t
  | .fault _ => false
  | .refused _ => false

theorem exists_of_nextWith {o : Host.Outcome State Fault Refusal} {p : State → Bool} (h : nextWith o p = true) :
    ∃ t, o = .next t ∧ p t = true := by
  cases o with
  | next t => exact ⟨t, rfl, h⟩
  | fault f => cases h
  | refused r => cases h

/-- Vector K1, slots 0, 1 and 2. -/
def k1s0 : List Byte := bytesOf [0x3D, 0x44, 0x00, 0x01, 0x00, 0x91, 0x93, 0xA5, 0xAA, 0x16, 0x15, 0xE8, 0x13, 0xCF, 0xB0,
  0x31, 0x4E, 0x0E, 0x71, 0xF0, 0x8F]
def k1s1 : List Byte := bytesOf [0x3D, 0x44, 0x00, 0x01, 0x10, 0x39, 0x3D, 0x51, 0x4F, 0x2C, 0x2A, 0xCB, 0x26, 0x85, 0x7B,
  0x62, 0x9C, 0x1C, 0xE2, 0xFB, 0x05]
def k1s2 : List Byte := bytesOf [0x3D, 0x44, 0x00, 0x01, 0x20, 0xA8, 0xAE, 0xF4, 0xE5, 0x3A, 0x3F, 0x23, 0x35, 0x4A, 0xCB,
  0x53, 0xD2, 0x12, 0x93, 0x0B, 0x8A]

/-- Vector D1, Y2 and Y3. -/
def d1y2 : List Byte := bytesOf [0x7A, 0x89, 0x94, 0xA7, 0xB6, 0xC5, 0xC8, 0xDB, 0xE2, 0xF1, 0x17, 0x04, 0x35, 0x26, 0x2B, 0x58]
def d1y3 : List Byte := bytesOf [0x47, 0xCD, 0xDF, 0xF5, 0xEF, 0xA5, 0xAF, 0xB5, 0x97, 0x8D, 0x94, 0x8E, 0xA4, 0xBE, 0xB4, 0xFE]

/-- Vector D3, Z1, Z2 and Z4. -/
def d3z1 : List Byte := bytesOf [0x39, 0x9E, 0xD7, 0x5F, 0xA3, 0x6E, 0x39, 0x38, 0x5F, 0xB1, 0xF7, 0xA7, 0x15, 0x45, 0xC9, 0x99]
def d3z2 : List Byte := bytesOf [0xAF, 0x36, 0x14, 0x91, 0x6D, 0x27, 0x4D, 0x41, 0xCF, 0x09, 0x17, 0x7F, 0x00, 0x68, 0x23, 0x4B]
def d3z4 : List Byte := bytesOf [0x1C, 0x27, 0x84, 0x94, 0x26, 0xBC, 0x44, 0x6B, 0x22, 0xBE, 0xED, 0x3F, 0xEC, 0x3E, 0x82, 0x50]

/-! ### Well-formedness -/

theorem test_wf_refuses_point_count : (Instr.lagrEval 256 0x00#8).wellFormed = false := by decide
theorem test_wf_refuses_split_threshold : (Instr.shamirSplit 256 3 false).wellFormed = false := by decide
theorem test_wf_refuses_split_count : (Instr.shamirSplit 3 256 false).wellFormed = false := by decide
theorem test_wf_refuses_recombine_threshold : (Instr.shamirRecombine 256 1 false).wellFormed = false := by decide
theorem test_wf_refuses_recombine_count : (Instr.shamirRecombine 1 256 false).wellFormed = false := by decide
/-- Each format refuses a non-zero field that its row marks 0 (R91, R94). -/
theorem test_must_be_zero_refuses :
    Format.mustBeZeroOk .z ⟨0#8, 1#8, 0#8, 0#8⟩ = false ∧ Format.mustBeZeroOk .z ⟨0#8, 0#8, 1#8, 0#8⟩ = false ∧
    Format.mustBeZeroOk .z ⟨0#8, 0#8, 0#8, 1#8⟩ = false ∧ Format.mustBeZeroOk .g2 ⟨1#8, 2#8, 3#8, 1#8⟩ = false ∧
    Format.mustBeZeroOk .g1 ⟨3#8, 2#8, 1#8, 0#8⟩ = false ∧ Format.mustBeZeroOk .g1 ⟨3#8, 2#8, 0#8, 1#8⟩ = false ∧
    Format.mustBeZeroOk .l ⟨0x10#8, 2#8, 3#8, 1#8⟩ = false ∧ Format.mustBeZeroOk .s ⟨0x20#8, 2#8, 3#8, 2#8⟩ = false ∧
    Format.mustBeZeroOk .k ⟨0x50#8, 2#8, 1#8, 0#8⟩ = false ∧ Format.mustBeZeroOk .k ⟨0x50#8, 2#8, 0#8, 1#8⟩ = false := by
  decide

/-! ### Decoding of written-out words -/

/-- R98's encodings written bit by bit, C in [31:24], B in [23:16], A in [15:8], OPC in [7:0]. -/
theorem test_decode_bits :
    decode 0b00000000_10000011_01010111_00000001#32 = .ok (.gfAdd 0x57#8 0x83#8) ∧
    decode 0b00000000_00000011_00000010_00010000#32 = .ok (.lagrEval 2 0x03#8) ∧
    decode 0b00000001_00000100_00000011_00100000#32 = .ok (.shamirSplit 3 4 true) ∧
    decode 0b00000000_00000000_00000111_01010001#32 = .ok (.shareDecode 0x07#8) ∧
    decode 0b00000000_00000000_00000000_00110001#32 = .ok .digestVerify ∧
    decode 0b00000000_00000000_00000000_01000001#32 = .ok .sskrRecombine ∧
    decode 0b00000000_00000000_00000000_11111111#32 = .ok .zeroize := by decide

/-- One word of every row of the opcode map (R92), with the words 95_test_vectors.md writes out. -/
theorem test_decode_every_command :
    decode 0x00000000#32 = .ok .nop ∧ decode 0x00FFFF01#32 = .ok (.gfAdd 0xFF#8 0xFF#8) ∧
    decode 0x00800202#32 = .ok (.gfMul 0x02#8 0x80#8) ∧ decode 0x00005303#32 = .ok (.gfInv 0x53#8) ∧
    decode 0x00001110#32 = .ok (.lagrEval 17 0x00#8) ∧ decode 0x00030220#32 = .ok (.shamirSplit 2 3 false) ∧
    decode 0x01020321#32 = .ok (.shamirRecombine 3 2 true) ∧ decode 0x00000030#32 = .ok .digestMake ∧
    decode 0x00000031#32 = .ok .digestVerify ∧ decode 0x00000040#32 = .ok .sskrSplit ∧
    decode 0x00000041#32 = .ok .sskrRecombine ∧ decode 0x0000FF50#32 = .ok (.shareEncode 0xFF#8) ∧
    decode 0x00000751#32 = .ok (.shareDecode 0x07#8) ∧ decode 0x000000FF#32 = .ok .zeroize := by decide

/-- Vectors E2 to E17: every one of them is illegal. -/
theorem test_decode_refuses_illegal_words :
    [0x00000100#32, 0x00000004#32, 0x0000000F#32, 0x00000011#32, 0x00000022#32, 0x00000032#32, 0x00000042#32,
      0x00000052#32, 0x000000FE#32, 0x01000001#32, 0x00010003#32, 0x00010050#32, 0x00000130#32, 0x02000020#32,
      0x80000021#32, 0x01000010#32].all (fun w => (decodeTableWord 32 w.toNat).isNone) = true := by decide +kernel

/-! ### The bus -/

/-- Vectors M1 to M8. -/
theorem test_bus_read_reset :
    State.reset.busRead 0x004#16 .byte = .error ∧ State.reset.busRead 0x030#16 .word = .error ∧
    State.reset.busRead 0x102#16 .word = .error ∧ State.reset.busRead 0x11E#16 .word = .error ∧
    State.reset.busRead 0x11E#16 .half = .readOkay 0#32 ∧ State.reset.busRead 0x3FC#16 .word = .readOkay 0#32 ∧
    State.reset.busRead 0x7FFC#16 .word = .readOkay 0#32 ∧ State.reset.busRead 0x8000#16 .word = .error := by decide +kernel

/-- Vector M10: little-endian reads of SHARE slot 0, bytes 4..7. -/
theorem test_bus_little_endian :
    let s := State.reset.store 0x4004 (bytesOf [0x12, 0x34, 0x56, 0x78])
    s.busRead 0x4004#16 .word = .readOkay 0x78563412#32 ∧ s.busRead 0x4006#16 .half = .readOkay 0x7856#32 ∧
    s.busRead 0x4007#16 .byte = .readOkay 0x78#32 := by decide +kernel

/-- Vectors M11 to M16: accesses while GF_MUL is pending. -/
theorem test_bus_while_busy :
    let s := State.reset.busWrite 0x00C#16 .word 0x00835702#32
    s.busRead 0x000#16 .word = .readOkay 0x534B5231#32 ∧ s.busRead 0x008#16 .word = .readOkay 0x00020011#32 ∧
    s.busWriteResponse 0x008#16 .word = .writeOkay ∧ s.busRead 0x010#16 .word = .error ∧
    s.busWriteResponse 0x00C#16 .word = .error ∧ s.busRead 0x100#16 .byte = .error := by decide +kernel

/-! ### Commands -/

/-- Vector E1. -/
theorem test_nop : (ran 0x00000000#32 State.reset).readReg .status = 0x00000062#32 := by decide +kernel
/-- Vector E2. -/
theorem test_illegal_word :
    (ran 0x00000100#32 State.reset).readReg .status = 0x00000B76#32 ∧
    (ran 0x00000100#32 State.reset).readReg .errinfo = 0xFFFF#32 := by decide +kernel
/-- Vector A1. -/
theorem test_gfAdd : (ran 0x00835701#32 State.reset).result = 0xD4#8 := by decide +kernel
/-- Vector A3. -/
theorem test_gfMul : (ran 0x00835702#32 State.reset).result = 0xC1#8 := by decide +kernel
/-- Vector A7. -/
theorem test_gfMul_reduces : (ran 0x00808002#32 State.reset).result = 0x9A#8 := by decide +kernel
/-- Vector A11. -/
theorem test_gfInv : (ran 0x00005303#32 State.reset).result = 0xCA#8 := by decide +kernel
/-- Vector A19. -/
theorem test_gfInv_zero :
    (ran 0x00000003#32 { State.reset with result := 0x55#8 }).readReg .status = 0x00030A76#32 ∧
    (ran 0x00000003#32 { State.reset with result := 0x55#8 }).result = 0x00#8 := by decide +kernel
/-- Vector B3. -/
theorem test_lagrEval :
    (ran 0x00030210#32 (withPoint 0 1#8 (List.replicate 16 0x10#8) (withPoint 1 2#8 (List.replicate 16 0x20#8)
      (withLen 16)))).mem.readBytes 0x400 17 = List.replicate 16 0x30#8 ++ [0#8] := by decide +kernel
/-- Vector B9. -/
theorem test_lagrEval_repeated_point :
    (ran 0x00000310#32 (withPoint 0 1#8 [7#8] (withPoint 1 2#8 [9#8] (withPoint 2 1#8 [11#8] (withLen 16))))).errinfo
      = 0x0102#16 := by decide +kernel
/-- Vector D1: PX, and PY[2] with its zeros. -/
theorem test_shamirSplit :
    let t := ran 0x00030220#32 (deadAfter 16 ((withLen 16).store 0x100 (countUp 16)))
    t.mem.readBytes 0x180 4 = [1#8, 2#8, 3#8, 0#8] ∧ t.mem.readBytes 0x240 17 = d1y3 ++ [0#8] := by decide +kernel
/-- Vector D9: the refusal clears the points; RNGCNT counts the ten bytes delivered. -/
theorem test_shamirSplit_refused :
    let t := ran 0x00030220#32 (deadAfter 10 (((withLen 16).store 0x100 (countUp 16)).store 0x180 [9#8]))
    t.readReg .status = 0x00200876#32 ∧ t.rngcnt = 10#32 ∧ t.px 0 = 0#8 := by decide +kernel
/-- Vector D12. -/
theorem test_shamirRecombine :
    (ran 0x00020221#32 (withPoint 0 3#8 d1y3 (withPoint 1 2#8 d1y2 (withLen 16)))).mem.readBytes 0x100 17
      = countUp 16 ++ [0#8] := by decide +kernel
/-- Vector D22: digest mode. -/
theorem test_shamirRecombine_digest :
    let t := ran 0x01030321#32 (withPoint 0 2#8 d3z2 (withPoint 1 4#8 d3z4 (withPoint 2 1#8 d3z1 (withLen 16))))
    t.readReg .status = 0x00210062#32 ∧ t.mem.readBytes 0x100 16 = countUp 16 := by decide +kernel
/-- Vector H1. -/
theorem test_digestMake :
    (ran 0x00000030#32 ((withLen 16).store 0x404 (rngA 12))).mem.readBytes 0x400 16
      = bytesOf [0x0F, 0x8B, 0x5E, 0x24] ++ rngA 12 := by decide +kernel
/-- Vector H8: a 32-byte secret. -/
theorem test_digestMake_long :
    (ran 0x00000030#32 (((withLen 32).store 0x100 (countUp 32)).store 0x404
      ((List.range 28).map fun i => BitVec.ofNat 8 (0xA0 + i)))).mem.readBytes 0x400 4
      = bytesOf [0xF7, 0x1D, 0x5C, 0xD4] := by decide +kernel
/-- Vector H4. -/
theorem test_digestVerify_mismatch :
    (ran 0x00000031#32 ((withLen 16).store 0x400 (bytesOf [0x0E, 0x8B, 0x5E, 0x24] ++ rngA 12))).readReg .status
      = 0x00310676#32 := by decide +kernel
/-- Vector K1: slots 0 and 1, their lengths, the registers. -/
theorem test_sskrSplit :
    let t := ran 0x00000040#32 (deadAfter 14 (((withLen 16).writeReg .splitcfg 0x00000101#32).writeReg (.gspec 0)
      0x00000302#32))
    t.mem.readBytes 0x4000 64 = padTo 64 k1s0 ∧ t.mem.readBytes 0x4040 21 = k1s1 ∧ t.mem.readBytes 0x800 4 =
      [21#8, 21#8, 21#8, 0#8] ∧ t.ident = 0x3D44#16 ∧ t.sharecnt = 3#16 ∧ t.rngcnt = 14#32 := by decide +kernel
/-- Vector K64: the first illegal group is named. -/
theorem test_sskrSplit_bad_group :
    let t := ran 0x00000040#32 ((((withLen 16).writeReg .splitcfg 0x00000202#32).writeReg (.gspec 0)
      0x00000302#32).writeReg (.gspec 1) 0x00000304#32)
    t.readReg .status = 0x00400176#32 ∧ t.errinfo = 0x1001#16 := by decide +kernel
/-- Vector K2. -/
theorem test_sskrRecombine :
    let t := ran 0x00000041#32 (withShare 1 k1s0 (withShare 0 k1s2 (State.reset.store 0x100 [0xFF#8])))
    t.readReg .status = 0x00410052#32 ∧ t.readReg .ctrl = 0x00001000#32 ∧ t.ident = 0x3D44#16 ∧
    t.mem.readBytes 0x100 16 = List.replicate 16 0#8 := by decide +kernel
/-- Vector K5. -/
theorem test_sskrRecombine_insufficient :
    let t := ran 0x00000041#32 (withShare 0 k1s0 State.reset)
    t.readReg .status = 0x00410276#32 ∧ t.errinfo = 0x2000#16 := by decide +kernel
/-- Vector C1. -/
theorem test_shareEncode :
    let s : State := ((((withLen 16).writeReg .ident 0x3D44#32).writeReg .hdr 0x02000101#32).writeReg .hdr2 2#32).store 0x400
      (k1s2.drop 5)
    (ran 0x00000250#32 s).mem.readBytes 0x4080 64 = padTo 64 k1s2 ∧ (ran 0x00000250#32 s).readReg .hdr2 = 0x00100002#32 := by
  decide +kernel
/-- Vector C5: GI ≥ GC. -/
theorem test_shareEncode_illegal_header :
    (ran 0x00000350#32 ((withLen 16).writeReg .hdr 0x02010101#32)).readReg .status = 0x00500176#32 := by decide +kernel
/-- Vector C21: the reserved nibble is delivered. -/
theorem test_shareDecode :
    let t := ran 0x00000051#32 (withShare 0 (k1s0.set 4 0x05#8) State.reset)
    t.ident = 0x3D44#16 ∧ t.readReg .hdr = 0x02000101#32 ∧ t.readReg .hdr2 = 0x00100500#32 ∧
    t.mem.readBytes 0x400 4 = bytesOf [0x91, 0x93, 0xA5, 0xAA] := by decide +kernel
/-- Vector C25: the reserved check precedes the header check. -/
theorem test_shareDecode_strict :
    (ran 0x00000051#32 (withShare 0 ((k1s0.set 3 0x11#8).set 4 0x05#8) (State.reset.writeReg .ctrl 1#32))).readReg .status
      = 0x00510976#32 := by decide +kernel
/-- Vector E18, with SECRET and one share set. -/
theorem test_zeroize :
    let t := ran 0x000000FF#32 (withShare 0 k1s0 (((withLen 16).writeReg .splitcfg 0x0101#32).store 0x100
      (List.replicate 16 0xAA#8)))
    t.readReg .status = 0x00FF0062#32 ∧ t.mem = [] ∧ t.readReg .ctrl = 0x00001000#32 ∧
    t.readReg .splitcfg = 0x0101#32 ∧ t.sharecnt = 0#16 := by decide +kernel

/-- R340, R341: the reset input while a command is pending discards it. -/
theorem test_reset_input :
    let t := ({ State.reset.issue 0x00835702#32 with inputs := [.reset] } : State).hostStep
    t.latch = none ∧ t.status = State.reset.status := by decide +kernel

/-! ### States and operands that meet the hypotheses of the obligations -/

theorem witness_EncodedInstructionsDecodeToThemselves :
    (Instr.shamirSplit 255 255 true).wellFormed = true ∧ (Instr.lagrEval 0 0xFF#8).wellFormed = true := by decide

theorem witness_LegalWordsAreTheirInstructionsEncodings : decode 0x0100FF21#32 = .ok (.shamirRecombine 255 0 true) := by decide

theorem witness_IllegalWordsCompleteAsIllegalCommand :
    (∃ w : Word, wordIsIllegal w ∧ State.reset.status.busy = false) ∧
    (∃ (s : State) (w : Word), wordIsIllegal w ∧ s.status.busy = true ∧ s.latch = some w ∧ s.schedule = []) :=
  ⟨⟨0x00000004#32, by unfold wordIsIllegal; decide, rfl⟩,
    State.reset.issue 0x00000052#32, 0x00000052#32, by unfold wordIsIllegal; decide, rfl, rfl, rfl⟩

/-- The boundaries of the illegal words' clauses: each bound of the unassigned ranges, and each must-be-zero field. -/
theorem witness_illegal_boundaries :
    [0x04#32, 0x0F#32, 0x11#32, 0x1F#32, 0x22#32, 0x2F#32, 0x32#32, 0x3F#32, 0x42#32, 0x4F#32, 0x52#32, 0xFE#32,
      0x0100#32, 0x010030#32, 0x01000041#32, 0x0100#32 ||| 0xFF#32, 0x01000001#32, 0x01000010#32, 0x00010003#32,
      0x01000050#32, 0x02000020#32, 0x80000021#32].all (fun w => !(decode w).isOk) = true ∧
    [0x03#32, 0x10#32, 0x20#32, 0x21#32, 0x30#32, 0x31#32, 0x40#32, 0x41#32, 0x50#32, 0x51#32, 0xFF#32,
      0x01000020#32, 0x01FFFF21#32].all (fun w => (decode w).isOk) = true := by decide +kernel

theorem witness_StepRunsTheDecodedCommand :
    let s := State.reset.issue 0x00005303#32
    s.status.busy = true ∧ s.latch = some 0x00005303#32 ∧ decode 0x00005303#32 = .ok (.gfInv 0x53#8) ∧ s.schedule = [] ∧
    ({ s with schedule := [.engine, .host] } : State).schedule = .engine :: [.host] ∧
    (Instr.gfInv 0x53#8).wellFormed = true := by decide

theorem witness_CmdWriteIssuesTheWord : State.reset.status.busy = false := rfl

/-- A port that lists enough answers meets the premise of R311. -/
theorem witness_EveryCommandCompletesWhenThePortAnswers :
    ({ State.reset with port := ⟨List.replicate drawBound (.byte 0x00#8), 0⟩ } : State).RngAnswers drawBound := by
  intro j hj
  simp [Port.answerAt, hj]

/-- Vector K1's specification, pending, with a port that delivers three bytes and then does not answer. -/
def silentSplit : State :=
  { (((withLen 16).writeReg .splitcfg 0x0101#32).writeReg (.gspec 0) 0x0302#32).issue 0x00000040#32 with
    port := ⟨(rngA 3).map PortAnswer.byte ++ .silent :: (rngA 2).map PortAnswer.byte, 0⟩ }

theorem witness_SilentPortLeavesTheSplitPending :
    (silentSplit.port.answers = (rngA 3).map PortAnswer.byte ++ .silent :: (rngA 2).map PortAnswer.byte ∧
      SplitLegal silentSplit ∧ silentSplit.status.busy = true ∧ silentSplit.latch = some 0x00000040#32 ∧
      (rngA 3).length < splitDraws silentSplit ∧ silentSplit.schedule = []) ∧
    (let s : State := { (withLen 16).issue (encode (.shamirSplit 2 3 true)) with
       port := ⟨(rngA 11).map PortAnswer.byte ++ [.silent], 0⟩ }
     lenOK s.len = true ∧ s.status.busy = true ∧ s.latch = some (encode (.shamirSplit 2 3 true)) ∧
       (rngA 11).length < levelDraws 2 true s.len) := by
  unfold SplitLegal; decide +kernel

/-- The hung split, with the engine's turn and then the host's, which asserts reset, or with the host's alone. -/
theorem witness_ResetDiscardsTheDrawsOfAHungSplit :
    ∀ turns ∈ [[Agent.engine, .host], [.host]],
      let s : State := { silentSplit with inputs := [.reset], schedule := turns }
      SplitLegal s ∧ s.port.answers = (rngA 3).map PortAnswer.byte ++ .silent :: (rngA 2).map PortAnswer.byte ∧ (rngA 3).length < splitDraws s ∧
        s.status.busy = true ∧ s.latch = some 0x00000040#32 ∧ s.inputs = [.reset] ∧ s.drawn = 0 := by
  unfold SplitLegal; decide +kernel

/-- Both ways to fail: with nothing drawn, and with ten bytes drawn before a refusal (vectors A19 and D9). -/
theorem witness_FailedCommandsOnlyClearTheirOutputs :
    (∃ t, exec (.gfInv 0x00#8) State.reset = .next t ∧ State.reset.status.errcode = none ∧ t.status.errcode ≠ none) ∧
    (∃ t, exec (.shamirSplit 2 3 false) (deadAfter 10 (withLen 16)) = .next t ∧
      (deadAfter 10 (withLen 16)).status.errcode = none ∧ t.status.errcode = some .randomnessUnavailable) := by
  refine ⟨⟨_, rfl, rfl, by decide⟩, ?_⟩
  obtain ⟨t, h, ht⟩ := exists_of_nextWith (o := exec (.shamirSplit 2 3 false) (deadAfter 10 (withLen 16)))
    (p := fun t => decide (t.status.errcode = some .randomnessUnavailable)) (by decide +kernel)
  exact ⟨t, h, by decide, by simpa using ht⟩

theorem witness_CommandsWriteOnlyTheirOutputBuffers :
    ∃ t, exec (.lagrEval 0 0x00#8) (withLen 16) = .next t ∧ ¬ isOutputByte (.lagrEval 0 0x00#8) 0x420 :=
  ⟨_, rfl, by simp [isOutputByte]⟩

theorem witness_CommandsKeepTheRegistersTheyDoNotWrite : ∃ t, exec .sskrRecombine State.reset = .next t := ⟨_, rfl⟩

/-- A state with a command pending that meets the invariant, and its step. -/
theorem witness_EveryStepKeepsTheInvariant :
    (State.reset.issue 0x00000041#32).Inv ∧ ∃ t, step (State.reset.issue 0x00000041#32) = .next t := by
  refine ⟨⟨by decide, by decide, by decide, by decide, by decide, by decide, ?_, by decide, by decide, by decide⟩, _, rfl⟩
  intro w hw
  obtain rfl : 0x00000041#32 = w := Option.some.inj hw
  rfl

theorem witness_InvariantStatesStepSafely : (State.reset.issue 0x00000041#32).Inv :=
  witness_EveryStepKeepsTheInvariant.1

theorem witness_ResetInputRestoresEveryResetValue :
    let s : State := { State.reset.issue 0x00000041#32 with inputs := [.reset], schedule := [.host, .engine] }
    s.inputs = .reset :: [] ∧ s.schedule = .host :: [.engine] := ⟨rfl, rfl⟩

theorem witness_BusyMachineAcceptsOnlyIdAndStatus :
    (State.reset.issue 0x00000041#32).status.busy = true ∧ ¬ acceptedAccess false 0x00C#16 .word ∧
    ¬ acceptedAccess true 0x000#16 .word ∧ ¬ acceptedAccess true 0x008#16 .half := by
  unfold acceptedAccess; decide

/-- The mapped accesses at the bounds of the map: the last register of each range, the last word of each buffer. -/
theorem witness_ExactlyTheMappedAccessesComplete :
    State.reset.status.busy = false ∧ mappedAccess 0x02C 4 ∧ mappedAccess 0x040 4 ∧ mappedAccess 0x07C 4 ∧
    mappedAccess 0x11C 4 ∧ mappedAccess 0x18F 1 ∧ mappedAccess 0x3FC 4 ∧ mappedAccess 0x41E 2 ∧ mappedAccess 0x8FC 4 ∧
    mappedAccess 0x7FFC 4 ∧ ¬ mappedAccess 0x030 4 ∧ ¬ mappedAccess 0x080 4 ∧ ¬ mappedAccess 0x0FF 1 ∧
    ¬ mappedAccess 0x8000 4 ∧ ¬ mappedAccess 0x004 1 := by
  refine ⟨rfl, ?_, ?_, ?_, ?_, ?_, ?_, ?_, ?_, ?_, ?_, ?_, ?_, ?_, ?_⟩ <;> (unfold mappedAccess; decide)

theorem witness_BusErrorsChangeNoState :
    State.reset.busRead 0x030#16 .word = .error ∧ State.reset.busWriteResponse 0x0FF#16 .byte = .error := by decide +kernel

theorem witness_BufferWritesReadBackLittleEndian :
    State.reset.status.busy = false ∧ 0x100 ≤ (0x7FFE#16).toNat ∧ mappedAccess (0x7FFE#16).toNat Width.half.bytes := by
  unfold mappedAccess; decide

theorem witness_RegisterWritesChangeOnlyWritableBits :
    (1 : Fin 16) ≠ 0 ∧ Reg.rngcnt ∈ [Reg.id, .result, .errinfo, .rngcnt] ∧
    Reg.hdr ≠ .hdr2 ∧ Reg.hdr ≠ .cmd ∧ Reg.hdr ≠ .ctrl ∧ Reg.hdr ≠ .status := by decide

theorem witness_HostControlsTheInterruptLine :
    State.reset.status.busy = false ∧ (0x00000002#32).getLsbD 1 = true ∧ (0x0000000D#32).getLsbD 1 = false := by decide

theorem witness_PendingRecombinePhaseNeverFallsBack :
    let s : State := { State.reset.issue 0x00000041#32 with inputs := [.read 0x008#16 .word] }
    s.status.busy = true ∧ s.status.phase.recombining = true ∧ s.inputs.head? ≠ some .reset := by decide

theorem witness_GfInvStoresTheUniqueInverseOrFailsOnZero : (0x53#8 : Byte) ≠ 0x00#8 := by decide

theorem witness_BytesObeyTheFieldLaws : gfMul 0x00#8 0x57#8 = 0x00#8 ∧ (0x57#8 : Byte) ≠ 0x00#8 := by decide

/-- Sixteen points, the most there can be. -/
def sixteenPoints : State := (withLen 16).store 0x180 ((countUp 17).drop 1)

/-- A success with sixteen points, and each of the three rejections: an odd length, n = 17, a repeated coordinate at the
last of two points. -/
theorem witness_LagrEvalInterpolatesOrRejectsInOrder :
    (lenOK sixteenPoints.len = true ∧ ∀ i < 16, ∀ j < i, at_ sixteenPoints (0x180 + j) ≠ at_ sixteenPoints (0x180 + i)) ∧
    lenOK (withLen 17).len = false ∧ (lenOK sixteenPoints.len = true ∧ 16 < 17) ∧
    (let s := (withLen 32).store 0x180 [5#8, 5#8]
     lenOK s.len = true ∧ 1 < 2 ∧ (∃ j < 1, at_ s (0x180 + j) = at_ s (0x180 + 1)) ∧
      ∀ i' < 1, ∀ j < i', at_ s (0x180 + j) ≠ at_ s (0x180 + i')) := by decide +kernel

/-- Two points of a line, given twice as many coefficients as one. -/
theorem witness_InterpolationRecoversThePolynomial :
    let coeffs := [[3#8], [7#8]]
    let pts : List Point := [⟨1#8, polyEval coeffs 1#8 1⟩, ⟨2#8, polyEval coeffs 2#8 1⟩]
    coeffs.length ≤ pts.length ∧ (pts.map Point.x).Nodup ∧ ∀ pt ∈ pts, pt.y = polyEval coeffs pt.x 1 := by decide +kernel

theorem witness_ShamirSplitStoresThePolynomialsValues :
    let s := deadAfter 240 (withLen 16)
    lenOK s.len = true ∧ 2 ≤ 16 ∧ s.port.answers = (rngA 240).map PortAnswer.byte ++ [.unavailable] ∧
    (rngA 240).length = (16 - 1) * s.len := by decide +kernel

theorem witness_ShamirSplitThresholdOneCopiesTheSecret : lenOK (withLen 32).len = true ∧ 1 ≤ 16 := by decide

theorem witness_ShamirSplitDigestModePassesThroughTheDigestShare :
    let s := deadAfter 28 (withLen 16)
    lenOK s.len = true ∧ 2 ≤ 3 ∧ 3 ≤ 4 ∧ s.port.answers = (rngA 28).map PortAnswer.byte ++ [.unavailable] ∧
    (rngA 28).length = (s.len - 4) + (3 - 2) * s.len := by decide +kernel

/-- Both clauses: an illegal length, and a refusal after ten of the bytes a legal split draws. -/
theorem witness_ShamirSplitFailsWithItsPointsCleared :
    lenOK (withLen 34).len = false ∧
    (let s := deadAfter 10 (withLen 16)
     lenOK s.len = true ∧ s.port.answers = (rngA 10).map PortAnswer.byte ++ .unavailable :: [] ∧
      (rngA 10).length < levelDraws 2 false s.len) := by decide +kernel

/-- The points of vector D22 (digest mode verifies), of D12, and of the rejections D18, D16, D14 and D21. -/
theorem witness_ShamirRecombineStoresTheSecretOrRejectsInOrder :
    (let s := withPoint 0 2#8 d3z2 (withPoint 1 4#8 d3z4 (withPoint 2 1#8 d3z1 (withLen 16)))
     let Q := (selectDistinct [] (s.points 3 s.len)).take 3
     lenOK s.len = true ∧ (∀ i < 3, 1 ≤ (at_ s (0x180 + i)).toNat ∧ (at_ s (0x180 + i)).toNat ≤ 16) ∧
      3 ≤ (selectDistinct [] (s.points 3 s.len)).length ∧
      verifyDigestShare hwConfig (interp Q 0x00#8 s.len) (interp Q 0xFE#8 s.len) = true) ∧
    (let s := withPoint 0 3#8 d1y3 (withPoint 1 2#8 d1y2 (withLen 16))
     let Q := (selectDistinct [] (s.points 2 s.len)).take 2
     lenOK s.len = true ∧ (∀ i < 2, 1 ≤ (at_ s (0x180 + i)).toNat ∧ (at_ s (0x180 + i)).toNat ≤ 16) ∧
      2 ≤ (selectDistinct [] (s.points 2 s.len)).length ∧ ¬ (selectDistinct [] (s.points 1 s.len)).length ≥ 2 ∧
      verifyDigestShare hwConfig (interp Q 0x00#8 s.len) (interp Q 0xFE#8 s.len) = false) ∧
    (let s := withPoint 0 1#8 [] (withPoint 1 17#8 [] (withLen 16))
     lenOK s.len = true ∧ ¬ (1 ≤ (s.px 1).toNat ∧ (s.px 1).toNat ≤ 16) ∧
      ∀ j < 1, 1 ≤ (s.px j).toNat ∧ (s.px j).toNat ≤ 16) := by decide +kernel

/-- A legal configuration, and a split whose draws the port delivers; with the shares of indices 2 and 0. -/
theorem witness_ShamirRecombineInvertsSplit :
    hwConfig.Legal ∧ lenOK (countUp 16).length = true ∧
    (∃ Y d', shamirSplit hwConfig 2 3 false (countUp 16) (deadAfter 16 State.reset).drawing = .drawn Y d') ∧
    [2, 0].Nodup ∧ (∀ i ∈ [2, 0], i < 3) ∧ 2 ≤ [2, 0].length := by
  exact ⟨by decide, by decide, exists_of_delivered (by decide +kernel), by decide, by decide, by decide⟩

theorem witness_DigestMakeStoresTheDigestBeforeTheSalt :
    lenOK (withLen 16).len = true ∧ lenOK (withLen 32).len = true ∧ lenOK State.reset.len = false := by decide

/-- The digest of vector H1, right and with one byte wrong (H4), and an illegal length. -/
theorem witness_DigestVerifyComparesTheWholeDigest :
    (let s := (withLen 16).store 0x400 (bytesOf [0x0F, 0x8B, 0x5E, 0x24] ++ rngA 12)
     lenOK s.len = true ∧ ∀ q (h : q < 4), at_ s (0x400 + q) = (hwConfig.digestFn (s.secretVec s.len) (s.rbufSalt s.len))[q]) ∧
    (let s := (withLen 16).store 0x400 (bytesOf [0x0E, 0x8B, 0x5E, 0x24] ++ rngA 12)
     lenOK s.len = true ∧
      ∃ q, ∃ h : q < 4, at_ s (0x400 + q) ≠ (hwConfig.digestFn (s.secretVec s.len) (s.rbufSalt s.len))[q]) ∧
    lenOK State.reset.len = false := by
  refine ⟨by decide +kernel, ⟨by decide +kernel, 0, by decide, by decide +kernel⟩, by decide⟩

theorem witness_EncodedSharesDecodeToTheirFields : lenOK (countUp 32).length = true ∧ 1 ≤ 16 ∧ 15 < 16 ∧ 15 ≤ 15 := by decide

/-- Each branch of the checks is taken, at the bounds 20, 21, 37, 38 of the length. -/
theorem witness_ShareDecodingChecksInOrder :
    20 < 21 ∧ (21 ≤ 38 ∧ 37 < 38) ∧ (21 ≤ 22 ∧ (22 - 5) % 2 = 1) ∧
    (¬ (37 < 21 ∨ (21 - 5) % 2 = 1) ∧ ((k1s0.set 4 0x05#8).getD 4 0x00#8).toNat % 16 ≠ 0) ∧
    (¬ (37 < 37 ∨ (37 - 5) % 2 = 1) ∧ ((k1s0.set 2 0x10#8).getD 2 0x00#8).toNat % 16 + 1 <
      ((k1s0.set 2 0x10#8).getD 2 0x00#8).toNat / 16 + 1) ∧
    ¬ ((k1s0.getD 2 0x00#8).toNat % 16 + 1 < (k1s0.getD 2 0x00#8).toNat / 16 + 1 ∨
      (k1s0.getD 2 0x00#8).toNat % 16 + 1 ≤ (k1s0.getD 3 0x00#8).toNat / 16) := by decide +kernel

/-- Two states whose slots differ only past the share's length. -/
theorem witness_BytesBeyondTheShareLengthAreIgnored :
    let s := withShare 255 k1s0 State.reset
    let s' := s.store (0x4000 + 64 * 255 + 21) [0xEE#8]
    255 < 256 ∧ s.ctrl.strict = s'.ctrl.strict ∧ s.slen 255 = s'.slen 255 ∧ s ≠ s' ∧
    ∀ j < s.slen 255, j < 64 → at_ s (0x4000 + 64 * 255 + j) = at_ s' (0x4000 + 64 * 255 + j) := by decide +kernel

/-- Vector C11's header (every field at its greatest legal value), and the headers of C3 and C7. -/
theorem witness_ShareEncodeStoresTheWireFormatOrRejects :
    (let s := ((withLen 32).writeReg .hdr 0x100F1010#32).writeReg .hdr2 15#32
     lenOK s.len = true ∧ 1 ≤ s.hdr.gt.toNat ∧ s.hdr.gt.toNat ≤ s.hdr.gc.toNat ∧ s.hdr.gc.toNat ≤ 16 ∧
      s.hdr.gi.toNat < s.hdr.gc.toNat ∧ 1 ≤ s.hdr.mt.toNat ∧ s.hdr.mt.toNat ≤ 16 ∧ s.hdr2.mi.toNat ≤ 15) ∧
    ((withLen 16).writeReg .hdr 0x02000100#32).hdr.gt.toNat < 1 ∧
    16 < ((withLen 16).writeReg .hdr 0x11000101#32).hdr.mt.toNat ∧ 15 < ((withLen 16).writeReg .hdr2 16#32).hdr2.mi.toNat := by
  decide +kernel

theorem witness_ShareDecodeWritesTheFieldsOrClearsThem :
    (∃ h, (withShare 255 k1s0 State.reset).decodeSlot (0xFF#8).toNat = .ok h) ∧
    (∃ r, State.reset.decodeSlot (0x00#8).toNat = .error r) :=
  ⟨exists_of_isOk (by decide +kernel), exists_of_not_isOk (by decide +kernel)⟩

/-- An illegal length, each illegal outer value, and a second group that is the first illegal one (K60 to K64). -/
theorem witness_SskrSplitValidatesInOrder :
    lenOK State.reset.len = false ∧ (withLen 16).splitcfg.gc.toNat < 1 ∧
    16 < ((withLen 16).writeReg .splitcfg 0x1101#32).splitcfg.gc.toNat ∧
    ((withLen 16).writeReg .splitcfg 0x0203#32).splitcfg.gc.toNat <
      ((withLen 16).writeReg .splitcfg 0x0203#32).splitcfg.gt.toNat ∧
    (let s := (((withLen 16).writeReg .splitcfg 0x0202#32).writeReg (.gspec 0) 0x0302#32).writeReg (.gspec 1) 0x0304#32
     lenOK s.len = true ∧ 1 ≤ s.splitcfg.gt.toNat ∧ s.splitcfg.gt.toNat ≤ s.splitcfg.gc.toNat ∧
      (s.groupSpec 1).mc.toNat < (s.groupSpec 1).mt.toNat ∧
      ¬ ((s.groupSpec 0).mt.toNat < 1 ∨ (s.groupSpec 0).mc.toNat < (s.groupSpec 0).mt.toNat ∨
        16 < (s.groupSpec 0).mc.toNat)) := by decide +kernel

/-- Vector K20's specification: two groups, 54 draws. -/
def k20 : State :=
  ((((withLen 16).store 0x100 (countUp 16)).writeReg .splitcfg 0x0202#32).writeReg (.gspec 0) 0x0302#32).writeReg (.gspec 1)
    0x0503#32

theorem witness_SskrSplitStoresEveryShare :
    SplitLegal (deadAfter 54 k20) ∧
    (deadAfter 54 k20).port.answers = (rngA 54).map PortAnswer.byte ++ [.unavailable] ∧
    (rngA 54).length = splitDraws (deadAfter 54 k20) := by
  unfold SplitLegal; decide +kernel

theorem witness_SskrSplitLeavesNothingWhenThePortRefuses :
    SplitLegal (deadAfter 53 k20) ∧
    (deadAfter 53 k20).port.answers = (rngA 53).map PortAnswer.byte ++ .unavailable :: [] ∧
    (rngA 53).length < splitDraws (deadAfter 53 k20) := by
  unfold SplitLegal; decide +kernel

/-- SHARECNT 0 and 257; a first slot that does not decode while the one before it does (K10). -/
theorem witness_SskrRecombineReportsTheFirstFailingPhase_counts :
    State.reset.sharecnt.toNat = 0 ∧ 256 < (State.reset.writeReg .sharecnt 257#32).sharecnt.toNat ∧
    (let s := withShare 1 (k1s1.take 20) (withShare 0 k1s0 State.reset)
     s.decodeSlot 1 = .error ⟨.truncatedShare, 1#16⟩ ∧ ∃ h, s.decodeSlot 0 = .ok h) := by
  exact ⟨by decide, by decide, by decide +kernel, exists_of_isOk (by decide +kernel)⟩

/-- The shares of a state, all decoded, with the first one. -/
def decodesAll (s : State) (hs : List DecodedShare) (h0 : DecodedShare) : Bool :=
  decide (hs.length = s.sharecnt.toNat) && decide (hs.head? = some h0) &&
    (List.range s.sharecnt.toNat).all fun k => decide (s.decodeSlot k = .ok (hs.getD k h0))

/-- The first fields of a state's shares. -/
def firstFields (s : State) : DecodedShare := readShareFields (s.shareSlot 0) (s.slen 0) 0

/-- Another identifier (K9), other parameters (K16), another member threshold (K13), a conflicting duplicate (K8), each at
slot 1 and not before. -/
theorem witness_SskrRecombineReportsTheFirstFailingPhase_phases :
    (let s := withShare 1 (k1s1.set 0 0x3C#8) (withShare 0 k1s0 State.reset)
     decodesAll s (slotFields s) (firstFields s) = true ∧ ((slotFields s).getD 1 (firstFields s)).id ≠ (firstFields s).id) ∧
    (let s := withShare 1 (k1s1 ++ [0#8, 0#8]) (withShare 0 k1s0 State.reset)
     decodesAll s (slotFields s) (firstFields s) = true ∧
      ((slotFields s).getD 1 (firstFields s)).id = (firstFields s).id ∧
      ((slotFields s).getD 1 (firstFields s)).payload.length ≠ (firstFields s).payload.length) ∧
    (let s := withShare 1 (k1s1.set 3 0x02#8) (withShare 0 k1s0 State.reset)
     decodesAll s (slotFields s) (firstFields s) = true ∧
      ((slotFields s).find? fun j => j.gi == ((slotFields s).getD 1 (firstFields s)).gi) = some (firstFields s) ∧
      ((slotFields s).getD 1 (firstFields s)).mt ≠ (firstFields s).mt) ∧
    (let s := withShare 1 (k1s0.set 20 0x8E#8) (withShare 0 k1s0 State.reset)
     decodesAll s (slotFields s) (firstFields s) = true ∧
      ((slotFields s).find? fun j => j.gi == ((slotFields s).getD 1 (firstFields s)).gi &&
        j.mi == ((slotFields s).getD 1 (firstFields s)).mi) = some (firstFields s) ∧
      ((slotFields s).getD 1 (firstFields s)).payload ≠ (firstFields s).payload) := by decide +kernel

/-- A set of shares that meets the consistency hypotheses. -/
def consistentSet (hs : List DecodedShare) (h0 : DecodedShare) : Bool :=
  (hs.all fun h => decide (h.id = h0.id ∧ h.payload.length = h0.payload.length ∧ h.gt = h0.gt ∧ h.gc = h0.gc)) &&
    hs.all fun h => hs.all fun j => decide (h.gi = j.gi → h.mt = j.mt ∧ (h.mi = j.mi → h.payload = j.payload))

/-- Vector K2: slots 2 and 0 of K1. -/
theorem witness_SskrRecombineStoresTheRecoveredSecret :
    let s := withShare 1 k1s0 (withShare 0 k1s2 State.reset)
    1 ≤ s.sharecnt.toNat ∧ s.sharecnt.toNat ≤ 256 ∧ decodesAll s (slotFields s) (firstFields s) = true ∧
    consistentSet (slotFields s) (firstFields s) = true ∧
    (firstFields s).gt ≤ (qualifyingGroups (keptShares (slotFields s))).length ∧
    recombineKept hwConfig (keptShares (slotFields s)) (firstFields s).payload.length (firstFields s).gt =
      .ok (List.replicate 16 0x00#8) := by decide +kernel

/-- One share of K1 (K5: too few groups), and shares 0 and 1 with a payload bit flipped (K7: group 0 is corrupt). -/
theorem witness_SskrRecombineReportsWeakOrCorruptGroups :
    (let s := withShare 0 k1s0 State.reset
     decodesAll s (slotFields s) (firstFields s) = true ∧ consistentSet (slotFields s) (firstFields s) = true ∧
      (qualifyingGroups (keptShares (slotFields s))).length < (firstFields s).gt) ∧
    (let s := withShare 1 (k1s1.set 5 0xB9#8) (withShare 0 k1s0 State.reset)
     let kept := keptShares (slotFields s)
     let Q := ((groupMembers kept 0).map memberPoint).take 2
     decodesAll s (slotFields s) (firstFields s) = true ∧ consistentSet (slotFields s) (firstFields s) = true ∧
      (firstFields s).gt ≤ (qualifyingGroups kept).length ∧ (qualifyingGroups kept).getD 0 0 = 0 ∧
      groupThreshold kept 0 = some 2 ∧
      verifyDigestShare hwConfig (interp Q 0x00#8 16) (interp Q 0xFE#8 16) = false) := by decide +kernel

/-- Two groups of threshold 1 whose group secrets are no digest-mode split: the outer level does not verify. -/
theorem witness_SskrRecombineReportsWeakOrCorruptGroups_outer :
    let s := withShare 1 (bytesOf [0x3D, 0x44, 0x11, 0x10, 0x00] ++ List.replicate 16 0xAA#8)
      (withShare 0 (bytesOf [0x3D, 0x44, 0x11, 0x00, 0x00] ++ countUp 16) State.reset)
    let kept := keptShares (slotFields s)
    let GS := [countUp 16, List.replicate 16 0xAA#8]
    let P : List Point := (List.range 2).map fun q =>
      ⟨BitVec.ofNat 8 ((qualifyingGroups kept).getD q 0 + 1), GS.getD q []⟩
    decodesAll s (slotFields s) (firstFields s) = true ∧ consistentSet (slotFields s) (firstFields s) = true ∧
      (firstFields s).gt = 2 ∧ (qualifyingGroups kept).length = 2 ∧
      (∀ q < 2, recombineGroup hwConfig kept 16 ((qualifyingGroups kept).getD q 0) = .ok (GS.getD q [])) ∧
      verifyDigestShare hwConfig (interp P 0x00#8 16) (interp P 0xFE#8 16) = false := by decide +kernel

theorem witness_SskrRecombinePreservesItsInputs : ∃ t, exec .sskrRecombine State.reset = .next t := ⟨_, rfl⟩

/-- K30's specification: it splits, and one of its two shares is enough. -/
def k30 : State := (((withLen 16).store 0x100 (countUp 16)).writeReg .splitcfg 0x0101#32).writeReg (.gspec 0) 0x0201#32

theorem witness_SskrRecombineInvertsSplit :
    hwConfig.Legal ∧ SplitLegal k30 ∧
    (∃ o d', sskrSplit hwConfig k30 (deadAfter 2 k30).drawing = .drawn o d' ∧ ∀ k ∈ [1], k < o.shares.length) ∧
    ([1] : List Nat) ≠ [] := by
  obtain ⟨o, d', h⟩ := exists_of_delivered (r := sskrSplit hwConfig k30 (deadAfter 2 k30).drawing) (by decide +kernel)
  refine ⟨by decide, by unfold SplitLegal; decide +kernel, ⟨o, d', h, ?_⟩, by decide⟩
  intro k hk
  obtain rfl := List.mem_singleton.mp hk
  have := (sskrSplit_lengths h).1
  rw [this]
  decide +kernel

/-- Two slots hold the second share of a split. -/
def secondShareTwice (V : List Byte) : State := withShare 1 V (withShare 0 V State.reset)

/-- What `witness_SskrRecombineCommandInvertsSplit` asks of a split, as a check. -/
def presentsSecondShareTwice (o : SplitOutput) : Bool :=
  let V := o.shares.getD 1 []
  let u := secondShareTwice V
  decide (1 < o.shares.length) && u.sharecnt == 2#16 && (List.range 2).all fun j =>
    u.slen j == 5 + k30.len && (List.range (5 + k30.len)).all fun p => at_ u (0x4000 + 64 * j + p) == V.getD p 0x00#8

/-- K30's split, of which a recombine is given the second share twice. -/
theorem witness_SskrRecombineCommandInvertsSplit :
    SplitLegal k30 ∧ ∃ o d', sskrSplit hwConfig k30 (deadAfter 2 k30).drawing = .drawn o d' ∧ 1 < o.shares.length ∧
      (secondShareTwice (o.shares.getD 1 [])).sharecnt.toNat = 2 ∧
      ∀ j < 2, (secondShareTwice (o.shares.getD 1 [])).slen j = 5 + k30.len ∧
        ∀ p < 5 + k30.len,
          at_ (secondShareTwice (o.shares.getD 1 [])) (0x4000 + 64 * j + p) = (o.shares.getD 1 []).getD p 0x00#8 := by
  obtain ⟨o, d', h⟩ := exists_of_delivered (r := sskrSplit hwConfig k30 (deadAfter 2 k30).drawing) (by decide +kernel)
  have hp : (match sskrSplit hwConfig k30 (deadAfter 2 k30).drawing with
      | .drawn o _ => presentsSecondShareTwice o
      | _ => false) = true := by decide +kernel
  rw [h] at hp
  simp only [presentsSecondShareTwice, Bool.and_eq_true, decide_eq_true_eq, beq_iff_eq, List.all_eq_true,
    List.mem_range] at hp
  exact ⟨by unfold SplitLegal; decide +kernel, o, d', h, hp.1.1, by rw [hp.1.2]; rfl, hp.2⟩

theorem witness_NopOnlyCompletes : State.reset.status.busy = false ∧ State.reset.schedule = [] := ⟨rfl, rfl⟩

theorem witness_ZeroizeClearsBuffersAndKeepsConfiguration :
    (State.reset.issue 0x000000FF#32).Inv ∧ (State.reset.issue 0x000000FF#32).latch = some 0x000000FF#32 ∧
    (State.reset.issue 0x000000FF#32).schedule = [] := by
  refine ⟨⟨by decide, by decide, by decide, by decide, by decide, by decide, ?_, by decide, by decide, by decide⟩, rfl, rfl⟩
  intro w hw
  obtain rfl : 0x000000FF#32 = w := Option.some.inj hw
  rfl

end Sys2Proof.Tests
end

/-! The registers as the host sees them (10_state.md R21 to R34): every reading is a concatenation of fields, so a mask
that is written as a concatenation of the same widths acts on it field by field. -/

namespace Sys2Proof.Machine

open Sys2Proof

/-! ### A written word, cut into the fields of a register -/

/-- The halves of a word: the reserved one of R27, R30, R31 and R33, and the one with their fields. -/
theorem halves_append (v : Word) : v.extractLsb' 16 16 ++ v.extractLsb' 0 16 = v :=
  BitVec.extractLsb'_append_extractLsb'

/-- The two low bytes of a word, the fields of SPLITCFG (R30) and of a GSPEC register (R33). -/
theorem lowBytes_append (v : Word) : v.extractLsb' 8 8 ++ v.extractLsb' 0 8 = v.extractLsb' 0 16 :=
  BitVec.extractLsb'_append_extractLsb'_eq_extractLsb' rfl

/-- The four bytes of a word, the fields of HDR (R28). -/
theorem bytes_append (v : Word) :
    v.extractLsb' 24 8 ++ v.extractLsb' 16 8 ++ v.extractLsb' 8 8 ++ v.extractLsb' 0 8 = v := by
  have hhi : v.extractLsb' 24 8 ++ v.extractLsb' 16 8 = v.extractLsb' 16 16 :=
    BitVec.extractLsb'_append_extractLsb'_eq_extractLsb' rfl
  have hmid : v.extractLsb' 16 16 ++ v.extractLsb' 8 8 = v.extractLsb' 8 24 :=
    BitVec.extractLsb'_append_extractLsb'_eq_extractLsb' rfl
  rw [hhi, hmid]
  exact BitVec.extractLsb'_append_extractLsb'

/-- The fields of CTRL (R22) and the reserved bits about them. -/
theorem ctrlFields_append (v : Word) :
    v.extractLsb' 14 18 ++ v.extractLsb' 8 6 ++ v.extractLsb' 2 6 ++ BitVec.ofBool (v.getLsbD 1) ++
      BitVec.ofBool (v.getLsbD 0) = v := by
  have hbit : ∀ i, BitVec.ofBool (v.getLsbD i) = v.extractLsb' i 1 := fun i => by
    ext j hj
    obtain rfl : j = 0 := Nat.lt_one_iff.mp hj
    simp
  have hlen : v.extractLsb' 14 18 ++ v.extractLsb' 8 6 = v.extractLsb' 8 24 :=
    BitVec.extractLsb'_append_extractLsb'_eq_extractLsb' rfl
  have hgap : v.extractLsb' 8 24 ++ v.extractLsb' 2 6 = v.extractLsb' 2 30 :=
    BitVec.extractLsb'_append_extractLsb'_eq_extractLsb' rfl
  have hie : v.extractLsb' 2 30 ++ v.extractLsb' 1 1 = v.extractLsb' 1 31 :=
    BitVec.extractLsb'_append_extractLsb'_eq_extractLsb' rfl
  rw [hbit, hbit, hlen, hgap, hie]
  exact BitVec.extractLsb'_append_extractLsb'

/-- The writable bits of a register whose fields fill the low half. -/
theorem zero_append_low_half (v : Word) : 0#16 ++ v.extractLsb' 0 16 = v &&& 0x0000FFFF#32 :=
  calc 0#16 ++ v.extractLsb' 0 16
      = (v.extractLsb' 16 16 ++ v.extractLsb' 0 16) &&& (0#16 ++ BitVec.allOnes 16) := by
          simp only [BitVec.and_append, BitVec.and_zero, BitVec.and_allOnes]
    _ = v &&& 0x0000FFFF#32 := by rw [halves_append]; rfl

/-! ### What a register reads after it is written (R34) -/

theorem readReg_writeReg_ctrl (s : State) (v : Word) : (s.writeReg .ctrl v).readReg .ctrl = v &&& 0x00003F03#32 :=
  calc 0#18 ++ v.extractLsb' 8 6 ++ 0#6 ++ BitVec.ofBool (v.getLsbD 1) ++ BitVec.ofBool (v.getLsbD 0)
      = (v.extractLsb' 14 18 ++ v.extractLsb' 8 6 ++ v.extractLsb' 2 6 ++ BitVec.ofBool (v.getLsbD 1) ++
          BitVec.ofBool (v.getLsbD 0)) &&&
        (0#18 ++ BitVec.allOnes 6 ++ 0#6 ++ BitVec.allOnes 1 ++ BitVec.allOnes 1) := by
          simp only [BitVec.and_append, BitVec.and_zero, BitVec.and_allOnes]
    _ = v &&& 0x00003F03#32 := by rw [ctrlFields_append]; rfl

theorem readReg_writeReg_ident (s : State) (v : Word) : (s.writeReg .ident v).readReg .ident = v &&& 0x0000FFFF#32 :=
  zero_append_low_half v

theorem readReg_writeReg_hdr (s : State) (v : Word) : (s.writeReg .hdr v).readReg .hdr = v := bytes_append v

/-- HDR2.RSV and HDR2.PLEN are read-only (R29). -/
theorem readReg_writeReg_hdr2 (s : State) (v : Word) :
    (s.writeReg .hdr2 v).readReg .hdr2 = (v &&& 0x000000FF#32) ||| (s.readReg .hdr2 &&& 0x00FF0F00#32) := by
  have hv : v &&& 0x000000FF#32 = 0#8 ++ 0#8 ++ 0#4 ++ 0#4 ++ v.extractLsb' 0 8 :=
    calc v &&& 0x000000FF#32
        = (v.extractLsb' 24 8 ++ v.extractLsb' 16 8 ++ v.extractLsb' 8 8 ++ v.extractLsb' 0 8) &&&
          (0#8 ++ 0#8 ++ 0#8 ++ BitVec.allOnes 8) := by rw [bytes_append]; rfl
      _ = 0#8 ++ 0#8 ++ 0#8 ++ v.extractLsb' 0 8 := by
          simp only [BitVec.and_append, BitVec.and_zero, BitVec.and_allOnes]
  have hs : s.readReg .hdr2 &&& 0x00FF0F00#32 = 0#8 ++ s.hdr2.plen ++ 0#4 ++ s.hdr2.rsv ++ 0#8 := by
    change (0#8 ++ s.hdr2.plen ++ 0#4 ++ s.hdr2.rsv ++ s.hdr2.mi) &&&
      (0#8 ++ BitVec.allOnes 8 ++ 0#4 ++ BitVec.allOnes 4 ++ 0#8) = _
    simp only [BitVec.and_append, BitVec.and_zero, BitVec.and_allOnes]
  rw [hv, hs]
  change _ = (0#8 ++ 0#8 ++ 0#4 ++ 0#4 ++ v.extractLsb' 0 8) ||| (0#8 ++ s.hdr2.plen ++ 0#4 ++ s.hdr2.rsv ++ 0#8)
  simp only [BitVec.or_append, BitVec.zero_or, BitVec.or_zero]
  rfl

theorem readReg_writeReg_splitcfg (s : State) (v : Word) :
    (s.writeReg .splitcfg v).readReg .splitcfg = v &&& 0x0000FFFF#32 := by
  rw [← zero_append_low_half, ← lowBytes_append]
  exact BitVec.append_assoc

theorem readReg_writeReg_sharecnt (s : State) (v : Word) :
    (s.writeReg .sharecnt v).readReg .sharecnt = v &&& 0x0000FFFF#32 :=
  zero_append_low_half v

theorem readReg_writeReg_gspec (s : State) (g : Fin 16) (v : Word) :
    (s.writeReg (.gspec g) v).readReg (.gspec g) = v &&& 0x0000FFFF#32 := by
  rw [← zero_append_low_half, ← lowBytes_append]
  simp only [State.writeReg, State.readReg, Fin.getElem_fin, Vector.getElem_set_self]
  exact BitVec.append_assoc

/-! ### What a register write leaves unchanged (R34) -/

/-- Apart from CMD, whose write issues a command, a register write changes no other register's reading. -/
theorem readReg_writeReg_of_ne (s : State) (v : Word) {r r' : Reg} (hne : r ≠ r') (hcmd : r ≠ .cmd) :
    (s.writeReg r v).readReg r' = s.readReg r' := by
  cases r with
  | cmd => contradiction
  | id | result | errinfo | rngcnt => rfl
  | gspec g =>
    cases r' with
    | gspec g' =>
      have hval : g.val ≠ g'.val := fun h => hne (congrArg Reg.gspec (Fin.ext h))
      simp only [State.writeReg, State.readReg, Fin.getElem_fin, Vector.getElem_set_ne _ _ hval]
    | _ => rfl
  | ctrl | status | ident | hdr | hdr2 | splitcfg | sharecnt =>
    cases r' <;> simp [State.writeReg, State.readReg] at hne ⊢

theorem writeReg_mem (s : State) (v : Word) {r : Reg} (hcmd : r ≠ .cmd) : (s.writeReg r v).mem = s.mem := by
  cases r <;> simp [State.writeReg] at hcmd ⊢

/-- ID, RESULT, ERRINFO and RNGCNT have no writable bit. -/
theorem writeReg_readOnly (s : State) (v : Word) {r : Reg} (hr : r ∈ [Reg.id, .result, .errinfo, .rngcnt]) :
    s.writeReg r v = s := by
  simp only [List.mem_cons, List.not_mem_nil, or_false] at hr
  obtain rfl | rfl | rfl | rfl := hr <;> rfl

/-! ### Reserved bits -/

/-- The reserved half of a register whose fields fill the low half. -/
theorem zero_append_and_high_half (x : BitVec 16) : (0#16 ++ x) &&& 0xFFFF0000#32 = 0#32 := by
  change (0#16 ++ x) &&& (BitVec.allOnes 16 ++ 0#16) = 0#32
  simp only [BitVec.and_append, BitVec.zero_and, BitVec.and_zero, BitVec.zero_append_zero]

/-- Each mask of reserved bits, cut at the register's fields, is all ones where the reading is 0 and 0 at a field. -/
theorem readReg_and_reservedBits (s : State) (r : Reg) : s.readReg r &&& Claims.reservedBits r = 0#32 := by
  cases r with
  | id | cmd | hdr | rngcnt => exact BitVec.and_zero
  | ctrl =>
    change (0#18 ++ s.ctrl.len ++ 0#6 ++ BitVec.ofBool s.ctrl.ie ++ BitVec.ofBool s.ctrl.strict) &&&
      (BitVec.allOnes 18 ++ 0#6 ++ BitVec.allOnes 6 ++ 0#1 ++ 0#1) = 0#32
    simp only [BitVec.and_append, BitVec.zero_and, BitVec.and_zero, BitVec.zero_append_zero]
  | status =>
    change (0#8 ++ s.status.lastop ++ errcodeField s.status.errcode ++ 0#1 ++ s.status.phase.code ++ 0#1 ++
        BitVec.ofBool (errFlag s.status) ++ BitVec.ofBool s.status.done ++ BitVec.ofBool s.status.busy) &&&
      (BitVec.allOnes 8 ++ 0#8 ++ 0#8 ++ BitVec.allOnes 1 ++ 0#3 ++ BitVec.allOnes 1 ++ 0#1 ++ 0#1 ++ 0#1) = 0#32
    simp only [BitVec.and_append, BitVec.zero_and, BitVec.and_zero, BitVec.zero_append_zero]
  | result =>
    change (0#24 ++ s.result) &&& (BitVec.allOnes 24 ++ 0#8) = 0#32
    simp only [BitVec.and_append, BitVec.zero_and, BitVec.and_zero, BitVec.zero_append_zero]
  | hdr2 =>
    change (0#8 ++ s.hdr2.plen ++ 0#4 ++ s.hdr2.rsv ++ s.hdr2.mi) &&&
      (BitVec.allOnes 8 ++ 0#8 ++ BitVec.allOnes 4 ++ 0#4 ++ 0#8) = 0#32
    simp only [BitVec.and_append, BitVec.zero_and, BitVec.and_zero, BitVec.zero_append_zero]
  | errinfo | ident | sharecnt => exact zero_append_and_high_half _
  | splitcfg | gspec g =>
    simp only [State.readReg, BitVec.append_assoc]
    exact zero_append_and_high_half _

/-! ### The offset of each register -/

/-- While BUSY = 0 a word access at a register's offset has the register as its target (R61, R64). -/
theorem target_of_offset {s : State} (hidle : s.status.busy = false) (isWrite : Bool) {off : BitVec 16} {r : Reg}
    (hoff : r.offset = off.toNat) : s.target isWrite off .word = some (.register r) := by
  rw [State.target_idle s isWrite off .word hidle]
  simp only [accessTarget, (regAt_eq_some _ _).mpr hoff, if_true]

theorem reaches_of_offset {s : State} (hidle : s.status.busy = false) (v : Word) {off : BitVec 16} {r : Reg}
    (hoff : r.offset = off.toNat) : Claims.reaches s v off r := by
  have htarget := fun isWrite => target_of_offset hidle isWrite hoff
  simp only [Claims.reaches, State.busRead, State.busWriteResponse, State.busWrite, htarget, State.readTarget,
    State.writeTarget, and_self]

theorem registerMap_offset : ∀ m ∈ Claims.registerMap, m.2.offset = m.1.toNat := by decide

theorem gspec_offset (g : Fin 16) : (Reg.gspec g).offset = (BitVec.ofNat 16 (0x040 + 4 * g.val)).toNat := by
  simp only [Reg.offset, BitVec.toNat_ofNat]
  omega

/-- Settles O24: what the written register reads, the frame of the write, the reserved bits and the offsets. -/
theorem registerWritesChangeOnlyWritableBits : Obligations.RegisterWritesChangeOnlyWritableBits := by
  intro s v
  have hgspec : ∀ g, (s.writeReg (.gspec g) v).readReg (.gspec g) = v &&& 0x0000FFFF#32 ∧
      ∀ g', g' ≠ g → (s.writeReg (.gspec g) v).readReg (.gspec g') = s.readReg (.gspec g') := fun g =>
    ⟨readReg_writeReg_gspec s g v,
      fun g' hne => readReg_writeReg_of_ne s v (fun h => hne (Reg.gspec.inj h).symm) Reg.noConfusion⟩
  have hreaches : s.status.busy = false → (∀ m ∈ Claims.registerMap, Claims.reaches s v m.1 m.2) ∧
      ∀ g : Fin 16, Claims.reaches s v (BitVec.ofNat 16 (0x040 + 4 * g.val)) (.gspec g) := fun hidle =>
    ⟨fun m hm => reaches_of_offset hidle v (registerMap_offset m hm),
      fun g => reaches_of_offset hidle v (gspec_offset g)⟩
  exact ⟨readReg_writeReg_ctrl s v, readReg_writeReg_ident s v, readReg_writeReg_hdr s v, readReg_writeReg_hdr2 s v,
    readReg_writeReg_splitcfg s v, readReg_writeReg_sharecnt s v, hgspec, fun _ hr => writeReg_readOnly s v hr, rfl, rfl,
    fun _ _ => readReg_writeReg_of_ne s v, fun _ => writeReg_mem s v, readReg_and_reservedBits s, hreaches⟩

end Sys2Proof.Machine

/-! The host bus (20_memory.md R61 to R66): which accesses have a target, and what a host sees of one that has none. Both
statements about bus errors are facts about `State.target`, which alone decides how an access completes. -/

namespace Sys2Proof.Machine

open Sys2Proof

/-! ### The target decides how an access completes (R60, R63) -/

section Accesses

variable {s : State} {isWrite : Bool} {addr : BitVec 16} {w : Width} {t : Target}

theorem State.busRead_of_target (h : s.target false addr w = some t) : s.busRead addr w = .readOkay (s.readTarget t) := by
  simp only [State.busRead, h]

theorem State.busWrite_of_target (v : Word) (h : s.target true addr w = some t) :
    s.busWrite addr w v = s.writeTarget t v := by
  simp only [State.busWrite, h]

theorem State.busWriteResponse_of_target (h : s.target true addr w = some t) :
    s.busWriteResponse addr w = .writeOkay := by
  simp only [State.busWriteResponse, h]

theorem State.busRead_of_no_target (h : s.target false addr w = none) : s.busRead addr w = .error := by
  simp only [State.busRead, h]

/-- A write that has no target is a bus error and stores nothing (R306). -/
theorem State.busWrite_of_no_target (v : Word) (h : s.target true addr w = none) :
    s.busWriteResponse addr w = .error ∧ s.busWrite addr w v = s := by
  simp only [State.busWriteResponse, State.busWrite, h, and_self]

/-! ### Which accesses have a target (R61 to R66) -/

/-- Register accesses are word accesses (R61). -/
theorem Width.bytes_eq_four : w.bytes = 4 ↔ w = .word := by cases w <;> decide

/-- The model's map is the table of R61 and R62: an offset that names a register takes a word access only, and every other
offset takes the legal buffer accesses; no register's offset lies in a buffer. -/
theorem accessTarget_eq_none : accessTarget addr w = none ↔ ¬ Claims.mappedAccess addr.toNat w.bytes := by
  unfold accessTarget Claims.mappedAccess
  rw [← bufferAccessLegal_iff]
  cases hreg : regAt addr.toNat with
  | some r =>
    have hat : addr.toNat % 4 = 0 ∧ (addr.toNat < 0x30 ∨ (0x40 ≤ addr.toNat ∧ addr.toNat < 0x80)) :=
      not_not.mp fun h => Option.some_ne_none r (hreg.symm.trans ((regAt_eq_none _).mpr h))
    have hbuf : ¬ bufferAccessLegal addr.toNat w.bytes = true := by
      rw [bufferAccessLegal_iff]
      omega
    simp [hat, hbuf, Width.bytes_eq_four]
  | none =>
    have hat := (regAt_eq_none _).mp hreg
    simp [hat]

/-- An access outside the map has no target, whatever is pending (R64, R65). -/
theorem State.target_of_unmapped (s : State) (isWrite : Bool) (h : ¬ Claims.mappedAccess addr.toNat w.bytes) :
    s.target isWrite addr w = none := by
  simp only [State.target, accessTarget_eq_none.mpr h]

/-- While BUSY = 0 an access of the map has a target. -/
theorem State.target_of_mapped (isWrite : Bool) (hidle : s.status.busy = false)
    (h : Claims.mappedAccess addr.toNat w.bytes) : ∃ t, s.target isWrite addr w = some t := by
  rw [State.target_idle s isWrite addr w hidle, ← Option.ne_none_iff_exists']
  exact fun hnone => accessTarget_eq_none.mp hnone h

/-- While BUSY = 1 only the accesses of R66 have a target. -/
theorem State.acceptedAccess_of_target_busy (hbusy : s.status.busy = true) (h : s.target isWrite addr w = some t) :
    Claims.acceptedAccess isWrite addr w := by
  cases t with
  | buffer a n =>
    obtain ⟨hidle, -⟩ := State.target_buffer h
    simp [hidle] at hbusy
  | register r =>
    obtain ⟨hword, hoff, haccept⟩ := State.target_register h
    refine ⟨hword, ?_⟩
    cases r with
    | id => exact .inr ⟨BitVec.eq_of_toNat_eq hoff.symm, by simpa [acceptedWhileBusy] using haccept hbusy⟩
    | status => exact .inl (BitVec.eq_of_toNat_eq hoff.symm)
    | _ => exact absurd (haccept hbusy) (by simp [acceptedWhileBusy])

theorem State.target_busy_of_not_accepted (hbusy : s.status.busy = true) (h : ¬ Claims.acceptedAccess isWrite addr w) :
    s.target isWrite addr w = none :=
  Option.eq_none_iff_forall_ne_some.mpr fun _ ht => h (State.acceptedAccess_of_target_busy hbusy ht)

/-- A word access at a register's offset that R66 accepts reaches the register, whatever is pending. -/
theorem State.target_of_accepted (s : State) {r : Reg} (hoff : r.offset = addr.toNat)
    (haccept : acceptedWhileBusy isWrite (.register r) = true) :
    s.target isWrite addr .word = some (.register r) := by
  simp [State.target, accessTarget, (regAt_eq_some _ _).mpr hoff, haccept]

end Accesses

/-! ### The obligations -/

/-- Settles O20: a refused access has no target, and ID and STATUS keep theirs. -/
theorem busyMachineAcceptsOnlyIdAndStatus : Obligations.BusyMachineAcceptsOnlyIdAndStatus := by
  intro s addr w v hbusy
  have hid : s.target false 0x000#16 .word = some (.register .id) := s.target_of_accepted rfl rfl
  have hstatus : ∀ isWrite, s.target isWrite 0x008#16 .word = some (.register .status) :=
    fun _ => s.target_of_accepted rfl rfl
  exact ⟨fun h => State.busRead_of_no_target (State.target_busy_of_not_accepted hbusy h),
    fun h => State.busWrite_of_no_target v (State.target_busy_of_not_accepted hbusy h),
    State.busRead_of_target hid, State.busRead_of_target (hstatus false),
    State.busWriteResponse_of_target (hstatus true), State.busWrite_of_target v (hstatus true)⟩

/-- Settles O21: the map decides which accesses have a target. -/
theorem exactlyTheMappedAccessesComplete : Obligations.ExactlyTheMappedAccessesComplete := by
  constructor
  · intro s addr w v hunmapped
    exact ⟨State.busRead_of_no_target (s.target_of_unmapped false hunmapped),
      State.busWrite_of_no_target v (s.target_of_unmapped true hunmapped)⟩
  · intro s addr w hidle hmapped
    obtain ⟨t, hread⟩ := State.target_of_mapped false hidle hmapped
    obtain ⟨t', hwrite⟩ := State.target_of_mapped true hidle hmapped
    rw [State.busRead_of_target hread]
    exact ⟨BusResponse.noConfusion, State.busWriteResponse_of_target hwrite⟩

end Sys2Proof.Machine

/-! The decoder's refusals (30_encoding.md R94 to R96): which words it refuses, and how such a word is issued and
completes. The opcode alone decides which must-be-zero fields are checked (R90), so a word is taken by its opcode. -/

namespace Sys2Proof

/-! ### The opcode map (R92, R95) -/

/-- The decoder and the column OPC of the map name the same opcode. -/
theorem decodeOpcode_eq_some {opc : Byte} {op : Opcode} : decodeOpcode opc = some op ↔ opc = op.toByte := by
  constructor
  · intro h
    unfold decodeOpcode at h
    split at h <;> cases h <;> exact BitVec.eq_of_toNat_eq ‹_›
  · rintro rfl
    cases op <;> rfl

/-- The unassigned opcodes are the gaps of the map. -/
theorem unassigned_of_decodeOpcode_eq_none {opc : Byte} (h : decodeOpcode opc = none) :
    (0x04 ≤ opc.toNat ∧ opc.toNat ≤ 0x0F) ∨ (0x11 ≤ opc.toNat ∧ opc.toNat ≤ 0x1F) ∨
      (0x22 ≤ opc.toNat ∧ opc.toNat ≤ 0x2F) ∨ (0x32 ≤ opc.toNat ∧ opc.toNat ≤ 0x3F) ∨
      (0x42 ≤ opc.toNat ∧ opc.toNat ≤ 0x4F) ∨ (0x52 ≤ opc.toNat ∧ opc.toNat ≤ 0xFE) := by
  have hlt := opc.isLt
  unfold decodeOpcode at h
  split at h
  case h_15 => -- the arm of every number that is not in the map
    simp only [imp_false] at *
    omega
  all_goals cases h

/-! ### The must-be-zero fields (R91, R94) -/

/-- The zero bits C[7:1] of format S leave 0 and 1. -/
theorem and_0xFE_eq_zero_iff : ∀ c : Byte, c &&& 0xFE#8 = 0#8 ↔ c.toNat < 2 := by decide

/-- A field marked 0 in the format's row is not zero (R91), as the claim's numbers say it. -/
def Format.NonzeroField : Format → CommandWord → Prop
  | .z, f => ¬ (f.a.toNat = 0 ∧ f.b.toNat = 0 ∧ f.c.toNat = 0)
  | .g2, f | .l, f => f.c.toNat ≠ 0
  | .g1, f | .k, f => ¬ (f.b.toNat = 0 ∧ f.c.toNat = 0)
  | .s, f => 2 ≤ f.c.toNat

theorem Format.mustBeZeroOk_eq_false_iff (fmt : Format) (f : CommandWord) :
    fmt.mustBeZeroOk f = false ↔ fmt.NonzeroField f := by
  rw [← Bool.not_eq_true]
  cases fmt with
  | z | g2 | g1 | l | k => simp [Format.mustBeZeroOk, Format.NonzeroField, ← BitVec.toNat_inj, and_assoc]
  | s => simp only [Format.mustBeZeroOk, Format.NonzeroField, beq_iff_eq, and_0xFE_eq_zero_iff, not_lt]

/-! ### When the decoder refuses (R90, R94, R95) -/

theorem decode_error_of_unassigned {w : Word} (h : decodeOpcode (w.extractLsb' 0 8) = none) :
    decode w = .error (.unassignedOpcode (w.extractLsb' 0 8)) := by
  simp only [decode, decodeFields, CommandWord.ofWord, h]

/-- A word with an assigned opcode is refused for its must-be-zero fields only. -/
theorem exists_decode_error_iff_of_assigned {w : Word} {op : Opcode} (h : decodeOpcode (w.extractLsb' 0 8) = some op) :
    (∃ e, decode w = .error e) ↔ op.format.NonzeroField (CommandWord.ofWord w) := by
  rw [← Format.mustBeZeroOk_eq_false_iff]
  have hopc : decodeOpcode (CommandWord.ofWord w).opc = some op := h
  cases hz : op.format.mustBeZeroOk (CommandWord.ofWord w) <;> simp [decode, decodeFields, hopc, hz]

theorem wordIsIllegal_of_unassigned {w : Word} (h : decodeOpcode (w.extractLsb' 0 8) = none) :
    Claims.wordIsIllegal w := by
  have hgap := unassigned_of_decodeOpcode_eq_none h
  unfold Claims.wordIsIllegal
  tauto

/-- An assigned opcode lies in no gap, so the claim's clause for it is that of its format. -/
theorem wordIsIllegal_iff_of_assigned {w : Word} {op : Opcode} (h : decodeOpcode (w.extractLsb' 0 8) = some op) :
    Claims.wordIsIllegal w ↔ op.format.NonzeroField (CommandWord.ofWord w) := by
  unfold Claims.wordIsIllegal
  rw [decodeOpcode_eq_some.mp h]
  cases op <;> simp [Opcode.toByte, Opcode.format, Format.NonzeroField, CommandWord.ofWord]

theorem wordIsIllegal_iff_decode_error (w : Word) : Claims.wordIsIllegal w ↔ ∃ e, decode w = .error e := by
  cases h : decodeOpcode (w.extractLsb' 0 8) with
  | none => exact iff_of_true (wordIsIllegal_of_unassigned h) ⟨_, decode_error_of_unassigned h⟩
  | some op => rw [wordIsIllegal_iff_of_assigned h, exists_decode_error_iff_of_assigned h]

end Sys2Proof

namespace Sys2Proof.Machine

open Sys2Proof

/-! ### The issue of a word (R24, R300) -/

/-- While BUSY = 0 a word write of CMD completes and issues the word, whether it is legal or not. -/
theorem State.busWrite_cmd {s : State} (hidle : s.status.busy = false) (w : Word) :
    s.busWriteResponse 0x00C#16 .word = .writeOkay ∧ s.busWrite 0x00C#16 .word w = s.issue w := by
  have htarget : s.target true 0x00C#16 .word = some (.register .cmd) := target_of_offset hidle true rfl
  exact ⟨State.busWriteResponse_of_target htarget, State.busWrite_of_target w htarget⟩

/-- The one word that is issued in phase COLLECTING is legal. -/
theorem issuePhase_of_decode_error {w : Word} {e : Illegal} (h : decode w = .error e) : issuePhase w = .executing := by
  refine if_neg ?_
  rintro rfl
  have hlegal : decode 0x00000041#32 = .ok .sskrRecombine := by decide
  cases hlegal.symm.trans h

/-- The whole effect of the issue of an illegal word. -/
theorem State.issue_of_decode_error {w : Word} {e : Illegal} (h : decode w = .error e) (s : State) :
    s.issue w =
      { s with latch := some w, status := ⟨true, false, .executing, none, w.extractLsb' 0 8⟩, errinfo := 0xFFFF#16,
               rngcnt := 0#32, irq := false, drawn := 0 } := by
  simp only [State.issue, issueStatus, issuePhase_of_decode_error h, infoCommand, irqLevel, Bool.false_and]

/-! ### The completion of a pending word (R96, R301) -/

/-- With a word latched and no turn scheduled the next step completes the word. -/
theorem step_of_pending {s : State} {w : Word} (hbusy : s.status.busy = true) (hlatch : s.latch = some w)
    (hsched : s.schedule = []) : step s = completeWord w s := by
  have hagent : s.nextAgent = .engine := by simp only [State.nextAgent, hsched, hbusy, if_true]
  have hturn : s.takeTurn = s := by simp only [State.takeTurn, hsched]
  rw [step_engine s hagent, hturn]
  simp only [engineStep, hbusy, hlatch, if_true]

theorem completeWord_of_decode_error {w : Word} {e : Illegal} (h : decode w = .error e) (s : State) :
    completeWord w s = execIllegal s := by
  simp only [completeWord, h]

/-- The whole effect of IllegalCommand(0xFFFF). -/
theorem execIllegal_eq (s : State) :
    execIllegal s = .next { s with status := Claims.errStatus s .illegalCommand, errinfo := 0xFFFF#16, latch := none,
                                   irq := s.ctrl.ie } := rfl

/-- Settles O4: the refused words by their opcode, their issue as any word's, and their completion. -/
theorem illegalWordsCompleteAsIllegalCommand : Obligations.IllegalWordsCompleteAsIllegalCommand := by
  refine ⟨wordIsIllegal_iff_decode_error, fun s w hillegal hidle => ?_, fun s w hillegal hbusy hlatch hsched => ?_⟩
  · obtain ⟨e, he⟩ := (wordIsIllegal_iff_decode_error w).mp hillegal
    obtain ⟨hresponse, hissue⟩ := State.busWrite_cmd hidle w
    exact ⟨hresponse, hissue.trans (State.issue_of_decode_error he s)⟩
  · obtain ⟨e, he⟩ := (wordIsIllegal_iff_decode_error w).mp hillegal
    rw [step_of_pending hbusy hlatch hsched, completeWord_of_decode_error he, execIllegal_eq]

end Sys2Proof.Machine

/-! The commands of 41_gf_arith.md. A bit vector stands for a polynomial over GF(2), and R121's two loops are followed
in the quotient ring GF(2)[x] / FIELD_POLY: there the first loop is the product and the second changes nothing. The laws
of ⊗ are then those of the ring. -/

namespace Sys2Proof.Machine

open Sys2Proof Sys2Proof.Claims Polynomial

/-! ### The polynomial of a bit vector (R121) -/

/-- The polynomial over GF(2) whose coefficients are the bits of `x`, for the bytes and the 16-bit value r of R121. -/
noncomputable def bitsPoly {n : Nat} (x : BitVec n) : (ZMod 2)[X] :=
  ∑ i ∈ Finset.range n, if x.getLsbD i then X ^ i else 0

theorem bytePoly_eq_bitsPoly (b : Byte) : bytePoly b = bitsPoly b := rfl

theorem coeff_bitsPoly {n : Nat} (x : BitVec n) (j : Nat) :
    (bitsPoly x).coeff j = if x.getLsbD j then 1 else 0 := by
  have hterm (i : Nat) : (if x.getLsbD i then X ^ i else 0 : (ZMod 2)[X]).coeff j =
      if j = i then (if x.getLsbD j then 1 else 0) else 0 := by
    rw [apply_ite (fun p : (ZMod 2)[X] => p.coeff j), coeff_X_pow, coeff_zero]
    grind
  rw [bitsPoly, finsetSum_coeff, Finset.sum_congr rfl fun i _ => hterm i, Finset.sum_ite_eq]
  by_cases hj : j < n
  · rw [if_pos (Finset.mem_range.mpr hj)]
  · simp [hj, BitVec.getLsbD_of_ge x j (not_lt.mp hj)]

theorem degree_bitsPoly_lt {n : Nat} (x : BitVec n) : (bitsPoly x).degree < n := by
  rw [degree_lt_iff_coeff_zero]
  intro j hj
  rw [coeff_bitsPoly, BitVec.getLsbD_of_ge x j hj]
  exact if_neg Bool.false_ne_true

theorem bitsPoly_injective {n : Nat} : Function.Injective (bitsPoly : BitVec n → (ZMod 2)[X]) := by
  intro x y h
  have hbit (z : BitVec n) (j : Nat) : z.getLsbD j = true ↔ (bitsPoly z).coeff j = 1 := by
    simp [coeff_bitsPoly]
  refine BitVec.eq_of_getLsbD_eq fun j _ => Bool.eq_iff_iff.mpr ?_
  rw [hbit, hbit, h]

theorem bitsPoly_zero (n : Nat) : bitsPoly 0#n = 0 := by
  ext j
  simp [coeff_bitsPoly]

theorem bitsPoly_xor {n : Nat} (x y : BitVec n) : bitsPoly (x ^^^ y) = bitsPoly x + bitsPoly y := by
  ext j
  have hchar : (1 : ZMod 2) + 1 = 0 := by decide
  simp only [coeff_add, coeff_bitsPoly, BitVec.getLsbD_xor]
  cases x.getLsbD j <;> cases y.getLsbD j <;> simp [hchar]

/-- A change of width that cuts off no 1 keeps the polynomial. -/
theorem bitsPoly_setWidth {n : Nat} (x : BitVec n) (m : Nat) (h : ∀ j, m ≤ j → x.getLsbD j = false) :
    bitsPoly (x.setWidth m) = bitsPoly x := by
  ext j
  simp only [coeff_bitsPoly, BitVec.getLsbD_setWidth]
  by_cases hj : j < m
  · simp [hj]
  · simp [hj, h j (not_lt.mp hj)]

/-- A shift that pushes out no 1 is the product with x^i. -/
theorem bitsPoly_shiftLeft {n : Nat} (x : BitVec n) (i : Nat) (h : ∀ j, n ≤ i + j → x.getLsbD j = false) :
    bitsPoly (x <<< i) = X ^ i * bitsPoly x := by
  ext j
  simp only [coeff_bitsPoly, coeff_X_pow_mul', BitVec.getLsbD_shiftLeft]
  by_cases hij : i ≤ j
  · by_cases hj : j < n
    · simp [hij, hj, not_lt.mpr hij]
    · simp [hij, hj, h (j - i) (by omega)]
  · simp [hij, not_le.mp hij]

/-! ### FIELD_POLY (R5) -/

theorem bitsPoly_fieldPoly : bitsPoly Config.fieldPoly = reductionPoly := by
  have hbits : bitsPoly Config.fieldPoly = 1 + X + X ^ 3 + X ^ 4 + X ^ 8 := by
    simp [bitsPoly, Finset.sum_range_succ, Config.fieldPoly]
  rw [hbits, reductionPoly]
  ring

/-- FIELD_POLY ends with bit 8. -/
theorem getLsbD_fieldPoly_of_gt {j : Nat} (h : 8 < j) : Config.fieldPoly.getLsbD j = false := by
  have hlt : Config.fieldPoly.toNat < 2 ^ 9 := by decide
  exact Nat.testBit_lt_two_pow (hlt.trans_le (Nat.pow_le_pow_right two_pos h))

/-- Shifted by n, FIELD_POLY has its top bit at n + 8, the bit that R121's second loop clears. -/
theorem getLsbD_fieldPoly_shiftLeft_top {n : Nat} (h : n + 8 < 16) :
    (Config.fieldPoly <<< n).getLsbD (n + 8) = true := by
  rw [BitVec.getLsbD_shiftLeft, Nat.add_sub_cancel_left]
  simp only [h, Nat.not_lt.mpr (Nat.le_add_right n 8), decide_true, decide_false, Bool.not_false, Bool.true_and]
  decide

theorem reductionPoly_monic : reductionPoly.Monic := by
  unfold reductionPoly
  monicity!

theorem degree_reductionPoly : reductionPoly.degree = 8 := by
  unfold reductionPoly
  compute_degree!

/-- Every shift of FIELD_POLY in R121's second loop is a multiple of it. -/
theorem bitsPoly_fieldPoly_shiftLeft {i : Nat} (hi : i < 8) :
    bitsPoly (Config.fieldPoly <<< i) = X ^ i * reductionPoly := by
  rw [bitsPoly_shiftLeft, bitsPoly_fieldPoly]
  exact fun j hj => getLsbD_fieldPoly_of_gt (by omega)

/-! ### The loops of R121 -/

/-- The first loop adds up the product, one bit of b in each turn. -/
theorem bitsPoly_gfProduct (a b : Byte) {n : Nat} (hn : n ≤ 8) :
    bitsPoly (gfProduct a b n) =
      bitsPoly a * ∑ i ∈ Finset.range n, if b.getLsbD i then X ^ i else 0 := by
  induction n with
  | zero => simp [gfProduct, bitsPoly_zero]
  | succ n ih =>
    have hshift : bitsPoly (a.zeroExtend 16 <<< n) = X ^ n * bitsPoly a := by
      rw [bitsPoly_shiftLeft, bitsPoly_setWidth]
      · exact fun j hj => BitVec.getLsbD_of_ge a j (by omega)
      · intro j hj
        simp [BitVec.getLsbD_of_ge a j (by omega)]
    rw [Finset.sum_range_succ, mul_add, ← ih (by omega), gfProduct]
    split
    · rw [bitsPoly_xor, hshift, mul_comm]
    · rw [mul_zero, add_zero]

/-- The second loop leaves no bit above bit 7. -/
theorem getLsbD_gfReduce {n : Nat} {r : BitVec 16} (h : ∀ j, n + 8 ≤ j → r.getLsbD j = false) {j : Nat} (hj : 8 ≤ j) :
    (gfReduce r n).getLsbD j = false := by
  induction n generalizing r with
  | zero => exact h j (by omega)
  | succ n ih =>
    refine ih fun k hk => ?_
    by_cases hbit : r.getLsbD (n + 8)
    · rw [if_pos hbit, BitVec.getLsbD_xor]
      rcases hk.eq_or_lt with rfl | hlt
      · rw [hbit, getLsbD_fieldPoly_shiftLeft_top (BitVec.lt_of_getLsbD hbit), Bool.xor_self]
      · have hf : (Config.fieldPoly <<< n).getLsbD k = false := by
          simp [getLsbD_fieldPoly_of_gt (show 8 < k - n by omega)]
        rw [h k (by omega), hf, Bool.xor_self]
    · rw [if_neg hbit]
      rcases hk.eq_or_lt with rfl | hlt
      · exact Bool.eq_false_iff.mpr hbit
      · exact h k (by omega)

/-! ### The residue of a bit vector modulo FIELD_POLY -/

/-- The class of a bit vector's polynomial in GF(2)[x] / FIELD_POLY. -/
noncomputable def residue {n : Nat} (x : BitVec n) : AdjoinRoot reductionPoly := AdjoinRoot.mk _ (bitsPoly x)

/-- The second loop subtracts multiples of FIELD_POLY only. -/
theorem residue_gfReduce {n : Nat} (hn : n ≤ 8) (r : BitVec 16) : residue (gfReduce r n) = residue r := by
  induction n generalizing r with
  | zero => rfl
  | succ n ih =>
    rw [gfReduce, ih (by omega)]
    split
    · rw [residue, bitsPoly_xor, bitsPoly_fieldPoly_shiftLeft (by omega), map_add, map_mul, AdjoinRoot.mk_self,
        mul_zero, add_zero, residue]
    · rfl

/-- Modulo FIELD_POLY, ⊗ is the product of the polynomials. -/
@[simp] theorem residue_gfMul (a b : Byte) : residue (gfMul a b) = residue a * residue b := by
  have hhigh (j : Nat) (hj : 8 ≤ j) : (gfReduce (gfProduct a b 8) 8).getLsbD j = false :=
    getLsbD_gfReduce (fun k hk => BitVec.getLsbD_of_ge _ k hk) hj
  calc residue (gfMul a b)
      = residue (gfReduce (gfProduct a b 8) 8) := by rw [residue, gfMul, bitsPoly_setWidth _ 8 hhigh, residue]
    _ = residue (gfProduct a b 8) := residue_gfReduce le_rfl _
    _ = residue a * residue b := by
      rw [residue, bitsPoly_gfProduct a b le_rfl, map_mul]
      rfl

/-- A byte's polynomial is the remainder its residue determines. -/
theorem modByMonicHom_residue (b : Byte) : AdjoinRoot.modByMonicHom reductionPoly_monic (residue b) = bitsPoly b := by
  rw [residue, AdjoinRoot.modByMonicHom_mk, modByMonic_eq_self_iff reductionPoly_monic, degree_reductionPoly]
  exact degree_bitsPoly_lt b

theorem residue_injective : Function.Injective (residue : Byte → AdjoinRoot reductionPoly) := by
  intro a b h
  apply bitsPoly_injective
  rw [← modByMonicHom_residue a, h, modByMonicHom_residue]

theorem bitsPoly_gfMul (a b : Byte) : bitsPoly (gfMul a b) = (bitsPoly a * bitsPoly b) %ₘ reductionPoly := by
  rw [← modByMonicHom_residue, residue_gfMul, residue, residue, ← map_mul, AdjoinRoot.modByMonicHom_mk]

@[simp] theorem residue_zero : residue 0x00#8 = 0 := by
  rw [residue, bitsPoly_zero, map_zero]

@[simp] theorem residue_one : residue 0x01#8 = 1 := by
  simp [residue, bitsPoly]

theorem residue_two : residue 0x02#8 = AdjoinRoot.root reductionPoly := by
  simp [residue, bitsPoly, Finset.sum_range_succ]

@[simp] theorem residue_gfPow (a : Byte) (k : Nat) : residue (gfPow a k) = residue a ^ k := by
  induction k with
  | zero => rw [gfPow, residue_one, pow_zero]
  | succ k ih => rw [gfPow, residue_gfMul, ih, pow_succ]

/-! ### The laws of ⊗ and the inverse (R122, R124) -/

theorem gfMul_comm (a b : Byte) : gfMul a b = gfMul b a :=
  residue_injective (by simp [mul_comm])

theorem gfMul_assoc (a b c : Byte) : gfMul (gfMul a b) c = gfMul a (gfMul b c) :=
  residue_injective (by simp [mul_assoc])

@[simp] theorem one_gfMul (a : Byte) : gfMul 0x01#8 a = a :=
  residue_injective (by simp)

/-- The product of squares that the model computes for inv(a) is the power R122 names. -/
theorem gfInv_eq_gfPow (a : Byte) : gfInv a = gfPow a 254 := by
  apply residue_injective
  simp only [gfInv, residue_gfMul, residue_gfPow]
  ring

/-- Squaring a polynomial over GF(2) squares its argument. -/
theorem aeval_pow_two_pow {R : Type} [CommRing R] [Algebra (ZMod 2) R] (p : (ZMod 2)[X]) (r : R) (k : Nat) :
    aeval r p ^ 2 ^ k = aeval (r ^ 2 ^ k) p := by
  induction k with
  | zero => simp only [pow_zero, pow_one]
  | succ k ih => rw [pow_succ, pow_mul, ih, pow_mul, ← map_pow, ← ZMod.expand_card, expand_aeval]

theorem residue_sq {y z : Byte} (h : gfMul y y = z) : residue y ^ 2 = residue z := by
  rw [← h, residue_gfMul, pow_two]

/-- x^256 is x modulo FIELD_POLY: the eight squarings, evaluated. -/
theorem root_pow_256 : AdjoinRoot.root reductionPoly ^ 256 = AdjoinRoot.root reductionPoly := by
  have h2 : residue 0x02#8 ^ 2 = residue 0x04#8 := residue_sq (by decide)
  have h4 : residue 0x04#8 ^ 2 = residue 0x10#8 := residue_sq (by decide)
  have h8 : residue 0x10#8 ^ 2 = residue 0x1B#8 := residue_sq (by decide)
  have h16 : residue 0x1B#8 ^ 2 = residue 0x5E#8 := residue_sq (by decide)
  have h32 : residue 0x5E#8 ^ 2 = residue 0xE4#8 := residue_sq (by decide)
  have h64 : residue 0xE4#8 ^ 2 = residue 0x4D#8 := residue_sq (by decide)
  have h128 : residue 0x4D#8 ^ 2 = residue 0xFA#8 := residue_sq (by decide)
  have h256 : residue 0xFA#8 ^ 2 = residue 0x02#8 := residue_sq (by decide)
  rw [← residue_two]
  calc residue 0x02#8 ^ 256 = (((((((residue 0x02#8 ^ 2) ^ 2) ^ 2) ^ 2) ^ 2) ^ 2) ^ 2) ^ 2 := by ring
    _ = residue 0x02#8 := by rw [h2, h4, h8, h16, h32, h64, h128, h256]

/-- a^256 = a: squaring a polynomial eight times puts x^256 for x. -/
theorem residue_pow_256 (a : Byte) : residue a ^ 256 = residue a := by
  rw [residue, ← AdjoinRoot.aeval_eq]
  calc aeval (AdjoinRoot.root reductionPoly) (bitsPoly a) ^ 2 ^ 8
      = aeval (AdjoinRoot.root reductionPoly ^ 256) (bitsPoly a) := aeval_pow_two_pow _ _ 8
    _ = aeval (AdjoinRoot.root reductionPoly) (bitsPoly a) := by rw [root_pow_256]

/-- The only idempotents of ⊗ are 0 and 1, evaluated for every byte. -/
theorem eq_zero_or_one_of_gfMul_self : ∀ e : Byte, gfMul e e = e → e = 0x00#8 ∨ e = 0x01#8 := by decide

/-- a^255 = 1 for a ≠ 0: a^255 is idempotent, since a^256 = a, and not 0. -/
theorem gfPow_255 {a : Byte} (ha : a ≠ 0x00#8) : gfPow a 255 = 0x01#8 := by
  have hidem : gfMul (gfPow a 255) (gfPow a 255) = gfPow a 255 := by
    apply residue_injective
    calc residue (gfMul (gfPow a 255) (gfPow a 255))
        = residue a ^ 256 * residue a ^ 254 := by rw [residue_gfMul, residue_gfPow]; ring
      _ = residue (gfPow a 255) := by rw [residue_pow_256, residue_gfPow]; ring
  refine (eq_zero_or_one_of_gfMul_self _ hidem).resolve_left fun hzero => ha ?_
  apply residue_injective
  calc residue a = residue a ^ 255 * residue a := by rw [← pow_succ, residue_pow_256]
    _ = residue 0x00#8 := by rw [← residue_gfPow, hzero, residue_zero, zero_mul]

theorem gfMul_gfInv {a : Byte} (ha : a ≠ 0x00#8) : gfMul a (gfInv a) = 0x01#8 := by
  rw [gfInv_eq_gfPow, gfMul_comm]
  exact gfPow_255 ha

theorem eq_gfInv_of_gfMul_eq_one {a c : Byte} (ha : a ≠ 0x00#8) (h : gfMul a c = 0x01#8) : c = gfInv a :=
  calc c = gfMul (gfMul a (gfInv a)) c := by rw [gfMul_gfInv ha, one_gfMul]
    _ = gfMul (gfMul a c) (gfInv a) := by rw [gfMul_assoc, gfMul_comm (gfInv a), ← gfMul_assoc]
    _ = gfInv a := by rw [h, one_gfMul]

/-! ### The commands (R125 to R127) -/

/-- The decoder reads the fields that a command word is put together from (R90). -/
theorem decode_wordOf (opc a b c : Byte) : decode (wordOf opc a b c) = decodeFields ⟨opc, a, b, c⟩ :=
  congrArg decodeFields (CommandWord.ofWord_toWord ⟨opc, a, b, c⟩)

/-- The whole effect of a command that ends normally with a write of RESULT (R25, R301). -/
theorem exec_of_commit_writeResult {i : Instr} {s : State} {v : Byte}
    (hbody : commandBody i s = .commit (writeResult v s)) (hphase : commandPhase i = .complete) :
    exec i s = .next { s with result := v, status := okStatus s .complete, latch := none, irq := s.ctrl.ie } := by
  rw [exec_eq_conclude, hbody, hphase]
  rfl

theorem commandBody_gfInv_of_ne_zero {a : Byte} (ha : a ≠ 0x00#8) (s : State) :
    commandBody (.gfInv a) s = .commit (writeResult (gfInv a) s) := if_neg ha

theorem commandBody_gfInv_zero (s : State) :
    commandBody (.gfInv 0x00#8) s = .raise s ⟨.domainError, infoCommand⟩ := rfl

/-- Settles O29: ⊕ is the XOR of the bytes by its definition (R120). -/
theorem gfAddStoresTheXor : Obligations.GfAddStoresTheXor := by
  intro a b s
  exact ⟨decode_wordOf _ a b _, exec_of_commit_writeResult rfl rfl⟩

/-- Settles O30: the byte is the model's a ⊗ b. -/
theorem gfMulStoresTheReducedPolynomialProduct : Obligations.GfMulStoresTheReducedPolynomialProduct := by
  intro a b s
  refine ⟨decode_wordOf _ a b _, gfMul a b, ?_, exec_of_commit_writeResult rfl rfl⟩
  simp only [bytePoly_eq_bitsPoly, bitsPoly_gfMul]

/-- Settles O31: the byte is the model's inv(a). -/
theorem gfInvStoresTheUniqueInverseOrFailsOnZero : Obligations.GfInvStoresTheUniqueInverseOrFailsOnZero := by
  refine ⟨fun a => decode_wordOf _ a _ _, fun a s ha => ?_, fun s => ?_⟩
  · exact ⟨gfInv a, gfMul_gfInv ha, fun c => eq_gfInv_of_gfMul_eq_one ha, gfInv_eq_gfPow a,
      exec_of_commit_writeResult (commandBody_gfInv_of_ne_zero ha s) rfl⟩
  · rw [exec_eq_conclude, commandBody_gfInv_zero, conclude_raise]
    rfl

end Sys2Proof.Machine

/-! The interpolator of 42_lagrange.md. The model takes the products of R140 over the coordinates that differ from the
point's own, the statement over the other indices; the check of R142 that no coordinate repeats makes them the same. -/

namespace Sys2Proof.Machine

open Sys2Proof Sys2Proof.Claims

/-! ### The point table in memory (R37, R38, R61) -/

theorem State.byteAt_pyVec (s : State) (i : Nat) {p L : Nat} (hp : p < L) :
    byteAt (s.pyVec i L) p = at_ s (0x200 + 32 * i + p) :=
  Memory.byteAt_readBytes s.mem (pyAddr i) L p hp

/-- No coordinate of the first `n` points equals an earlier one (R142). PX[i] is by definition the byte at 0x180 + i. -/
def State.DistinctX (s : State) (n : Nat) : Prop := ∀ i < n, ∀ j < i, s.px j ≠ s.px i

theorem State.DistinctX.px_eq_iff {s : State} {n i j : Nat} (h : s.DistinctX n) (hi : i < n) (hj : j < n) :
    s.px j = s.px i ↔ j = i := by
  refine ⟨fun heq => ?_, congrArg s.px⟩
  rcases lt_trichotomy j i with hlt | rfl | hgt
  · exact absurd heq (h i hi j hlt)
  · rfl
  · exact absurd heq.symm (h j hj i hgt)

theorem State.firstRepeatedX_eq_none_iff (s : State) (n : Nat) : s.firstRepeatedX n = none ↔ s.DistinctX n := by
  simp [State.firstRepeatedX, State.DistinctX]

theorem State.firstRepeatedX_eq_some_iff (s : State) (n i : Nat) :
    s.firstRepeatedX n = some i ↔ i < n ∧ (∃ j < i, s.px j = s.px i) ∧ s.DistinctX i := by
  rw [State.firstRepeatedX, find?_range_eq_some_iff]
  simp [State.DistinctX]

/-! ### The formula in the points' indices (R140) -/

/-- With distinct coordinates, the coordinates other than the i-th are those at the other indices. -/
theorem State.DistinctX.filter_coordinates {s : State} {n i : Nat} (h : s.DistinctX n) (hi : i < n) :
    ((List.range n).map s.px).filter (· != s.px i) = ((List.range n).filter (· != i)).map s.px := by
  rw [List.filter_map]
  refine congrArg (List.map s.px) (List.filter_congr fun j hj => ?_)
  have hiff := h.px_eq_iff hi (List.mem_range.mp hj)
  simp [bne, hiff]

theorem State.map_x_points (s : State) (n L : Nat) : (s.points n L).map Point.x = (List.range n).map s.px := by
  simp [State.points]

theorem State.DistinctX.interpByte_points {s : State} {n p L : Nat} (h : s.DistinctX n) (x : Byte) (hp : p < L) :
    interpByte (s.points n L) x p = interpolatedByte s n x p := by
  rw [interpByte, State.map_x_points, State.points, List.map_map, interpolatedByte]
  refine congrArg gfSum (List.map_congr_left fun i hi => ?_)
  simp only [Function.comp_apply, lagrangeBasis, h.filter_coordinates (List.mem_range.mp hi), List.map_map,
    s.byteAt_pyVec i hp]
  rfl

/-! ### Commands that write RBUF (R39, R301, R304) -/

/-- The bytes of RBUF after a vector with its zeros is stored there, and that nothing else is stored. -/
theorem at_writeRbuf {V : List Byte} (hV : V.length ≤ 32) (s : State) (a : Nat) :
    at_ (writeRbuf V s) a = if 0x400 ≤ a ∧ a < 0x420 then byteAt V (a - 0x400) else at_ s a :=
  Memory.read_writeBytes_padTo s.mem 0x400 V a hV

theorem at_wipeRbuf (s : State) (a : Nat) :
    at_ (wipeRbuf s) a = if 0x400 ≤ a ∧ a < 0x420 then 0x00#8 else at_ s a :=
  Memory.read_clear s.mem 0x400 32 a

/-- The whole effect of a command that ends normally with a vector stored in RBUF. -/
theorem exec_of_commit_writeRbuf {i : Instr} {s : State} {V : List Byte} (hV : V.length ≤ 32)
    (hbody : commandBody i s = .commit (writeRbuf V s)) (hphase : commandPhase i = .complete) :
    ∃ t, exec i s = .next t ∧ (∀ p < 32, at_ t (0x400 + p) = byteAt V p) ∧ SameOutside s t 0x400 0x420 ∧
      t = { s with mem := t.mem, status := okStatus s .complete, latch := none, irq := s.ctrl.ie } := by
  refine ⟨(writeRbuf V s).completeOk .complete, ?_, fun p hp => ?_, fun a ha => ?_, rfl⟩
  · rw [exec_eq_conclude, hbody, hphase, conclude_commit]
  · exact (at_writeRbuf hV s _).trans (by rw [if_pos (by omega), Nat.add_sub_cancel_left])
  · exact (at_writeRbuf hV s a).trans (if_neg (by omega))

/-- The whole effect of a command that raises and whose failure write clears RBUF. -/
theorem exec_of_raise_wipeRbuf {i : Instr} {s : State} {r : Raised} (hbody : commandBody i s = .raise s r)
    (hwipe : commandWipe i = wipeRbuf) :
    ∃ t, exec i s = .next t ∧ ZeroIn t 0x400 0x420 ∧ SameOutside s t 0x400 0x420 ∧
      t = { s with mem := t.mem, status := errStatus s r.err, errinfo := r.info, latch := none, irq := s.ctrl.ie } := by
  refine ⟨(wipeRbuf s).completeRaised r, ?_, fun a hlo hhi => ?_, fun a ha => ?_, rfl⟩
  · rw [exec_eq_conclude, hbody, hwipe, conclude_raise]
  · exact (at_wipeRbuf s a).trans (if_pos ⟨hlo, hhi⟩)
  · exact (at_wipeRbuf s a).trans (if_neg (by omega))

/-! ### The checks of LAGR_EVAL, in order (R142) -/

theorem commandBody_lagrEval_of_bad_length {s : State} (hlen : lenOK s.len = false) (n : Nat) (x : Byte) :
    commandBody (.lagrEval n x) s = .raise s ⟨.invalidParameters, infoCommand⟩ := by
  simp [commandBody, lagrEvalBody, hlen]

theorem commandBody_lagrEval_of_bad_count {s : State} {n : Nat} (hlen : lenOK s.len = true) (hn : n = 0 ∨ 16 < n)
    (x : Byte) : commandBody (.lagrEval n x) s = .raise s ⟨.invalidParameters, infoCommand⟩ := by
  simp [commandBody, lagrEvalBody, hlen, Config.maxPoints, hn]

/-- With a legal length and number of points, the coordinates decide. -/
theorem commandBody_lagrEval_of_legal {s : State} {n : Nat} (hlen : lenOK s.len = true) (h1 : 1 ≤ n) (h16 : n ≤ 16)
    (x : Byte) : commandBody (.lagrEval n x) s = (s.firstRepeatedX n).elim
      (.commit (writeRbuf (interp (s.points n s.len) x s.len) s))
      (fun i => .raise s ⟨.invalidParameters, infoPoint i⟩) := by
  have hn : ¬ (n = 0 ∨ Config.maxPoints < n) := by rw [Config.maxPoints]; omega
  rw [commandBody, lagrEvalBody, hlen, if_neg (by decide), if_neg hn]
  cases s.firstRepeatedX n <;> rfl

/-- Settles O33: the coordinates are distinct exactly when the model finds no repeated one, and then its value is the
formula in the points' indices. -/
theorem lagrEvalInterpolatesOrRejectsInOrder : Obligations.LagrEvalInterpolatesOrRejectsInOrder := by
  refine ⟨fun n x => decode_wordOf _ n x _, ?stores, ?rejects⟩
  case stores =>
    intro n x s hlen h1 h16 hdistinct
    have hL : s.len ≤ 32 := ((lenOK_iff _).mp hlen).2.2
    have hV : (interp (s.points n s.len) x s.len).length = s.len := interp_length _ _ _
    have hbody : commandBody (.lagrEval n x) s = .commit (writeRbuf (interp (s.points n s.len) x s.len) s) := by
      rw [commandBody_lagrEval_of_legal hlen h1 h16, (s.firstRepeatedX_eq_none_iff n).mpr hdistinct, Option.elim_none]
    obtain ⟨t, hexec, hbytes, hrest, ht⟩ := exec_of_commit_writeRbuf (hV.trans_le hL) hbody rfl
    refine ⟨t, hexec, fun p hp => ?_, fun a hlo hhi => ?_, hrest, ht⟩
    · rw [hbytes p (hp.trans_le hL), byteAt_interp _ _ _ _ hp, State.DistinctX.interpByte_points hdistinct x hp]
    · obtain ⟨p, rfl⟩ := Nat.exists_eq_add_of_le (show 0x400 ≤ a by omega)
      rw [hbytes p (by omega), byteAt, List.getD_eq_default _ _ (by omega)]
  case rejects =>
    intro n x s info hcase
    refine exec_of_raise_wipeRbuf (r := ⟨.invalidParameters, info⟩) ?_ rfl
    rcases hcase with ⟨hlen, rfl⟩ | ⟨hlen, hn, rfl⟩ | ⟨hlen, h1, h16, i, hi, rfl, hrepeats, hfirst⟩
    · exact commandBody_lagrEval_of_bad_length hlen n x
    · exact commandBody_lagrEval_of_bad_count hlen hn x
    · rw [commandBody_lagrEval_of_legal hlen h1 h16, (s.firstRepeatedX_eq_some_iff n i).mpr ⟨hi, hrepeats, hfirst⟩]
      rfl

end Sys2Proof.Machine

/-! SHAMIR_RECOMBINE (43_shamir.md R164, R167). Each check of the command and of the primitive has one lemma, so the
obligation is the checks in their order and the two ends of a command that writes SECRET. -/

namespace Sys2Proof.Machine

open Sys2Proof Sys2Proof.Claims

/-! ### The ends of a command that stores a vector or clears a buffer (R301, R304) -/

/-- The whole effect of a command that ends normally with a vector and its zeros stored from an offset on. -/
theorem exec_of_commit_store_padTo {i : Instr} {s : State} {base : Nat} {V : List Byte} (hV : V.length ≤ 32)
    (hbody : commandBody i s = .commit (s.store base (padTo 32 V))) (hphase : commandPhase i = .complete) :
    ∃ u, exec i s = .next u ∧ (∀ p < V.length, at_ u (base + p) = byteAt V p) ∧
      ZeroIn u (base + V.length) (base + 32) ∧ SameOutside s u base (base + 32) ∧
      u = { s with mem := u.mem, status := okStatus s .complete, latch := none, irq := s.ctrl.ie } := by
  have hread : ∀ a, at_ ((s.store base (padTo 32 V)).completeOk .complete) a =
      if base ≤ a ∧ a < base + 32 then byteAt V (a - base) else at_ s a :=
    fun a => Memory.read_writeBytes_padTo s.mem base V a hV
  refine ⟨(s.store base (padTo 32 V)).completeOk .complete, ?_, fun p hp => ?_, fun a hlo hhi => ?_, fun a ha => ?_,
    rfl⟩
  · rw [exec_eq_conclude, hbody, hphase, conclude_commit]
  · rw [hread, if_pos (by omega), Nat.add_sub_cancel_left]
  · rw [hread, if_pos (by omega), byteAt, List.getD_eq_default _ _ (by omega)]
  · rw [hread, if_neg (by omega)]

/-- The whole effect of a command that raises before any draw and whose failure write clears one buffer. -/
theorem exec_of_raise_clearBuffer {i : Instr} {s : State} {r : Raised} {b : Buffer}
    (hbody : commandBody i s = .raise s r) (hwipe : commandWipe i s = s.clearBuffer b) :
    ∃ u, exec i s = .next u ∧ ZeroIn u b.base (b.base + b.size) ∧ SameOutside s u b.base (b.base + b.size) ∧
      u = { s with mem := u.mem, status := errStatus s r.err, errinfo := r.info, latch := none, irq := s.ctrl.ie } := by
  have hread : ∀ a, at_ ((s.clearBuffer b).completeRaised r) a =
      if b.base ≤ a ∧ a < b.base + b.size then 0x00#8 else at_ s a :=
    fun a => Memory.read_clear s.mem b.base b.size a
  refine ⟨(s.clearBuffer b).completeRaised r, ?_, fun a hlo hhi => ?_, fun a ha => ?_, rfl⟩
  · rw [exec_eq_conclude, hbody, conclude_raise, hwipe]
  · rw [hread, if_pos ⟨hlo, hhi⟩]
  · rw [hread, if_neg (by omega)]

/-! ### The points of the command (R167) -/

/-- PX[i] is a share coordinate, 1..16 (R160, R167). -/
def State.IsShareX (s : State) (i : Nat) : Prop := 1 ≤ (s.px i).toNat ∧ (s.px i).toNat ≤ 16

theorem State.firstBadX_eq_none_iff (s : State) (n : Nat) : s.firstBadX n = none ↔ ∀ i < n, s.IsShareX i := by
  simp [State.firstBadX, State.IsShareX, Nat.one_le_iff_ne_zero]

theorem State.firstBadX_eq_some_iff (s : State) (n i : Nat) :
    s.firstBadX n = some i ↔ i < n ∧ ¬ s.IsShareX i ∧ ∀ j < i, s.IsShareX j := by
  rw [State.firstBadX, find?_range_eq_some_iff]
  simp [State.IsShareX, Nat.one_le_iff_ne_zero, imp_iff_not_or]

theorem State.length_y_of_mem_points {s : State} {n L : Nat} : ∀ p ∈ s.points n L, p.y.length = L := by
  intro p hp
  obtain ⟨i, -, rfl⟩ := List.mem_map.mp hp
  exact Memory.readBytes_length _ _ _

/-! ### The checks of the primitive, in order (R164) -/

section Primitive

variable {cfg : Config} {t L : Nat} {P : List Point} {dg : Bool} {info : BitVec 16}

theorem shamirRecombine_of_few (h : (selectDistinct [] P).length < t) :
    shamirRecombine cfg t P dg L info = .error ⟨.insufficientShares, info⟩ := if_pos h

theorem shamirRecombine_of_enough (h : t ≤ (selectDistinct [] P).length) :
    shamirRecombine cfg t P dg L info = recombineSelected cfg t ((selectDistinct [] P).take t) dg L info :=
  if_neg (Nat.not_lt.mpr h)

/-- With threshold 1 the first point's vector is the secret, and no digest share is verified. -/
theorem shamirRecombine_one_cons (p : Point) : shamirRecombine cfg 1 (p :: P) dg L info = .ok p.y := by
  have hselect : selectDistinct [] (p :: P) = p :: selectDistinct [p.x] P := rfl
  rw [shamirRecombine_of_enough (by simp [hselect]), hselect]
  rfl

/-- The first point of the command is the first entry of the point table. -/
theorem shamirRecombine_one_points {s : State} {n : Nat} (h : 1 ≤ (selectDistinct [] (s.points n L)).length) :
    shamirRecombine cfg 1 (s.points n L) dg L info = .ok (s.pyVec 0 L) := by
  cases n with
  | zero => exact absurd h (Nat.not_succ_le_zero 0)
  | succ m =>
    rw [State.points, List.range_succ_eq_map]
    exact shamirRecombine_one_cons ⟨s.px 0, s.pyVec 0 L⟩

theorem recombineSelected_of_verified {Q : List Point} (ht : t ≠ 1)
    (h : dg = true → verifyDigestShare cfg (interp Q 0x00#8 L) (interp Q cfg.digestX L) = true) :
    recombineSelected cfg t Q dg L info = .ok (interp Q 0x00#8 L) := by
  rw [recombineSelected, if_neg ht, if_neg]
  simpa using h

theorem recombineSelected_of_mismatch {Q : List Point} (ht : t ≠ 1)
    (h : verifyDigestShare cfg (interp Q 0x00#8 L) (interp Q cfg.digestX L) = false) :
    recombineSelected cfg t Q true L info = .error ⟨.checksumMismatch, info⟩ := by
  rw [recombineSelected, if_neg ht, h]
  rfl

end Primitive

/-! ### The checks of the command, in order (R167) -/

/-- Field C of format S holds the DG flag in its low bit (R91, R93). -/
theorem digestFlag_getLsbD : ∀ dg : Bool, (encodeDigestFlag dg).getLsbD 0 = dg := by decide

theorem decode_shamirRecombine (t n : Byte) (dg : Bool) :
    decode (wordOf 0x21#8 t n (encodeDigestFlag dg)) = .ok (.shamirRecombine t.toNat n.toNat dg) :=
  calc decode (wordOf 0x21#8 t n (encodeDigestFlag dg))
      = decodeFields ⟨0x21#8, t, n, encodeDigestFlag dg⟩ := decode_wordOf _ _ _ _
    _ = .ok (.shamirRecombine t.toNat n.toNat ((encodeDigestFlag dg).getLsbD 0)) :=
          if_pos (Laws.EncodesLegally.digestFlag_mustBeZeroOk dg)
    _ = .ok (.shamirRecombine t.toNat n.toNat dg) := by rw [digestFlag_getLsbD]

/-- The operands SHAMIR_RECOMBINE accepts, apart from the points. -/
structure RecombineOperandsLegal (t n : Nat) (s : State) : Prop where
  length : lenOK s.len = true
  threshold_pos : 1 ≤ t
  threshold_le : t ≤ 16
  count_le : n ≤ 16

section Command

variable {t n : Nat} {dg : Bool} {s : State}

theorem commandBody_shamirRecombine_of_bad_operands (h : lenOK s.len = false ∨ t < 1 ∨ 16 < t ∨ 16 < n) :
    commandBody (.shamirRecombine t n dg) s = .raise s ⟨.invalidParameters, infoCommand⟩ := by
  rw [commandBody, shamirRecombineBody]
  cases hlen : lenOK s.len with
  | false => rfl
  | true => exact (if_neg (by decide)).trans (if_pos (by simpa [hlen] using h))

theorem RecombineOperandsLegal.not_bad (h : RecombineOperandsLegal t n s) : ¬ (t < 1 ∨ 16 < t ∨ 16 < n) := by
  have := h.threshold_pos
  have := h.threshold_le
  have := h.count_le
  omega

theorem commandBody_shamirRecombine_of_bad_coordinate (h : RecombineOperandsLegal t n s) {i : Nat}
    (hi : s.firstBadX n = some i) :
    commandBody (.shamirRecombine t n dg) s = .raise s ⟨.invalidParameters, infoPoint i⟩ := by
  simp only [commandBody, shamirRecombineBody, h.length, if_neg h.not_bad, hi]
  rfl

/-- With legal operands and coordinates, the primitive decides: its secret is stored. -/
theorem commandBody_shamirRecombine_of_ok (h : RecombineOperandsLegal t n s) (hx : ∀ i < n, s.IsShareX i)
    {S : List Byte} (hS : shamirRecombine hwConfig t (s.points n s.len) dg s.len infoCommand = .ok S) :
    commandBody (.shamirRecombine t n dg) s = .commit (writeSecret S s) := by
  simp only [commandBody, shamirRecombineBody, h.length, if_neg h.not_bad, (s.firstBadX_eq_none_iff n).mpr hx, hS]
  rfl

/-- With legal operands and coordinates, the primitive decides: its error is raised. -/
theorem commandBody_shamirRecombine_of_error (h : RecombineOperandsLegal t n s) (hx : ∀ i < n, s.IsShareX i)
    {r : Raised} (hr : shamirRecombine hwConfig t (s.points n s.len) dg s.len infoCommand = .error r) :
    commandBody (.shamirRecombine t n dg) s = .raise s r := by
  simp only [commandBody, shamirRecombineBody, h.length, if_neg h.not_bad, (s.firstBadX_eq_none_iff n).mpr hx, hr]
  rfl

/-- The whole effect of a SHAMIR_RECOMBINE whose points recombine: SECRET holds the primitive's secret, then zeros. -/
theorem exec_shamirRecombine_of_ok (h : RecombineOperandsLegal t n s) (hx : ∀ i < n, s.IsShareX i) {S : List Byte}
    (hS : shamirRecombine hwConfig t (s.points n s.len) dg s.len infoCommand = .ok S) :
    ∃ u, exec (.shamirRecombine t n dg) s = .next u ∧ (∀ p < s.len, at_ u (0x100 + p) = byteAt S p) ∧
      ZeroIn u (0x100 + s.len) 0x120 ∧ SameOutside s u 0x100 0x120 ∧
      u = { s with mem := u.mem, status := okStatus s .complete, latch := none, irq := s.ctrl.ie } := by
  have hL : S.length = s.len := shamirRecombine_length hS h.threshold_pos State.length_y_of_mem_points
  rw [← hL]
  exact exec_of_commit_store_padTo (hL.trans_le ((lenOK_iff _).mp h.length).2.2)
    (commandBody_shamirRecombine_of_ok h hx hS) rfl

end Command

/-- Settles O39: a success is the primitive's, for threshold 1 the first entry of the point table and else the value at
0 of the selected points; a failure is the first failing check of the command, then of the primitive. -/
theorem shamirRecombineStoresTheSecretOrRejectsInOrder :
    Obligations.ShamirRecombineStoresTheSecretOrRejectsInOrder := by
  refine ⟨fun t n => ⟨decode_shamirRecombine t n false, decode_shamirRecombine t n true⟩, ?stores, ?rejects⟩
  case stores =>
    intro t n dg s hlen h1 ht hn hx henough Q hverify
    have hlegal : RecombineOperandsLegal t n s := ⟨hlen, h1, ht, hn⟩
    rcases Nat.eq_or_lt_of_le h1 with rfl | h2
    · obtain ⟨u, hexec, hbytes, hrest⟩ := exec_shamirRecombine_of_ok hlegal hx (shamirRecombine_one_points henough)
      exact ⟨u, hexec, fun p hp => (hbytes p hp).trans ((s.byteAt_pyVec 0 hp).trans (if_pos rfl).symm), hrest⟩
    · have hS : shamirRecombine hwConfig t (s.points n s.len) dg s.len infoCommand = .ok (interp Q 0x00#8 s.len) := by
        rw [shamirRecombine_of_enough henough]
        exact recombineSelected_of_verified h2.ne' fun hdg => hverify hdg h2
      obtain ⟨u, hexec, hbytes, hrest⟩ := exec_shamirRecombine_of_ok hlegal hx hS
      exact ⟨u, hexec, fun p hp => (hbytes p hp).trans (if_neg h2.ne').symm, hrest⟩
  case rejects =>
    intro t n dg s e info hcase
    refine exec_of_raise_clearBuffer (b := .secret) (r := ⟨e, info⟩) ?_ rfl
    rcases hcase with ⟨hbad, rfl, rfl⟩ | ⟨hlen, h1, ht, hn, hcase⟩
    · exact commandBody_shamirRecombine_of_bad_operands hbad
    have hlegal : RecombineOperandsLegal t n s := ⟨hlen, h1, ht, hn⟩
    rcases hcase with ⟨i, hi, hbad, hfirst, rfl, rfl⟩ | ⟨hx, rfl, ⟨hfew, rfl⟩ | ⟨henough, h2, rfl, hmismatch, rfl⟩⟩
    · exact commandBody_shamirRecombine_of_bad_coordinate hlegal ((s.firstBadX_eq_some_iff n i).mpr ⟨hi, hbad, hfirst⟩)
    · exact commandBody_shamirRecombine_of_error hlegal hx (shamirRecombine_of_few hfew)
    · refine commandBody_shamirRecombine_of_error hlegal hx ?_
      rw [shamirRecombine_of_enough henough]
      exact recombineSelected_of_mismatch (Nat.ne_of_gt h2) hmismatch

end Sys2Proof.Machine

/-! The checksum commands (44_checksum.md R190 to R194). RBUF[0..L) is cut into its first four bytes and the salt; the
comparison of R191, which the model makes on lists, is then one on the four bytes. -/

namespace Sys2Proof.Machine

open Sys2Proof Sys2Proof.Claims

/-! ### A candidate digest share in memory (R190, R191) -/

/-- Reading on where a read of `n` bytes ends. -/
theorem Memory.readBytes_add (m : Memory) (base n k : Nat) :
    m.readBytes base (n + k) = m.readBytes base n ++ m.readBytes (base + n) k := by
  simp [Memory.readBytes, List.range_add, Nat.add_assoc]

theorem Memory.readBytes_eq_toList_iff {n : Nat} (m : Memory) (base : Nat) (v : Vector Byte n) :
    m.readBytes base n = v.toList ↔ ∀ q (h : q < n), m.read (base + q) = v[q] := by
  simp [List.ext_getElem_iff, Memory.readBytes]

/-- RBUF[0..L) is its first four bytes and the salt. -/
theorem State.rbufVec_eq_append (s : State) {L : Nat} (hL : 4 ≤ L) :
    s.rbufVec L = s.mem.readBytes 0x400 4 ++ s.rbufSalt L := by
  have hcut := Memory.readBytes_add s.mem 0x400 4 (L - 4)
  rwa [Nat.add_sub_cancel' hL] at hcut

theorem verifyDigestShare_append (cfg : Config) (S salt : List Byte) {d : List Byte} (hd : d.length = 4) :
    verifyDigestShare cfg S (d ++ salt) = true ↔ d = (cfg.digestFn S salt).toList := by
  rw [verifyDigestShare, List.take_left' hd, List.drop_left' hd, beq_iff_eq]

/-- R191 for the vector in RBUF: all four bytes are those of the digest. -/
theorem verifyDigestShare_rbufVec_iff (cfg : Config) (s : State) (S : List Byte) {L : Nat} (hL : 4 ≤ L) :
    verifyDigestShare cfg S (s.rbufVec L) = true ↔
      ∀ q (h : q < 4), at_ s (0x400 + q) = (cfg.digestFn S (s.rbufSalt L))[q] := by
  rw [s.rbufVec_eq_append hL, verifyDigestShare_append _ _ _ (Memory.readBytes_length _ _ _)]
  exact Memory.readBytes_eq_toList_iff s.mem 0x400 _

/-! ### DIGEST_MAKE (R193) -/

/-- RBUF after DIGEST_MAKE's write: the digest, what was there up to L, and zeros; nothing else is stored. -/
theorem at_writeDigest (s : State) (D : Vector Byte 4) {L : Nat} (hL : L ≤ 32) (a : Nat) :
    at_ (writeDigest L D.toList s) a =
      if 0x400 + L ≤ a ∧ a < 0x420 then 0x00#8
      else if 0x400 ≤ a ∧ a < 0x404 then byteAt D.toList (a - 0x400) else at_ s a := by
  have hend : 0x400 + L + (32 - L) = 0x420 := by omega
  rw [at_, writeDigest_mem, Memory.read_clear, Memory.read_writeBytes, Vector.length_toList]
  simp only [Buffer.base, hend]
  rfl

theorem commandBody_digestMake_of_legal {s : State} (hlen : lenOK s.len = true) :
    commandBody .digestMake s =
      .commit (writeDigest s.len (hwConfig.digestFn (s.secretVec s.len) (s.rbufSalt s.len)).toList s) := by
  simp [commandBody, digestMakeBody, hlen]

theorem commandBody_digestMake_of_bad_length {s : State} (hlen : lenOK s.len = false) :
    commandBody .digestMake s = .raise s ⟨.invalidParameters, infoCommand⟩ := by
  simp [commandBody, digestMakeBody, hlen]

/-- The whole effect of a command that ends normally with a digest written before the salt in RBUF. -/
theorem exec_of_commit_writeDigest {i : Instr} {s : State} {D : Vector Byte 4} {L : Nat} (h4 : 4 ≤ L) (hL : L ≤ 32)
    (hbody : commandBody i s = .commit (writeDigest L D.toList s)) (hphase : commandPhase i = .complete) :
    ∃ t, exec i s = .next t ∧ (∀ q (h : q < 4), at_ t (0x400 + q) = D[q]) ∧
      (∀ p, 4 ≤ p → p < L → at_ t (0x400 + p) = at_ s (0x400 + p)) ∧ ZeroIn t (0x400 + L) 0x420 ∧
      SameOutside s t 0x400 0x420 ∧
      t = { s with mem := t.mem, status := okStatus s .complete, latch := none, irq := s.ctrl.ie } := by
  have hread : ∀ a, at_ ((writeDigest L D.toList s).completeOk .complete) a = _ := at_writeDigest s D hL
  refine ⟨(writeDigest L D.toList s).completeOk .complete, ?_, fun q hq => ?_, fun p hlo hhi => ?_,
    fun a hlo hhi => ?_, fun a ha => ?_, rfl⟩
  · rw [exec_eq_conclude, hbody, hphase, conclude_commit]
  · rw [hread, if_neg (by omega), if_pos (by omega), Nat.add_sub_cancel_left]
    simp [byteAt, hq]
  · rw [hread, if_neg (by omega), if_neg (by omega)]
  · rw [hread, if_pos ⟨hlo, hhi⟩]
  · rw [hread, if_neg (by omega), if_neg (by omega)]

/-- Settles O41: the two bodies of DIGEST_MAKE, by the length alone. -/
theorem digestMakeStoresTheDigestBeforeTheSalt : Obligations.DigestMakeStoresTheDigestBeforeTheSalt := by
  refine ⟨by decide, fun s hlen => ?_, fun s hlen => ?_⟩
  · obtain ⟨-, h16, h32⟩ := (lenOK_iff _).mp hlen
    exact exec_of_commit_writeDigest (by omega) h32 (commandBody_digestMake_of_legal hlen) rfl
  · exact exec_of_raise_wipeRbuf (commandBody_digestMake_of_bad_length hlen) rfl

/-! ### DIGEST_VERIFY (R194) -/

theorem commandBody_digestVerify_of_bad_length {s : State} (hlen : lenOK s.len = false) :
    commandBody .digestVerify s = .raise s ⟨.invalidParameters, infoCommand⟩ := by
  simp [commandBody, digestVerifyBody, hlen]

/-- With a legal length the comparison of R191 decides; neither end writes. -/
theorem commandBody_digestVerify_of_legal {s : State} (hlen : lenOK s.len = true) :
    commandBody .digestVerify s =
      if verifyDigestShare hwConfig (s.secretVec s.len) (s.rbufVec s.len) then .commit s
      else .raise s ⟨.checksumMismatch, infoCommand⟩ := by
  rw [commandBody, digestVerifyBody, hlen, if_neg (by decide)]
  cases verifyDigestShare hwConfig (s.secretVec s.len) (s.rbufVec s.len) <;> rfl

/-- A normal end without a write changes the completion frame only. -/
theorem exec_of_commit_self {i : Instr} {s : State} (hbody : commandBody i s = .commit s)
    (hphase : commandPhase i = .complete) :
    exec i s = .next { s with status := okStatus s .complete, latch := none, irq := s.ctrl.ie } := by
  rw [exec_eq_conclude, hbody, hphase]
  rfl

/-- A failure that writes nothing changes the completion frame only. -/
theorem exec_of_raise_wipeNothing {i : Instr} {s : State} {r : Raised} (hbody : commandBody i s = .raise s r)
    (hwipe : commandWipe i = wipeNothing) :
    exec i s = .next { s with status := errStatus s r.err, errinfo := r.info, latch := none, irq := s.ctrl.ie } := by
  rw [exec_eq_conclude, hbody, hwipe]
  rfl

/-- Settles O42: the model's comparison holds exactly when the four bytes do. -/
theorem digestVerifyComparesTheWholeDigest : Obligations.DigestVerifyComparesTheWholeDigest := by
  refine ⟨by decide, fun s hlen => ?_, fun s hlen => ?_⟩
  · obtain ⟨-, h16, -⟩ := (lenOK_iff _).mp hlen
    have hverify := verifyDigestShare_rbufVec_iff hwConfig s (s.secretVec s.len) (show 4 ≤ s.len by omega)
    have hbody := commandBody_digestVerify_of_legal hlen
    constructor
    · intro hmatch
      exact exec_of_commit_self (hbody.trans (if_pos (hverify.mpr hmatch))) rfl
    · rintro ⟨q, hq, hne⟩
      exact exec_of_raise_wipeNothing (hbody.trans (if_neg fun h => hne (hverify.mp h q hq))) rfl
  · exact exec_of_raise_wipeNothing (commandBody_digestVerify_of_bad_length hlen) rfl

end Sys2Proof.Machine

/-! SSKR_SPLIT's validation (45_sskr.md R212) and the frame of SSKR_RECOMBINE (R230). Each command's ends are said once;
what they leave unchanged is then read off the buffers its writes go to. -/

namespace Sys2Proof.Machine

open Sys2Proof Sys2Proof.Claims

/-! ### The validation order of SSKR_SPLIT (R212) -/

theorem GroupSpec.illegal_iff (sp : GroupSpec) :
    sp.illegal = true ↔ sp.mt.toNat < 1 ∨ sp.mc.toNat < sp.mt.toNat ∨ 16 < sp.mc.toNat := by
  simp [GroupSpec.illegal, or_assoc]

theorem State.firstBadGroup_eq_some_iff (s : State) (g : Nat) :
    s.firstBadGroup = some g ↔
      g < s.splitcfg.gc.toNat ∧ (s.groupSpec g).illegal = true ∧ ∀ h < g, ¬ (s.groupSpec h).illegal = true := by
  simp only [State.firstBadGroup, find?_range_eq_some_iff, Bool.not_eq_true]

/-- Checks (1) to (3) of R212 come before any group is looked at. -/
theorem State.splitError_of_bad_parameters {s : State} (h : lenOK s.len = false ∨ s.splitcfg.gc.toNat < 1 ∨
    16 < s.splitcfg.gc.toNat ∨ s.splitcfg.gt.toNat < 1 ∨ s.splitcfg.gc.toNat < s.splitcfg.gt.toNat) :
    s.splitError = some ⟨.invalidParameters, infoCommand⟩ := by
  rw [State.splitError]
  rcases h with hlen | houter
  · rw [hlen]
    rfl
  · split_ifs with hlen hgc hgt
    · rfl
    · rfl
    · rfl
    · omega

/-- With legal outer parameters, check (4) of R212 decides. -/
theorem State.splitError_of_legal_parameters {s : State} (hlen : lenOK s.len = true) (h1 : 1 ≤ s.splitcfg.gc.toNat)
    (h16 : s.splitcfg.gc.toNat ≤ 16) (ht : 1 ≤ s.splitcfg.gt.toNat) (htc : s.splitcfg.gt.toNat ≤ s.splitcfg.gc.toNat) :
    s.splitError = s.firstBadGroup.map fun g => ⟨.invalidParameters, infoGroup g⟩ := by
  rw [State.splitError, hlen, if_neg (by decide), if_neg (by omega), if_neg (by omega)]

/-- An illegal specification is raised from the state before the command: no byte has been drawn. -/
theorem commandBody_sskrSplit_of_splitError {s : State} {r : Raised} (h : s.splitError = some r) :
    commandBody .sskrSplit s = .raise s r := by
  rw [commandBody, sskrSplitBody, h]

/-! ### The failure writes of SSKR_SPLIT (R304) -/

theorem at_wipeShares (s : State) (a : Nat) :
    at_ (wipeShares s) a = if (0x800 ≤ a ∧ a < 0x900) ∨ (0x4000 ≤ a ∧ a < 0x8000) then 0x00#8 else at_ s a := by
  have hslen : at_ (wipeShares s) a = if 0x800 ≤ a ∧ a < 0x900 then 0x00#8 else (s.mem.clearBuffer .share).read a :=
    Memory.read_clear _ 0x800 256 a
  have hshare : (s.mem.clearBuffer .share).read a = if 0x4000 ≤ a ∧ a < 0x8000 then 0x00#8 else at_ s a :=
    Memory.read_clear s.mem 0x4000 16384 a
  rw [hslen, hshare, ite_or]

/-- The whole effect of a command that raises, from the state `u` its draws led to, and whose failure writes clear the
share set. -/
theorem exec_of_raise_wipeShares {i : Instr} {s u : State} {r : Raised} (hbody : commandBody i s = .raise u r)
    (hwipe : commandWipe i = wipeShares) :
    ∃ t, exec i s = .next t ∧ ZeroIn t 0x800 0x900 ∧ ZeroIn t 0x4000 0x8000 ∧
      (∀ a, a < 0x800 ∨ (0x900 ≤ a ∧ a < 0x4000) ∨ 0x8000 ≤ a → at_ t a = at_ u a) ∧
      t = { u with mem := t.mem, sharecnt := 0x0000#16, ident := 0x0000#16, status := errStatus u r.err,
                   errinfo := r.info, latch := none, irq := u.ctrl.ie } := by
  refine ⟨(wipeShares u).completeRaised r, ?_, fun a hlo hhi => ?_, fun a hlo hhi => ?_, fun a ha => ?_, rfl⟩
  · rw [exec_eq_conclude, hbody, hwipe, conclude_raise]
  · exact (at_wipeShares u a).trans (if_pos (.inl ⟨hlo, hhi⟩))
  · exact (at_wipeShares u a).trans (if_pos (.inr ⟨hlo, hhi⟩))
  · exact (at_wipeShares u a).trans (if_neg (by omega))

/-- Settles O48: either alternative fixes the specification's error, and SSKR_SPLIT raises it before any draw. -/
theorem sskrSplitValidatesInOrder : Obligations.SskrSplitValidatesInOrder := by
  intro s info gt gc bad hcase
  have herror : s.splitError = some ⟨.invalidParameters, info⟩ := by
    rcases hcase with ⟨hbad, rfl⟩ | ⟨hlen, h1, h16, ht, htc, g, hg, hbad, hfirst, rfl⟩
    · exact State.splitError_of_bad_parameters hbad
    · have hgroup : s.firstBadGroup = some g := (s.firstBadGroup_eq_some_iff g).mpr
        ⟨hg, (GroupSpec.illegal_iff _).mpr hbad, fun h hh => mt (GroupSpec.illegal_iff _).mp (hfirst h hh)⟩
      rw [State.splitError_of_legal_parameters hlen h1 h16 ht htc, hgroup]
      rfl
  exact exec_of_raise_wipeShares (commandBody_sskrSplit_of_splitError herror) rfl

/-! ### The ends of SSKR_RECOMBINE (R230 to R232) -/

theorem exec_sskrRecombine_of_ok {s : State} {o : Recovered} (h : sskrRecombine hwConfig s = .ok o) :
    exec .sskrRecombine s = .next ((writeRecovered o s).completeOk .verified) := by
  rw [exec_eq_conclude, commandBody, sskrRecombineBody, h]
  rfl

theorem exec_sskrRecombine_of_error {s : State} {r : Raised} (h : sskrRecombine hwConfig s = .error r) :
    exec .sskrRecombine s = .next ((wipeSecret s).completeRaised r) := by
  rw [exec_eq_conclude, commandBody, sskrRecombineBody, h]
  rfl

/-- SECRET after a recovered secret is stored with its zeros, and that no other byte is stored. -/
theorem at_writeRecovered {o : Recovered} (ho : o.secret.length ≤ 32) (s : State) (a : Nat) :
    at_ (writeRecovered o s) a = if 0x100 ≤ a ∧ a < 0x120 then byteAt o.secret (a - 0x100) else at_ s a :=
  Memory.read_writeBytes_padTo s.mem 0x100 o.secret a ho

theorem at_wipeSecret (s : State) (a : Nat) :
    at_ (wipeSecret s) a = if 0x100 ≤ a ∧ a < 0x120 then 0x00#8 else at_ s a :=
  Memory.read_clear s.mem 0x100 32 a

/-- On success and on failure SECRET is the only buffer written; a recovered secret fits it (R251). -/
theorem exec_sskrRecombine_frame {s t : State} (h : exec .sskrRecombine s = .next t) :
    t.sharecnt = s.sharecnt ∧ SameOutside s t 0x100 0x120 := by
  cases hr : sskrRecombine hwConfig s with
  | ok o =>
    rw [exec_sskrRecombine_of_ok hr] at h
    cases h
    exact ⟨rfl, fun a ha => (at_writeRecovered (sskrRecombine_length hr).2 s a).trans (if_neg (by omega))⟩
  | error r =>
    rw [exec_sskrRecombine_of_error hr] at h
    cases h
    exact ⟨rfl, fun a ha => (at_wipeSecret s a).trans (if_neg (by omega))⟩

/-- Settles O54: SLEN and SHARE lie outside SECRET (R61). -/
theorem sskrRecombinePreservesItsInputs : Obligations.SskrRecombinePreservesItsInputs := by
  intro s t h
  obtain ⟨hcount, hrest⟩ := exec_sskrRecombine_frame h
  exact ⟨hcount, fun k _ => hrest _ (by omega), fun k _ j _ => hrest _ (by omega)⟩

end Sys2Proof.Machine

/-! The share codec (46_codec.md R250 to R257). What a command stores in a slot, in RBUF and in the header registers is
said once, so that the obligations are the checks in their order and the two ends of each command. -/

namespace Sys2Proof.Machine

open Sys2Proof Sys2Proof.Claims

/-! ### Nibbles and the header (R100, R254) -/

@[simp] theorem toNat_highNibble (b : Byte) : (highNibble b).toNat = b.toNat / 16 := by
  rw [highNibble, BitVec.extractLsb'_toNat, Nat.shiftRight_eq_div_pow]
  have := b.isLt
  omega

@[simp] theorem toNat_lowNibble (b : Byte) : (lowNibble b).toNat = b.toNat % 16 := by
  rw [lowNibble, BitVec.extractLsb'_toNat, Nat.shiftRight_zero]

theorem toNat_nibbles {hi lo : Nat} (hhi : hi < 16) (hlo : lo < 16) : (nibbles hi lo).toNat = 16 * hi + lo := by
  rw [nibbles, BitVec.toNat_ofNat]
  omega

theorem toNat_byte_append (x y : Byte) : (x ++ y).toNat = 256 * x.toNat + y.toNat := by
  rw [BitVec.toNat_append, ← Nat.shiftLeft_add_eq_or_of_lt y.isLt, Nat.shiftLeft_eq]
  omega

/-- The payload follows the five header bytes. -/
theorem byteAt_encodeShare_payload (id : BitVec 16) (gt gc gi mt mi : Nat) (P : List Byte) (p : Nat) :
    byteAt (encodeShare id gt gc gi mt mi P) (5 + p) = byteAt P p := by
  rw [Nat.add_comm]
  rfl

/-! ### The checks of decoding, in order (R251 to R253, R255) -/

section Checks

variable {B : List Byte} {len k : Nat} {strict : Bool}

theorem readShareFields_rsv_ne_zero_iff :
    (readShareFields B len k).rsv ≠ 0#4 ↔ (byteAt B 4).toNat % 16 ≠ 0 := by
  rw [← toNat_lowNibble, Ne, ← BitVec.toNat_inj]
  rfl

theorem decodeShare_of_short (hshort : len < 21) :
    decodeShare B len strict k = .error ⟨.truncatedShare, infoSlot k⟩ := if_pos hshort

theorem decodeShare_of_bad_length (h21 : 21 ≤ len) (hbad : 37 < len ∨ (len - 5) % 2 = 1) :
    decodeShare B len strict k = .error ⟨.invalidParameters, infoSlot k⟩ := by
  rw [decodeShare, if_neg (Nat.not_lt.mpr h21), if_pos hbad]

/-- With a legal length the reserved nibble and then the header decide. -/
theorem decodeShare_of_legal_length (h21 : 21 ≤ len) (hlen : ¬ (37 < len ∨ (len - 5) % 2 = 1)) :
    decodeShare B len strict k =
      if strict = true ∧ (byteAt B 4).toNat % 16 ≠ 0 then .error ⟨.reservedNonZero, infoSlot k⟩
      else if (byteAt B 2).toNat % 16 + 1 < (byteAt B 2).toNat / 16 + 1 ∨
          (byteAt B 2).toNat % 16 + 1 ≤ (byteAt B 3).toNat / 16 then .error ⟨.invalidParameters, infoSlot k⟩
      else .ok (readShareFields B len k) := by
  rw [decodeShare, if_neg (Nat.not_lt.mpr h21), if_neg hlen]
  simp only [readShareFields_rsv_ne_zero_iff]
  simp only [readShareFields, toNat_highNibble, toNat_lowNibble]

end Checks

/-- Settles O44: a length alone decides the first two clauses; after it the header bytes do. -/
theorem shareDecodingChecksInOrder : Obligations.ShareDecodingChecksInOrder := by
  intro B len strict k gt gc gi rsv lenBad
  refine ⟨decodeShare_of_short, decodeShare_of_bad_length, fun h21 hlen hstrict hrsv => ?_,
    fun h21 hlen hrsv hheader => ?_, fun h21 hlen hrsv hheader => ?_⟩ <;>
    rw [decodeShare_of_legal_length h21 hlen]
  · exact if_pos ⟨hstrict, hrsv⟩
  · exact (if_neg hrsv).trans (if_pos hheader)
  · exact ⟨readShareFields B len k, (if_neg hrsv).trans (if_neg hheader), toNat_byte_append _ _,
      congrArg (· + 1) (toNat_highNibble _), congrArg (· + 1) (toNat_lowNibble _), toNat_highNibble _,
      congrArg (· + 1) (toNat_lowNibble _), toNat_highNibble _, toNat_lowNibble _, rfl, rfl⟩

/-! ### Which bytes decoding reads (R250) -/

theorem byteAt_take (B : List Byte) {p n : Nat} (h : p < n) : byteAt (B.take n) p = byteAt B p := by
  rw [byteAt, byteAt, List.getD_eq_getElem?_getD, List.getElem?_take_of_lt h, ← List.getD_eq_getElem?_getD]

/-- The five header bytes and the payload lie below the share's length. -/
theorem readShareFields_take (B : List Byte) {len : Nat} (h : 5 ≤ len) (k : Nat) :
    readShareFields (B.take len) len k = readShareFields B len k := by
  have hbyte : ∀ p < 5, byteAt (B.take len) p = byteAt B p := fun p hp => byteAt_take B (hp.trans_le h)
  simp [readShareFields, hbyte, List.drop_take]

theorem decodeShare_take (B : List Byte) (len : Nat) (strict : Bool) (k : Nat) :
    decodeShare (B.take len) len strict k = decodeShare B len strict k := by
  by_cases hshort : len < 21
  · rw [decodeShare_of_short hshort, decodeShare_of_short hshort]
  · rw [decodeShare, decodeShare, readShareFields_take B (by omega)]

theorem Memory.take_readBytes (m : Memory) (base n len : Nat) :
    (m.readBytes base n).take len = m.readBytes base (min len n) := by
  rw [Memory.readBytes, ← List.map_take, List.take_range, Memory.readBytes]

/-- Settles O45: the slots agree once they are cut off at SLEN[k]. -/
theorem bytesBeyondTheShareLengthAreIgnored : Obligations.BytesBeyondTheShareLengthAreIgnored := by
  intro s s' k _ hstrict hslen hbytes
  have hread : (s.shareSlot k).take (s.slen k) = (s'.shareSlot k).take (s.slen k) := by
    rw [State.shareSlot, State.shareSlot, Memory.take_readBytes, Memory.take_readBytes]
    exact Memory.readBytes_congr _ _ _ _ fun j hj =>
      hbytes j (hj.trans_le (min_le_left _ _)) (hj.trans_le (min_le_right _ _))
  rw [State.decodeSlot, State.decodeSlot, ← hslen, ← hstrict, ← decodeShare_take, hread, decodeShare_take]

/-! ### SHARE_ENCODE (R256, R304) -/

theorem State.headerIllegal_iff (s : State) :
    s.headerIllegal = true ↔ s.hdr.gt.toNat < 1 ∨ 16 < s.hdr.gc.toNat ∨ s.hdr.gc.toNat < s.hdr.gt.toNat ∨
      s.hdr.gc.toNat ≤ s.hdr.gi.toNat ∨ s.hdr.mt.toNat < 1 ∨ 16 < s.hdr.mt.toNat ∨ 15 < s.hdr2.mi.toNat := by
  simp [State.headerIllegal, or_assoc]

theorem commandBody_shareEncode_of_legal {s : State} (hlen : lenOK s.len = true) (hheader : s.headerIllegal = false)
    (k : Byte) : commandBody (.shareEncode k) s = .commit (writeEncoded k s.len s.shareToEncode s) := by
  simp [commandBody, shareEncodeBody, hlen, hheader]

theorem commandBody_shareEncode_of_illegal {s : State} (h : lenOK s.len = false ∨ s.headerIllegal = true) (k : Byte) :
    commandBody (.shareEncode k) s = .raise s ⟨.invalidParameters, infoCommand⟩ := by
  rcases h with hlen | hheader
  · simp [commandBody, shareEncodeBody, hlen]
  · simp [commandBody, shareEncodeBody, hheader]

theorem State.shareToEncode_length (s : State) : s.shareToEncode.length = 5 + s.len := by
  rw [State.shareToEncode, encodeShare_length, State.rbufVec_length]

/-- The payload of the share to encode is RBUF[0..L). -/
theorem State.byteAt_shareToEncode_payload (s : State) {p : Nat} (hp : p < s.len) :
    byteAt s.shareToEncode (5 + p) = at_ s (0x400 + p) :=
  (byteAt_encodeShare_payload _ _ _ _ _ _ _ p).trans (Memory.byteAt_readBytes s.mem 0x400 s.len p hp)

/-- The whole effect of a command that ends normally with a share stored in slot k. -/
theorem exec_of_commit_writeEncoded {i : Instr} {s : State} {k : Byte} {L : Nat} {V : List Byte} (hV : V.length ≤ 64)
    (hbody : commandBody i s = .commit (writeEncoded k L V s)) (hphase : commandPhase i = .complete) :
    ∃ t, exec i s = .next t ∧ (∀ j < V.length, at_ t (0x4000 + 64 * k.toNat + j) = byteAt V j) ∧
      ZeroIn t (0x4000 + 64 * k.toNat + V.length) (0x4000 + 64 * k.toNat + 64) ∧
      at_ t (0x800 + k.toNat) = BitVec.ofNat 8 V.length ∧
      (∀ a, a ≠ 0x800 + k.toNat → a < 0x4000 + 64 * k.toNat ∨ 0x4000 + 64 * k.toNat + 64 ≤ a → at_ t a = at_ s a) ∧
      t = { s with mem := t.mem, hdr2 := ⟨s.hdr2.mi, 0#4, BitVec.ofNat 8 L⟩, status := okStatus s .complete,
                   latch := none, irq := s.ctrl.ie } := by
  have hk : k.toNat < 256 := k.isLt
  have hread : ∀ a, at_ ((writeEncoded k L V s).completeOk .complete) a = _ :=
    fun a => Memory.read_writeSlot s.mem k.toNat V a hV
  refine ⟨(writeEncoded k L V s).completeOk .complete, ?_, fun j hj => ?_, fun a hlo hhi => ?_, ?_,
    fun a hslen hslot => ?_, rfl⟩
  · rw [exec_eq_conclude, hbody, hphase, conclude_commit]
  · rw [hread, if_neg (by omega), if_pos (by omega), Nat.add_sub_cancel_left]
  · rw [hread, if_neg (by omega), if_pos (by omega), byteAt, List.getD_eq_default _ _ (by omega)]
  · rw [hread, if_pos rfl]
  · rw [hread, if_neg hslen, if_neg (by omega)]
    rfl

/-- Slot k and SLEN[k] after the failure writes, and that no other byte is stored. -/
theorem at_wipeSlot (k : Byte) (s : State) (a : Nat) :
    at_ (wipeSlot k s) a =
      if a = 0x800 + k.toNat ∨ (0x4000 + 64 * k.toNat ≤ a ∧ a < 0x4000 + 64 * k.toNat + 64) then 0x00#8
      else at_ s a := by
  have hslen : at_ (wipeSlot k s) a = if 0x800 + k.toNat ≤ a ∧ a < 0x800 + k.toNat + 1 then 0x00#8
      else (s.mem.clear (shareAddr k.toNat) Config.slotBytes).read a := Memory.read_clear _ (0x800 + k.toNat) 1 a
  have hslot : (s.mem.clear (shareAddr k.toNat) Config.slotBytes).read a =
      if 0x4000 + 64 * k.toNat ≤ a ∧ a < 0x4000 + 64 * k.toNat + 64 then 0x00#8 else at_ s a :=
    Memory.read_clear s.mem (0x4000 + 64 * k.toNat) 64 a
  rw [hslen, hslot, ← ite_or]
  exact if_congr (by omega) rfl rfl

/-- The whole effect of a command that raises and whose failure writes clear slot k and its length. -/
theorem exec_of_raise_wipeSlot {i : Instr} {s : State} {k : Byte} {r : Raised} (hbody : commandBody i s = .raise s r)
    (hwipe : commandWipe i = wipeSlot k) :
    ∃ t, exec i s = .next t ∧ ZeroIn t (0x4000 + 64 * k.toNat) (0x4000 + 64 * k.toNat + 64) ∧
      at_ t (0x800 + k.toNat) = 0x00#8 ∧
      (∀ a, a ≠ 0x800 + k.toNat → a < 0x4000 + 64 * k.toNat ∨ 0x4000 + 64 * k.toNat + 64 ≤ a → at_ t a = at_ s a) ∧
      t = { s with mem := t.mem, status := errStatus s r.err, errinfo := r.info, latch := none, irq := s.ctrl.ie } := by
  refine ⟨(wipeSlot k s).completeRaised r, ?_, fun a hlo hhi => ?_, ?_, fun a hslen hslot => ?_, rfl⟩
  · rw [exec_eq_conclude, hbody, hwipe, conclude_raise]
  · exact (at_wipeSlot k s a).trans (if_pos (.inr ⟨hlo, hhi⟩))
  · exact (at_wipeSlot k s _).trans (if_pos (.inl rfl))
  · exact (at_wipeSlot k s a).trans (if_neg (by omega))

/-- Settles O46: the stored vector is R254's, whose header bytes hold the fields without overflow within the bounds. -/
theorem shareEncodeStoresTheWireFormatOrRejects : Obligations.ShareEncodeStoresTheWireFormatOrRejects := by
  refine ⟨fun k => decode_wordOf _ k _ _, ?stores, ?rejects⟩
  case stores =>
    intro k s hlen hgt hgtgc hgc hgi hmt hmt16 hmi slot
    obtain ⟨-, -, h32⟩ := (lenOK_iff _).mp hlen
    have hheader : s.headerIllegal = false := by
      rw [← Bool.not_eq_true, s.headerIllegal_iff]
      omega
    have hV : s.shareToEncode.length = 5 + s.len := s.shareToEncode_length
    obtain ⟨t, hexec, hbytes, hzero, hslen, hrest, ht⟩ :=
      exec_of_commit_writeEncoded (by omega) (commandBody_shareEncode_of_legal hlen hheader k) rfl
    rw [hV] at hbytes hzero hslen
    refine ⟨t, hexec, hbytes 0 (by omega), hbytes 1 (by omega), ?threshold, ?index, ?member, fun p hp => ?payload,
      ?zeros, ?length, hrest, ht⟩
    case threshold =>
      rw [hbytes 2 (by omega)]
      exact toNat_nibbles (by omega) (by omega)
    case index =>
      rw [hbytes 3 (by omega)]
      exact toNat_nibbles (by omega) (by omega)
    case member =>
      rw [hbytes 4 (by omega)]
      exact toNat_nibbles (by omega) (by omega)
    case payload => rw [Nat.add_assoc, hbytes _ (by omega), s.byteAt_shareToEncode_payload hp]
    case zeros => rwa [Nat.add_assoc]
    case length => rw [hslen, BitVec.toNat_ofNat, Nat.mod_eq_of_lt (by omega)]
  case rejects =>
    intro k s hillegal
    exact exec_of_raise_wipeSlot
      (commandBody_shareEncode_of_illegal (hillegal.imp_right s.headerIllegal_iff.mpr) k) rfl

/-! ### SHARE_DECODE (R257, R304) -/

theorem commandBody_shareDecode_of_ok {s : State} {k : Byte} {h : DecodedShare} (hd : s.decodeSlot k.toNat = .ok h) :
    commandBody (.shareDecode k) s = .commit (writeDecoded h s) := by
  rw [commandBody, shareDecodeBody, hd]

theorem commandBody_shareDecode_of_error {s : State} {k : Byte} {r : Raised} (hd : s.decodeSlot k.toNat = .error r) :
    commandBody (.shareDecode k) s = .raise s r := by
  rw [commandBody, shareDecodeBody, hd]

/-- The payload is what the slot holds from byte 5 on; past it the vector reads 0. -/
theorem State.byteAt_payload {s : State} {k : Nat} {h : DecodedShare} (hd : s.decodeSlot k = .ok h) (p : Nat) :
    byteAt h.payload p = if p < s.slen k - 5 then at_ s (0x4000 + 64 * k + 5 + p) else 0x00#8 := by
  obtain ⟨hfields, hlength, -, h37, -⟩ := State.decodeSlot_ok hd
  split
  · next hp =>
    have hpayload : byteAt h.payload p = byteAt (s.shareSlot k) (5 + p) := by
      rw [hfields, readShareFields, byteAt_take _ hp]
      simp [byteAt]
    rw [hpayload, State.shareSlot, Memory.byteAt_readBytes _ _ _ _ (by rw [Config.slotBytes]; omega), Nat.add_assoc]
    rfl
  · rw [byteAt, List.getD_eq_default _ _ (by omega)]

/-- RBUF after a decoded payload is stored with its zeros, and that no other byte is stored. -/
theorem at_writeDecoded {h : DecodedShare} (hpayload : h.payload.length ≤ 32) (s : State) (a : Nat) :
    at_ (writeDecoded h s) a = if 0x400 ≤ a ∧ a < 0x420 then byteAt h.payload (a - 0x400) else at_ s a :=
  Memory.read_writeBytes_padTo s.mem 0x400 h.payload a hpayload

/-- RBUF after the failure writes, and that no other byte is stored. -/
theorem at_wipeDecoded (s : State) (a : Nat) :
    at_ (wipeDecoded s) a = if 0x400 ≤ a ∧ a < 0x420 then 0x00#8 else at_ s a := at_wipeRbuf s a

/-- Settles O47: the two outcomes of decoding slot k are the two ends of the command. -/
theorem shareDecodeWritesTheFieldsOrClearsThem : Obligations.ShareDecodeWritesTheFieldsOrClearsThem := by
  refine fun k s => ⟨decode_wordOf _ k _ _, fun h hd => ?decodes, fun r hd => ?fails⟩
  case decodes =>
    obtain ⟨-, hlength, -, h37, -⟩ := State.decodeSlot_ok hd
    have hread : ∀ a, at_ ((writeDecoded h s).completeOk .complete) a = _ := at_writeDecoded (by omega) s
    refine ⟨(writeDecoded h s).completeOk .complete, ?_, fun p hp => ?_, fun a ha => ?_, ?_⟩
    · rw [exec_eq_conclude, commandBody_shareDecode_of_ok hd]
      rfl
    · rw [hread, if_pos (by omega), Nat.add_sub_cancel_left, State.byteAt_payload hd]
    · rw [hread, if_neg (by omega)]
    · rw [← hlength]
      rfl
  case fails =>
    refine ⟨(wipeDecoded s).completeRaised r, ?_, fun a hlo hhi => ?_, fun a ha => ?_, rfl⟩
    · rw [exec_eq_conclude, commandBody_shareDecode_of_error hd]
      rfl
    · exact (at_wipeDecoded s a).trans (if_pos ⟨hlo, hhi⟩)
    · exact (at_wipeDecoded s a).trans (if_neg (by omega))

end Sys2Proof.Machine

/-! The control commands NOP and ZEROIZE (47_control.md R280, R281). Neither can fail, so each is said once as its body
inside the completion frame. That ZEROIZE leaves the reset memory is a fact about the canonical form: what it leaves
lists no offset outside the buffers and no byte that is 0, and it has made every byte of the buffers 0. -/

namespace Sys2Proof.Machine

open Sys2Proof Sys2Proof.Claims

/-! ### The commands inside their frame (R280, R281, R301) -/

theorem completeWord_of_decode_ok {w : Word} {i : Instr} (h : decode w = .ok i) (s : State) :
    completeWord w s = exec i s := by
  simp only [completeWord, h]

theorem decode_nop : decode 0x00000000#32 = .ok .nop := decode_wordOf 0x00#8 0x00#8 0x00#8 0x00#8

theorem decode_zeroize : decode 0x000000FF#32 = .ok .zeroize := decode_wordOf 0xFF#8 0x00#8 0x00#8 0x00#8

theorem exec_nop (s : State) : exec .nop s = .next (s.completeOk .complete) := exec_eq_conclude .nop s

theorem exec_zeroize (s : State) : exec .zeroize s = .next ((zeroizeState s).completeOk .complete) :=
  exec_eq_conclude .zeroize s

/-- Settles O57: the CMD write issues the word, and the next step completes it. -/
theorem nopOnlyCompletes : Obligations.NopOnlyCompletes := by
  refine ⟨decode_nop, exec_nop, fun s hidle hsched => ?_⟩
  obtain ⟨-, hissue⟩ := State.busWrite_cmd hidle 0x00000000#32
  have hstep : step (s.issue 0x00000000#32) = completeWord 0x00000000#32 (s.issue 0x00000000#32) :=
    step_of_pending rfl rfl hsched
  rw [hissue, hstep, completeWord_of_decode_ok decode_nop, exec_nop]
  rfl

/-! ### The memory ZEROIZE leaves (R49, R61, R281) -/

/-- The bytes ZEROIZE may write are those of the six buffers. -/
theorem isBufferByte_iff_isOutputByte_zeroize (a : Nat) : isBufferByte a = true ↔ isOutputByte .zeroize a :=
  isBufferByte_iff a

theorem at_zeroizeState (s : State) (a : Nat) :
    at_ (zeroizeState s) a = if isBufferByte a then 0x00#8 else at_ s a :=
  read_zeroized s.mem a

/-- The first entry of a canonical memory reads as what it lists, which is not 0. -/
theorem Memory.read_head_ne_zero {c : Host.Cell} {m : Memory} (h : Memory.wf (c :: m) = true) :
    Memory.read (c :: m) c.1 ≠ 0x00#8 := by
  simp only [Memory.wf, Memory.wfFrom, Bool.and_eq_true, bne_iff_ne] at h
  obtain ⟨⟨-, hne⟩, -⟩ := h
  rwa [Memory.read_cons, if_pos rfl]

/-- An entry that ZEROIZE left would be a buffer byte that does not read 0. -/
theorem zeroized_eq_nil {m : Memory} (h : m.Good) : Buffer.all.foldl Memory.clearBuffer m = [] := by
  have hread := read_zeroized m
  obtain ⟨hwf, hbuf⟩ := good_zeroized h
  cases hm : Buffer.all.foldl Memory.clearBuffer m with
  | nil => rfl
  | cons c rest =>
    rw [hm] at hread hwf hbuf
    have hc : isBufferByte c.1 = true := List.all_eq_true.mp hbuf c List.mem_cons_self
    exact absurd ((hread c.1).trans (if_pos hc)) (Memory.read_head_ne_zero hwf)

/-- Settles O58: the frame is the command's, and the invariant gives what ZEROIZE does not write itself: RNGCNT, ERRINFO
and LASTOP as issue left them, and the canonical memory. -/
theorem zeroizeClearsBuffersAndKeepsConfiguration : Obligations.ZeroizeClearsBuffersAndKeepsConfiguration := by
  refine ⟨decode_zeroize, fun s => ?command, fun s hinv hlatch hsched => ?pending⟩
  case command =>
    refine ⟨(zeroizeState s).completeOk .complete, exec_zeroize s, fun a ha => ?_, fun a ha => ?_, rfl⟩
    · exact (at_zeroizeState s a).trans (if_pos ((isBufferByte_iff_isOutputByte_zeroize a).mpr ha))
    · exact (at_zeroizeState s a).trans (if_neg (mt (isBufferByte_iff_isOutputByte_zeroize a).mp ha))
  case pending =>
    have hbusy : s.status.busy = true := by rw [hinv.busy_iff_latched, hlatch, Option.isSome_some]
    obtain ⟨hrngcnt, herrinfo⟩ := hinv.busy_counters hbusy
    have hlastop : s.status.lastop = 0xFF#8 := hinv.lastop_latched _ hlatch
    have hmem := zeroized_eq_nil ⟨hinv.mem_wf, hinv.mem_in_buffers⟩
    rw [step_of_pending hbusy hlatch hsched, completeWord_of_decode_ok decode_zeroize, exec_zeroize]
    simp only [State.completeOk, zeroizeState, completionStatus, hmem, hrngcnt, herrinfo, hlastop, hsched]
    rfl

end Sys2Proof.Machine

/-! What a command that fails leaves (60_exceptions.md R303, R304), the issue of a word (R300) and a host's line that ends
in a bus error (R306). A command that raises does so from the state its draws led to, so a failure is that state with the
command's failure writes: one lemma says what those write, and a drawing's account of the port says what was drawn. -/

namespace Sys2Proof.Machine

open Sys2Proof Sys2Proof.Claims

/-! ### A drawing's account of the port (R32, R45) -/

/-- One draw after `n` draws is answered by the port's answer number `n`. -/
theorem Port.next_skip (p : Port) (n : Nat) : (p.skip n).next = (p.answerAt n, p.skip (n + 1)) := by
  obtain ⟨as, f⟩ := p
  rcases Nat.lt_or_ge n as.length with hlisted | hpast
  · have hfree : n + 1 - as.length = n - as.length := by omega
    rw [Port.skip, Port.next, List.drop_eq_getElem_cons hlisted]
    simp [Port.skip, Port.answerAt, hlisted, hfree]
  · have hfree : n + 1 - as.length = n - as.length + 1 := by omega
    rw [Port.skip, Port.next, List.drop_eq_nil_of_le hpast]
    simp [Port.skip, Port.answerAt, hpast, hfree, Nat.le_succ_of_le hpast, Nat.add_assoc]

/-- The port `p` answers its first `n` draws with bytes. -/
def Port.Delivers (p : Port) (n : Nat) : Prop := ∀ j < n, ∃ b, p.answerAt j = .byte b

theorem Port.Delivers.succ {p : Port} {n : Nat} {b : Byte} (h : p.Delivers n) (hb : p.answerAt n = .byte b) :
    p.Delivers (n + 1) := by
  intro j hj
  rcases Nat.lt_succ_iff_lt_or_eq.mp hj with hlt | rfl
  · exact h j hlt
  · exact ⟨b, hb⟩

/-- The drawing has come from the port `p` by the bytes it counts. -/
structure Drawing.DrawnFrom (p : Port) (d : Drawing) : Prop where
  delivered : p.Delivers d.count
  port_eq : d.port = p.skip d.count

/-- The drawing has come from the port `p` by the bytes it counts and one refused draw. -/
structure Drawing.RefusedFrom (p : Port) (d : Drawing) : Prop where
  delivered : p.Delivers d.count
  refused : p.answerAt d.count = .unavailable
  port_eq : d.port = p.skip (d.count + 1)

/-- The result's account of the draws from the port `p` is true, where it ends in a value or a refusal. -/
def DrawResult.AccountsFor {α : Type} (p : Port) : DrawResult α → Prop
  | .drawn _ d => d.DrawnFrom p
  | .unavailable d => d.RefusedFrom p
  | .silent _ => True

theorem State.drawing_drawnFrom (s : State) : s.drawing.DrawnFrom s.port where
  delivered := fun j hj => absurd hj (Nat.not_lt_zero j)
  port_eq := s.port.skip_zero.symm

section Accounts

variable {p : Port} {d : Drawing}

theorem DrawResult.AccountsFor.andThen {α β : Type} {r : DrawResult α} {f : α → Drawing → DrawResult β}
    (h : r.AccountsFor p) (hf : ∀ a d, d.DrawnFrom p → (f a d).AccountsFor p) : (r.andThen f).AccountsFor p := by
  cases r with
  | drawn a d => exact hf a d h
  | unavailable d => exact h
  | silent d => trivial

theorem drawByte_accountsFor (h : d.DrawnFrom p) : (drawByte d).AccountsFor p := by
  have hnext : d.port.next = (p.answerAt d.count, p.skip (d.count + 1)) := by rw [h.port_eq, Port.next_skip]
  rw [drawByte, hnext]
  cases hanswer : p.answerAt d.count with
  | byte b => exact ⟨h.delivered.succ hanswer, rfl⟩
  | unavailable => exact ⟨h.delivered, hanswer, rfl⟩
  | silent => trivial

theorem drawVector_accountsFor (m : Nat) (h : d.DrawnFrom p) : (drawVector m d).AccountsFor p := by
  induction m generalizing d with
  | zero => exact h
  | succ m ih => exact (drawByte_accountsFor h).andThen fun _ _ h1 => (ih h1).andThen fun _ _ h2 => h2

theorem drawVectors_accountsFor (n m : Nat) (h : d.DrawnFrom p) : (drawVectors n m d).AccountsFor p := by
  induction n generalizing d with
  | zero => exact h
  | succ n ih => exact (drawVector_accountsFor m h).andThen fun _ _ h1 => (ih h1).andThen fun _ _ h2 => h2

theorem shamirSplit_accountsFor (cfg : Config) (t c : Nat) (dg : Bool) (S : List Byte) (h : d.DrawnFrom p) :
    (shamirSplit cfg t c dg S d).AccountsFor p := by
  unfold shamirSplit
  split_ifs
  · exact h
  · exact (drawVector_accountsFor _ h).andThen fun _ _ h1 => (drawVectors_accountsFor _ _ h1).andThen fun _ _ h2 => h2
  · exact (drawVectors_accountsFor _ _ h).andThen fun _ _ h1 => h1

theorem splitGroups_accountsFor (cfg : Config) (id : BitVec 16) (gt gc : Nat) (jobs : List GroupJob)
    (h : d.DrawnFrom p) : (splitGroups cfg id gt gc jobs d).AccountsFor p := by
  induction jobs generalizing d with
  | nil => exact h
  | cons job jobs ih =>
    exact (shamirSplit_accountsFor _ _ _ _ _ h).andThen fun _ _ h1 => (ih h1).andThen fun _ _ h2 => h2

theorem sskrSplit_accountsFor (cfg : Config) (s : State) (h : d.DrawnFrom p) : (sskrSplit cfg s d).AccountsFor p :=
  (drawByte_accountsFor h).andThen fun _ _ h1 => (drawByte_accountsFor h1).andThen fun _ _ h2 =>
    (shamirSplit_accountsFor _ _ _ _ _ h2).andThen fun _ _ h3 =>
      (splitGroups_accountsFor _ _ _ _ _ h3).andThen fun _ _ h4 => h4

end Accounts

/-! ### How a command fails (R301, R303) -/

/-- `raise r` leaves the draws of `d` behind it: none, or the bytes delivered before a refusal and the refusal (R45). -/
def Raised.LeavesDraws (r : Raised) (s : State) (d : Drawing) : Prop :=
  d = s.drawing ∨ (r.err = .randomnessUnavailable ∧ d.RefusedFrom s.port)

/-- A body that draws raises only for a refusal. -/
theorem drawBody_eq_raise {α : Type} {s u : State} {x : DrawResult α} {k : α → State → State} {r : Raised}
    (hx : x.AccountsFor s.port) (h : drawBody s x k = .raise u r) : ∃ d, u = s.afterDrawing d ∧ r.LeavesDraws s d := by
  cases x with
  | drawn a d => cases h
  | unavailable d =>
    cases h
    exact ⟨d, rfl, .inr ⟨rfl, hx⟩⟩
  | silent d => cases h

theorem State.afterDrawing_drawing (s : State) : s.afterDrawing s.drawing = s := by
  simp [State.afterDrawing, State.drawing]

/-- Every command that raises does so from the state that its draws, if it made any, led to. -/
theorem commandBody_eq_raise {i : Instr} {s u : State} {r : Raised} (h : commandBody i s = .raise u r) :
    ∃ d, u = s.afterDrawing d ∧ r.LeavesDraws s d := by
  rcases commandBody_raise_keeps h with rfl | ⟨-, hsplit, -⟩
  · exact ⟨u.drawing, u.afterDrawing_drawing.symm, .inl rfl⟩
  · have hundrawn : s = u → ∃ d, u = s.afterDrawing d ∧ r.LeavesDraws s d := by
      rintro rfl
      exact ⟨s.drawing, s.afterDrawing_drawing.symm, .inl rfl⟩
    cases i with
    | shamirSplit t c dg =>
      simp only [commandBody, shamirSplitBody] at h
      split_ifs at h
      · exact hundrawn (Body.raise.inj h).1
      · exact hundrawn (Body.raise.inj h).1
      · exact drawBody_eq_raise (shamirSplit_accountsFor _ _ _ _ _ s.drawing_drawnFrom) h
    | sskrSplit =>
      simp only [commandBody, sskrSplitBody] at h
      split at h
      · exact hundrawn (Body.raise.inj h).1
      · exact drawBody_eq_raise (sskrSplit_accountsFor _ _ s.drawing_drawnFrom) h
    | _ => simp [Instr.opcode] at hsplit

/-- NOP, GF_ADD, GF_MUL and ZEROIZE have no failure writes because they cannot fail (R304). -/
theorem opcode_of_commandBody_raise {i : Instr} {s u : State} {r : Raised} (h : commandBody i s = .raise u r) :
    i.opcode ∉ [.nop, .gfAdd, .gfMul, .zeroize] := by
  cases i with
  | nop | gfAdd | gfMul | zeroize => cases h
  | _ => simp [Instr.opcode]

/-- Only a body that raises ends in a state that reports an error where there was none. -/
theorem exec_eq_next_of_error {i : Instr} {s t : State} (h : exec i s = .next t) (hs : s.status.errcode = none)
    (ht : t.status.errcode ≠ none) :
    ∃ u r, commandBody i s = .raise u r ∧ t = (commandWipe i u).completeRaised r := by
  rcases exec_cases i s with ⟨u, -, hexec⟩ | ⟨u, r, hbody, hexec⟩ | ⟨d, -, hexec⟩ <;>
    obtain rfl := Host.Outcome.next.inj (h.symm.trans hexec)
  · exact absurd rfl ht
  · exact ⟨u, r, hbody, rfl⟩
  · exact absurd hs ht

/-! ### The failure writes (R304) -/

theorem at_wipePoints (s : State) (a : Nat) :
    at_ (wipePoints s) a = if (0x180 ≤ a ∧ a < 0x190) ∨ (0x200 ≤ a ∧ a < 0x400) then 0x00#8 else at_ s a := by
  have hpy : at_ (wipePoints s) a = if 0x200 ≤ a ∧ a < 0x400 then 0x00#8 else (s.mem.clearBuffer .px).read a :=
    Memory.read_clear _ 0x200 512 a
  have hpx : (s.mem.clearBuffer .px).read a = if 0x180 ≤ a ∧ a < 0x190 then 0x00#8 else at_ s a :=
    Memory.read_clear s.mem 0x180 16 a
  rw [hpy, hpx, ← ite_or]
  exact if_congr or_comm rfl rfl

/-- The bytes with property `P` are 0 in `t`, and every other byte is as in `s`. -/
def ClearsExactly (P : Nat → Prop) (s t : State) : Prop :=
  (∀ a, P a → at_ t a = 0x00#8) ∧ ∀ a, ¬ P a → at_ t a = at_ s a

theorem clearsExactly_of_eq_ite {P : Nat → Prop} {decP : DecidablePred P} {s t : State}
    (h : ∀ a, at_ t a = if P a then 0x00#8 else at_ s a) : ClearsExactly P s t :=
  ⟨fun a ha => (h a).trans (if_pos ha), fun a ha => (h a).trans (if_neg ha)⟩

theorem clearsExactly_nothing {s t : State} (h : t.mem = s.mem) : ClearsExactly (fun _ => False) s t :=
  ⟨fun _ => False.elim, fun a _ => congrArg (Memory.read · a) h⟩

/-- The failure writes clear the command's output buffers and nothing else; ZEROIZE, which cannot fail, has none. -/
theorem commandWipe_clearsOutputs {i : Instr} (hi : i.opcode ≠ .zeroize) (s : State) :
    ClearsExactly (isOutputByte i) s (commandWipe i s) := by
  cases i with
  | nop | gfAdd | gfMul | gfInv | digestVerify => exact clearsExactly_nothing rfl
  | lagrEval | digestMake => exact clearsExactly_of_eq_ite (at_wipeRbuf s)
  | shamirSplit => exact clearsExactly_of_eq_ite (at_wipePoints s)
  | shamirRecombine | sskrRecombine => exact clearsExactly_of_eq_ite (at_wipeSecret s)
  | sskrSplit => exact clearsExactly_of_eq_ite (at_wipeShares s)
  | shareEncode k => exact clearsExactly_of_eq_ite (at_wipeSlot k s)
  | shareDecode => exact clearsExactly_of_eq_ite (at_wipeDecoded s)
  | zeroize => exact absurd rfl hi

/-- The failure writes clear the command's output registers and no other. -/
theorem commandWipe_registers (i : Instr) (s : State) :
    (commandWipe i s).result = (if i.opcode = .gfInv then 0x00#8 else s.result) ∧
    (commandWipe i s).ident = (if i.opcode = .sskrSplit ∨ i.opcode = .shareDecode then 0x0000#16 else s.ident) ∧
    (commandWipe i s).hdr = (if i.opcode = .shareDecode then ⟨0x00#8, 0x00#8, 0x00#8, 0x00#8⟩ else s.hdr) ∧
    (commandWipe i s).hdr2 = (if i.opcode = .shareDecode then ⟨0x00#8, 0#4, 0x00#8⟩ else s.hdr2) ∧
    (commandWipe i s).sharecnt = (if i.opcode = .sskrSplit then 0x0000#16 else s.sharecnt) := by
  cases i <;> exact ⟨rfl, rfl, rfl, rfl, rfl⟩

/-! ### A bus error (R306) -/

theorem State.target_of_busWriteResponse_error {s : State} {addr : BitVec 16} {w : Width}
    (h : s.busWriteResponse addr w = .error) : s.target true addr w = none := by
  cases htarget : s.target true addr w with
  | none => rfl
  | some t => cases (State.busWriteResponse_of_target htarget).symm.trans h

/-! ### The obligations -/

/-- Settles O11: the failure is the command's failure writes on the state that its draws led to, which differs from the
one before the command in the port and RNGCNT alone. -/
theorem failedCommandsOnlyClearTheirOutputs : Obligations.FailedCommandsOnlyClearTheirOutputs := by
  refine ⟨fun i s t hexec hs ht => ?_, execIllegal_eq⟩
  obtain ⟨u, r, hbody, rfl⟩ := exec_eq_next_of_error hexec hs ht
  have hop := opcode_of_commandBody_raise hbody
  obtain ⟨d, rfl, hdraws⟩ := commandBody_eq_raise hbody
  have hzeroize : i.opcode ≠ .zeroize := by
    intro hz
    simp [hz] at hop
  obtain ⟨hclear, hkeep⟩ := commandWipe_clearsOutputs hzeroize (s.afterDrawing d)
  obtain ⟨hresult, hident, hhdr, hhdr2, hsharecnt⟩ := commandWipe_registers i (s.afterDrawing d)
  obtain ⟨hstatus, hctrl, hsplitcfg, hgspec, hinputs, hschedule, hresponses, hobservations, hport, hrngcnt, hdrawn⟩ :=
    commandWipe_keeps i (s.afterDrawing d)
  have herr : ((commandWipe i (s.afterDrawing d)).completeRaised r).status = errStatus s r.err :=
    congrArg (completionStatus · .failed (some r.err)) hstatus
  have hirq : ((commandWipe i (s.afterDrawing d)).completeRaised r).irq = s.ctrl.ie := congrArg Ctrl.ie hctrl
  refine ⟨hop, hclear, hkeep, hresult, hident, hhdr, hhdr2, hsharecnt, hctrl, hsplitcfg, hgspec, hinputs, hschedule,
    hresponses, hobservations, hdrawn, rfl, hirq, r.err, d.count, herr, hrngcnt, ?_⟩
  rcases hdraws with rfl | ⟨hunavailable, hdelivered, hrefused, hleft⟩
  · exact .inl ⟨rfl, hport⟩
  · exact .inr ⟨hunavailable, hdelivered, hrefused, hport.trans hleft⟩

/-- Settles O7: the write has CMD as its target, so its effect is the issue of the word. -/
theorem cmdWriteIssuesTheWord : Obligations.CmdWriteIssuesTheWord := by
  intro s w hidle
  obtain ⟨hresponse, hissue⟩ := State.busWrite_cmd hidle w
  refine ⟨hresponse, hissue.trans ?_⟩
  simp only [State.issue, issueStatus, issuePhase, infoCommand, irqLevel, Bool.false_and]

/-- Settles O22: a line records how its access completes, and a write that ends in a bus error has no target. -/
theorem busErrorsChangeNoState : Obligations.BusErrorsChangeNoState := by
  refine fun s addr w v => ⟨fun hread => ?_, fun hwrite => ?_⟩
  · rw [State.hostOp, hread, State.respond]
  · obtain ⟨-, hsame⟩ := State.busWrite_of_no_target v (State.target_of_busWriteResponse_error hwrite)
    rw [State.hostOp, hwrite, hsame, State.respond]

end Sys2Proof.Machine

/-! The encoding as a bijection (30_encoding.md R90 to R98): the legal words are exactly the encodings of the well-formed
instructions. The word and its four fields are the same thing, so every statement is one about fields; a row of the opcode
map is the opcode of its command and the bits its format wants to be zero. -/

namespace Sys2Proof

/-! ### Words and fields (R90) -/

/-- Putting a word's fields together undoes taking them apart. -/
theorem CommandWord.toWord_ofWord (w : Word) : (CommandWord.ofWord w).toWord = w := Machine.bytes_append w

/-- Every instruction's encoding has its OPC and its must-be-zero fields zero (R94). -/
theorem encodeFields_legal (i : Instr) :
    (encodeFields i).opc = i.opcode.toByte ∧ i.opcode.format.mustBeZeroOk (encodeFields i) = true := by
  have hword : Laws.EncodesLegally.Statement i := by
    cases i with
    | nop => exact Laws.EncodesLegally.nop
    | gfAdd a b => exact Laws.EncodesLegally.gfAdd a b
    | gfMul a b => exact Laws.EncodesLegally.gfMul a b
    | gfInv a => exact Laws.EncodesLegally.gfInv a
    | lagrEval n x => exact Laws.EncodesLegally.lagrEval n x
    | shamirSplit t c dg => exact Laws.EncodesLegally.shamirSplit t c dg
    | shamirRecombine t n dg => exact Laws.EncodesLegally.shamirRecombine t n dg
    | digestMake => exact Laws.EncodesLegally.digestMake
    | digestVerify => exact Laws.EncodesLegally.digestVerify
    | sskrSplit => exact Laws.EncodesLegally.sskrSplit
    | sskrRecombine => exact Laws.EncodesLegally.sskrRecombine
    | shareEncode k => exact Laws.EncodesLegally.shareEncode k
    | shareDecode k => exact Laws.EncodesLegally.shareDecode k
    | zeroize => exact Laws.EncodesLegally.zeroize
  rwa [Laws.EncodesLegally.Statement, encode, CommandWord.ofWord_toWord] at hword

/-! ### What the decoder accepts (R90, R94) -/

/-- The decoder reads an instruction from fields exactly when they carry its opcode, their must-be-zero fields are zero,
and the operand fields are its operands. -/
theorem decodeFields_eq_ok_iff (f : CommandWord) (i : Instr) :
    decodeFields f = .ok i ↔
      ∃ op : Opcode, f.opc = op.toByte ∧ op.format.mustBeZeroOk f = true ∧ assembleInstr op f = i := by
  constructor
  · intro h
    rw [decodeFields] at h
    cases hop : decodeOpcode f.opc with
    | none => simp [hop] at h
    | some op =>
      cases hzero : op.format.mustBeZeroOk f with
      | false => simp [hop, hzero] at h
      | true => exact ⟨op, decodeOpcode_eq_some.mp hop, hzero, by simpa [hop, hzero] using h⟩
  · rintro ⟨op, hopc, hzero, rfl⟩
    simp [decodeFields, decodeOpcode_eq_some.mpr hopc, hzero]

theorem opcode_assembleInstr (op : Opcode) (f : CommandWord) : (assembleInstr op f).opcode = op := by
  cases op <;> rfl

/-- The operand fields of a well-formed instruction hold its operands without loss. -/
theorem assembleInstr_encodeFields {i : Instr} (hwf : i.wellFormed = true) :
    assembleInstr i.opcode (encodeFields i) = i := by
  cases i with
  | lagrEval n x =>
    have hn : n < 256 := of_decide_eq_true hwf
    simp [assembleInstr, Instr.opcode, encodeFields, Nat.mod_eq_of_lt hn]
  | shamirSplit t c dg | shamirRecombine t c dg =>
    simp only [Instr.wellFormed, fitsByte, Bool.and_eq_true, decide_eq_true_eq] at hwf
    obtain ⟨ht, hc⟩ := hwf
    have hflag := Machine.digestFlag_getLsbD dg
    simp only [assembleInstr, Instr.opcode, encodeFields, BitVec.toNat_ofNat, hflag]
    rw [Nat.mod_eq_of_lt ht, Nat.mod_eq_of_lt hc]
  | _ => rfl

/-- Settles O1: the encoded fields carry the opcode and the operands, and the decoder accepts them. -/
theorem encodedInstructionsDecodeToThemselves : Obligations.EncodedInstructionsDecodeToThemselves := by
  intro i hwf
  obtain ⟨hopc, hzero⟩ := encodeFields_legal i
  rw [decode_encode_fields]
  exact (decodeFields_eq_ok_iff _ i).mpr ⟨i.opcode, hopc, hzero, assembleInstr_encodeFields hwf⟩

/-! ### What decoding keeps of a word (R97) -/

theorem wellFormed_assembleInstr (op : Opcode) (f : CommandWord) : (assembleInstr op f).wellFormed = true := by
  have hbyte : ∀ b : Byte, fitsByte b.toNat = true := fun b => decide_eq_true b.isLt
  cases op <;> simp [assembleInstr, Instr.wellFormed, hbyte]

/-- Field C of format S is the DG flag when its must-be-zero bits are zero (R91). -/
theorem encodeDigestFlag_getLsbD : ∀ c : Byte, c &&& 0xFE#8 = 0#8 → encodeDigestFlag (c.getLsbD 0) = c := by decide

/-- Fields with their must-be-zero fields zero are those of the instruction they assemble to. -/
theorem encodeFields_assembleInstr {op : Opcode} {f : CommandWord} (hopc : f.opc = op.toByte)
    (hzero : op.format.mustBeZeroOk f = true) : encodeFields (assembleInstr op f) = f := by
  obtain ⟨o, a, b, c⟩ := f
  cases op with
  | shamirSplit | shamirRecombine =>
    have hflag := encodeDigestFlag_getLsbD c (beq_iff_eq.mp hzero)
    simp_all [encodeFields, assembleInstr, Instr.opcode]
  | _ => simp_all [Opcode.format, Format.mustBeZeroOk, encodeFields, assembleInstr, Instr.opcode]

/-- Settles O2: the fields of a legal word are those of its instruction, and the fields make up the word. -/
theorem legalWordsAreTheirInstructionsEncodings : Obligations.LegalWordsAreTheirInstructionsEncodings := by
  intro w i h
  obtain ⟨op, hopc, hzero, rfl⟩ := (decodeFields_eq_ok_iff _ i).mp h
  refine ⟨wellFormed_assembleInstr _ _, ?_⟩
  rw [encode, encodeFields_assembleInstr hopc hzero, CommandWord.toWord_ofWord]

/-! ### The opcode map (R92) -/

/-- The bits of the operand fields that a format wants to be zero (R91). -/
def Format.zeroMask : Format → CommandWord
  | .z => ⟨0x00#8, 0xFF#8, 0xFF#8, 0xFF#8⟩
  | .g2 | .l => ⟨0x00#8, 0x00#8, 0x00#8, 0xFF#8⟩
  | .g1 | .k => ⟨0x00#8, 0x00#8, 0xFF#8, 0xFF#8⟩
  | .s => ⟨0x00#8, 0x00#8, 0x00#8, 0xFE#8⟩

theorem and_0xFF (x : Byte) : x &&& 0xFF#8 = x := BitVec.and_allOnes

theorem Format.mustBeZeroOk_iff_zeroMask (fmt : Format) (f : CommandWord) :
    fmt.mustBeZeroOk f = true ↔
      f.a &&& fmt.zeroMask.a = 0#8 ∧ f.b &&& fmt.zeroMask.b = 0#8 ∧ f.c &&& fmt.zeroMask.c = 0#8 := by
  cases fmt <;> simp [Format.mustBeZeroOk, Format.zeroMask, and_0xFF, and_assoc]

/-- Each row's mask is the OPC and the must-be-zero bits of its format, and its pattern is its OPC. -/
theorem opcodeMap_masks : ∀ r ∈ opcodeMap,
    r.mask = { r.opcode.format.zeroMask with opc := 0xFF#8 }.toWord ∧
      r.pattern = (⟨r.opcode.toByte, 0#8, 0#8, 0#8⟩ : CommandWord).toWord := by decide

theorem CommandWord.toWord_injective : Function.Injective CommandWord.toWord :=
  Function.LeftInverse.injective CommandWord.ofWord_toWord

theorem CommandWord.toWord_and (f g : CommandWord) :
    f.toWord &&& g.toWord = (⟨f.opc &&& g.opc, f.a &&& g.a, f.b &&& g.b, f.c &&& g.c⟩ : CommandWord).toWord := by
  have hand : (f.c ++ f.b ++ f.a ++ f.opc : BitVec (8 + 8 + 8 + 8)) &&& (g.c ++ g.b ++ g.a ++ g.opc) =
      (f.c &&& g.c) ++ (f.b &&& g.b) ++ (f.a &&& g.a) ++ (f.opc &&& g.opc) := by
    simp only [BitVec.and_append]
  exact hand

/-- A row selects a word by its OPC and its must-be-zero fields. -/
theorem selects_iff {r : OpcodeRow} (hr : r ∈ opcodeMap) (w : Word) :
    r.selects w = true ↔ (CommandWord.ofWord w).opc = r.opcode.toByte ∧
      r.opcode.format.mustBeZeroOk (CommandWord.ofWord w) = true := by
  obtain ⟨hmask, hpattern⟩ := opcodeMap_masks r hr
  rw [OpcodeRow.selects, beq_iff_eq, hmask, hpattern]
  conv_lhs => rw [← CommandWord.toWord_ofWord w]
  rw [CommandWord.toWord_and, CommandWord.toWord_injective.eq_iff, Format.mustBeZeroOk_iff_zeroMask, CommandWord.mk.injEq,
    and_0xFF]

theorem Opcode.toByte_injective : Function.Injective Opcode.toByte := fun _ _ h =>
  Option.some.inj ((decodeOpcode_eq_some.mpr rfl).symm.trans (decodeOpcode_eq_some.mpr h))

/-- Every opcode has one row. -/
theorem opcodeMap_row_of_opcode : ∀ op : Opcode, ∃ r ∈ opcodeMap, r.opcode = op := by
  intro op
  cases op <;> simp [opcodeMap]

theorem opcodeMap_opcode_injective : ∀ r ∈ opcodeMap, ∀ r' ∈ opcodeMap, r'.opcode = r.opcode → r' = r := by decide

/-- Settles O3: the decoder accepts a word exactly when the row of its OPC selects it, and no two rows have one OPC. -/
theorem everyWordIsOneCommandOrIllegal : Obligations.EveryWordIsOneCommandOrIllegal := by
  intro w
  cases hd : decode w with
  | ok i =>
    obtain ⟨op, hopc, hzero, rfl⟩ := (decodeFields_eq_ok_iff _ i).mp hd
    obtain ⟨r, hr, rfl⟩ := opcodeMap_row_of_opcode op
    refine .inl ⟨r, hr, (selects_iff hr w).mpr ⟨hopc, hzero⟩, fun r' hr' hsel => ?_, _, rfl, opcode_assembleInstr _ _⟩
    obtain ⟨hopc', -⟩ := (selects_iff hr' w).mp hsel
    exact opcodeMap_opcode_injective r hr r' hr' (Opcode.toByte_injective (hopc'.symm.trans hopc))
  | error e =>
    refine .inr ⟨fun r hr => ?_, e, rfl⟩
    by_contra hsel
    obtain ⟨hopc, hzero⟩ := (selects_iff hr w).mp (Bool.not_eq_false _ ▸ hsel)
    have hok : decode w = .ok _ := (decodeFields_eq_ok_iff _ _).mpr ⟨r.opcode, hopc, hzero, rfl⟩
    cases hok.symm.trans hd

/-- Settles O5: the words put together from the fields of the forms of 30_encoding.md. -/
theorem exampleWordsDecodeAsWritten : Obligations.ExampleWordsDecodeAsWritten := by
  unfold Obligations.ExampleWordsDecodeAsWritten
  decide

end Sys2Proof

/-! What every command can do (60_exceptions.md R301, R303, R304), said once: what its body has written when it ends
normally, and the completion frame around it. The frames of the commands and of the whole machine are read off it. -/

namespace Sys2Proof.Machine

open Sys2Proof Sys2Proof.Claims

/-! ### A legal split specification (45_sskr.md R211, R212) -/

theorem GroupSpec.illegal_eq_false_iff (sp : GroupSpec) :
    sp.illegal = false ↔ 1 ≤ sp.mt.toNat ∧ sp.mt.toNat ≤ sp.mc.toNat ∧ sp.mc.toNat ≤ 16 := by
  rw [← Bool.not_eq_true, GroupSpec.illegal_iff]
  omega

theorem State.firstBadGroup_eq_none_iff (s : State) :
    s.firstBadGroup = none ↔ ∀ g < s.splitcfg.gc.toNat, (s.groupSpec g).illegal = false := by
  simp [State.firstBadGroup]

/-- The validation of R212 finds no error exactly in the specifications that R211 calls legal. -/
theorem State.splitError_eq_none_iff (s : State) : s.splitError = none ↔ SplitLegal s := by
  constructor
  · intro h
    by_cases hbad : lenOK s.len = false ∨ s.splitcfg.gc.toNat < 1 ∨ 16 < s.splitcfg.gc.toNat ∨
        s.splitcfg.gt.toNat < 1 ∨ s.splitcfg.gc.toNat < s.splitcfg.gt.toNat
    · simp [State.splitError_of_bad_parameters hbad] at h
    · simp only [not_or, Bool.not_eq_false, not_lt] at hbad
      obtain ⟨hlen, h1, h16, ht, htc⟩ := hbad
      rw [State.splitError_of_legal_parameters hlen h1 h16 ht htc, Option.map_eq_none_iff,
        State.firstBadGroup_eq_none_iff] at h
      exact ⟨hlen, h1, h16, ht, htc, fun g hg => (GroupSpec.illegal_eq_false_iff _).mp (h g hg)⟩
  · rintro ⟨hlen, h1, h16, ht, htc, hgroups⟩
    rw [State.splitError_of_legal_parameters hlen h1 h16 ht htc, Option.map_eq_none_iff,
      State.firstBadGroup_eq_none_iff]
    exact fun g hg => (GroupSpec.illegal_eq_false_iff _).mpr (hgroups g hg)

/-- The slots of a legal specification fit the share RAM (R213). -/
theorem sharesBefore_le {s : State} (hlegal : SplitLegal s) : sharesBefore s s.splitcfg.gc.toNat ≤ 256 := by
  obtain ⟨-, -, h16, -, -, hgroups⟩ := hlegal
  have hsum := List.sum_le_card_nsmul ((List.range s.splitcfg.gc.toNat).map fun h => (s.groupSpec h).mc.toNat) 16 (by
    simp only [List.mem_map, List.mem_range]
    rintro _ ⟨g, hg, rfl⟩
    obtain ⟨-, -, hmc⟩ := hgroups g hg
    exact hmc)
  simp only [List.length_map, List.length_range, smul_eq_mul] at hsum
  unfold sharesBefore
  omega

/-! ### What a body that ends normally has written -/

/-- What the command rules let a body that ends normally have written: where the state differs from the one before it,
and that every vector fits the buffer it is stored in. -/
def CommitsTo (i : Instr) (s t : State) : Prop :=
  match i with
  | .nop | .digestVerify => t = s
  | .gfAdd _ _ | .gfMul _ _ | .gfInv _ => ∃ v, t = writeResult v s
  | .lagrEval _ _ => ∃ V, V.length ≤ 32 ∧ t = writeRbuf V s
  | .shamirSplit _ c _ => ∃ L Y d, L ≤ 32 ∧ t = writePoints L c Y (s.afterDrawing d)
  | .shamirRecombine _ _ _ => ∃ S, S.length ≤ 32 ∧ t = writeSecret S s
  | .digestMake => ∃ (L : Nat) (D : Vector Byte 4), 4 ≤ L ∧ L ≤ 32 ∧ t = writeDigest L D.toList s
  | .sskrSplit => ∃ o d, o.shares.length ≤ 256 ∧ (∀ w ∈ o.shares, w.length ≤ 64) ∧ t = writeSplit o (s.afterDrawing d)
  | .sskrRecombine => ∃ o : Recovered, o.secret.length ≤ 32 ∧ t = writeRecovered o s
  | .shareEncode k => ∃ L V, V.length ≤ 64 ∧ t = writeEncoded k L V s
  | .shareDecode _ => ∃ h : DecodedShare, h.payload.length ≤ 32 ∧ t = writeDecoded h s
  | .zeroize => t = zeroizeState s

/-- A body that draws ends normally only with a value drawn. -/
theorem drawBody_eq_commit {α : Type} {s t : State} {r : DrawResult α} {k : α → State → State}
    (h : drawBody s r k = .commit t) : ∃ a d, r = .drawn a d ∧ t = k a (s.afterDrawing d) := by
  cases r with
  | drawn a d => exact ⟨a, d, rfl, (Body.commit.inj h).symm⟩
  | unavailable d => cases h
  | silent d => cases h

section Commits

variable {s t : State}

theorem lagrEval_commitsTo {n : Nat} {x : Byte} (h : commandBody (.lagrEval n x) s = .commit t) :
    CommitsTo (.lagrEval n x) s t := by
  simp only [commandBody, lagrEvalBody] at h
  split_ifs at h with hlen hn
  have hL := (lenOK_iff _).mp (by simpa using hlen)
  split at h
  · cases h
  · exact ⟨_, by rw [interp_length]; exact hL.2.2, (Body.commit.inj h).symm⟩

theorem shamirSplit_commitsTo {tr c : Nat} {dg : Bool} (h : commandBody (.shamirSplit tr c dg) s = .commit t) :
    CommitsTo (.shamirSplit tr c dg) s t := by
  simp only [commandBody, shamirSplitBody] at h
  split_ifs at h with hlen
  have hL := (lenOK_iff _).mp (by simpa using hlen)
  obtain ⟨Y, d, -, rfl⟩ := drawBody_eq_commit h
  exact ⟨_, Y, d, hL.2.2, rfl⟩

theorem shamirRecombine_commitsTo {tr n : Nat} {dg : Bool} (h : commandBody (.shamirRecombine tr n dg) s = .commit t) :
    CommitsTo (.shamirRecombine tr n dg) s t := by
  simp only [commandBody, shamirRecombineBody] at h
  split_ifs at h with hlen hops
  have hL := (lenOK_iff _).mp (by simpa using hlen)
  split at h
  · cases h
  · split at h
    · next S hS =>
      have hlength := shamirRecombine_length hS (by omega) State.length_y_of_mem_points
      exact ⟨S, by omega, (Body.commit.inj h).symm⟩
    · cases h

theorem digestMake_commitsTo (h : commandBody .digestMake s = .commit t) : CommitsTo .digestMake s t := by
  simp only [commandBody, digestMakeBody] at h
  split_ifs at h with hlen
  have hL := (lenOK_iff _).mp (by simpa using hlen)
  exact ⟨s.len, hwConfig.digestFn (s.secretVec s.len) (s.rbufSalt s.len), by omega, hL.2.2, (Body.commit.inj h).symm⟩

theorem sskrSplit_commitsTo (h : commandBody .sskrSplit s = .commit t) : CommitsTo .sskrSplit s t := by
  simp only [commandBody, sskrSplitBody] at h
  split at h
  · cases h
  · next hnone =>
    have hlegal := s.splitError_eq_none_iff.mp hnone
    obtain ⟨o, d, ho, rfl⟩ := drawBody_eq_commit h
    obtain ⟨hcount, hlength⟩ := sskrSplit_lengths ho
    have hL := (lenOK_iff _).mp hlegal.1
    refine ⟨o, d, hcount.trans_le (sharesBefore_le hlegal), fun w hw => ?_, rfl⟩
    have := hlength w hw
    omega

theorem sskrRecombine_commitsTo (h : commandBody .sskrRecombine s = .commit t) : CommitsTo .sskrRecombine s t := by
  simp only [commandBody, sskrRecombineBody] at h
  split at h
  · next o ho => exact ⟨o, (sskrRecombine_length ho).2, (Body.commit.inj h).symm⟩
  · cases h

theorem shareEncode_commitsTo {k : Byte} (h : commandBody (.shareEncode k) s = .commit t) :
    CommitsTo (.shareEncode k) s t := by
  simp only [commandBody, shareEncodeBody] at h
  split_ifs at h with hlen
  have hL := (lenOK_iff _).mp (by simpa using hlen)
  exact ⟨_, _, by rw [State.shareToEncode_length]; omega, (Body.commit.inj h).symm⟩

theorem shareDecode_commitsTo {k : Byte} (h : commandBody (.shareDecode k) s = .commit t) :
    CommitsTo (.shareDecode k) s t := by
  simp only [commandBody, shareDecodeBody] at h
  split at h
  · next x hx =>
    have hfacts := State.decodeSlot_ok hx
    exact ⟨x, by omega, (Body.commit.inj h).symm⟩
  · cases h

/-- The inversion of a normal end, for every command. -/
theorem commandBody_commitsTo {i : Instr} (h : commandBody i s = .commit t) : CommitsTo i s t := by
  cases i with
  | nop | zeroize => exact (Body.commit.inj h).symm
  | gfAdd | gfMul => exact ⟨_, (Body.commit.inj h).symm⟩
  | gfInv a =>
    simp only [commandBody, gfInvBody] at h
    split_ifs at h
    exact ⟨_, (Body.commit.inj h).symm⟩
  | digestVerify =>
    simp only [commandBody, digestVerifyBody] at h
    split_ifs at h
    exact (Body.commit.inj h).symm
  | lagrEval => exact lagrEval_commitsTo h
  | shamirSplit => exact shamirSplit_commitsTo h
  | shamirRecombine => exact shamirRecombine_commitsTo h
  | digestMake => exact digestMake_commitsTo h
  | sskrSplit => exact sskrSplit_commitsTo h
  | sskrRecombine => exact sskrRecombine_commitsTo h
  | shareEncode => exact shareEncode_commitsTo h
  | shareDecode => exact shareDecode_commitsTo h

/-! ### The buffers a command writes (R304) -/

/-- What SSKR_SPLIT leaves outside SLEN and SHARE (R215). -/
theorem at_writeSplit_of_outside {o : SplitOutput} (hcount : o.shares.length ≤ 256)
    (hshares : ∀ w ∈ o.shares, w.length ≤ 64) (u : State) {a : Nat}
    (ha : ¬ ((0x800 ≤ a ∧ a < 0x900) ∨ (0x4000 ≤ a ∧ a < 0x8000))) : at_ (writeSplit o u) a = at_ u a := by
  have hstore := read_storeShares o.shares 0 ((u.mem.clearBuffer .share).clearBuffer .slen) a hshares (by omega)
  rw [if_neg (by omega), if_neg (by omega)] at hstore
  have hclear := (at_wipeShares u a).trans (if_neg ha)
  exact hstore.trans hclear

/-- A body that ends normally has written no byte but its outputs. -/
theorem CommitsTo.writesOnlyOutputs {i : Instr} (h : CommitsTo i s t) {a : Nat} (ha : ¬ isOutputByte i a) :
    at_ t a = at_ s a := by
  cases i with
  | nop | digestVerify => rw [show t = s from h]
  | gfAdd | gfMul | gfInv =>
    obtain ⟨v, rfl⟩ := h
    rfl
  | lagrEval =>
    obtain ⟨V, hV, rfl⟩ := h
    exact (at_writeRbuf hV s a).trans (if_neg ha)
  | shamirSplit =>
    obtain ⟨L, Y, d, hL, rfl⟩ := h
    simp only [isOutputByte, not_or] at ha
    exact (read_writePoints (s.afterDrawing d) L _ Y a hL).trans ((if_neg ha.1).trans (if_neg ha.2))
  | shamirRecombine =>
    obtain ⟨S, hS, rfl⟩ := h
    exact (Memory.read_writeBytes_padTo s.mem 0x100 S a hS).trans (if_neg ha)
  | digestMake =>
    obtain ⟨L, D, h4, hL, rfl⟩ := h
    simp only [isOutputByte] at ha
    rw [at_writeDigest s D hL, if_neg (by omega), if_neg (by omega)]
  | sskrSplit =>
    obtain ⟨o, d, hcount, hshares, rfl⟩ := h
    exact at_writeSplit_of_outside hcount hshares (s.afterDrawing d) ha
  | sskrRecombine =>
    obtain ⟨o, ho, rfl⟩ := h
    exact (at_writeRecovered ho s a).trans (if_neg ha)
  | shareEncode k =>
    obtain ⟨L, V, hV, rfl⟩ := h
    simp only [isOutputByte, not_or] at ha
    exact (Memory.read_writeSlot s.mem k.toNat V a hV).trans ((if_neg ha.1).trans (if_neg ha.2))
  | shareDecode =>
    obtain ⟨x, hx, rfl⟩ := h
    exact (at_writeDecoded hx s a).trans (if_neg ha)
  | zeroize =>
    rw [show t = zeroizeState s from h, at_zeroizeState]
    exact if_neg (mt (isBufferByte_iff_isOutputByte_zeroize a).mp ha)

/-- A body that ends normally keeps the memory canonical and within the buffers. -/
theorem CommitsTo.good {i : Instr} (h : CommitsTo i s t) (hs : s.mem.Good) : t.mem.Good := by
  cases i with
  | nop | digestVerify => rwa [show t = s from h]
  | gfAdd | gfMul | gfInv =>
    obtain ⟨v, rfl⟩ := h
    exact hs
  | lagrEval =>
    obtain ⟨V, hV, rfl⟩ := h
    exact Memory.good_writeBytes_padTo .rbuf V hs hV (.inr rfl)
  | shamirSplit =>
    obtain ⟨L, Y, d, hL, rfl⟩ := h
    exact good_writePoints (s.afterDrawing d) L _ Y hs hL
  | shamirRecombine =>
    obtain ⟨S, hS, rfl⟩ := h
    exact Memory.good_writeBytes_padTo .secret S hs hS (.inl rfl)
  | digestMake =>
    obtain ⟨L, D, -, -, rfl⟩ := h
    exact good_writeDigest s L D hs
  | sskrSplit =>
    obtain ⟨o, d, hcount, hshares, rfl⟩ := h
    exact good_storeShares o.shares 0 (Memory.good_clearBuffer .slen (Memory.good_clearBuffer .share hs)) hshares
      (by omega)
  | sskrRecombine =>
    obtain ⟨o, ho, rfl⟩ := h
    exact Memory.good_writeBytes_padTo .secret o.secret hs ho (.inl rfl)
  | shareEncode k =>
    obtain ⟨L, V, hV, rfl⟩ := h
    exact Memory.good_writeSlot k.toNat V hs k.isLt hV
  | shareDecode =>
    obtain ⟨x, hx, rfl⟩ := h
    exact Memory.good_writeBytes_padTo .rbuf x.payload hs hx (.inr rfl)
  | zeroize =>
    rw [show t = zeroizeState s from h]
    exact good_zeroized hs

/-- Which registers a body that ends normally leaves as they were, and where it draws. -/
theorem CommitsTo.keepsRegisters {i : Instr} (h : CommitsTo i s t) :
    (i.opcode ≠ .sskrRecombine → t.ctrl.len = s.ctrl.len) ∧
    (i.opcode ∉ [.gfAdd, .gfMul, .gfInv, .zeroize] → t.result = s.result) ∧
    (i.opcode ∉ [.sskrSplit, .sskrRecombine, .shareDecode, .zeroize] → t.ident = s.ident) ∧
    (i.opcode ∉ [.shareDecode, .zeroize] → t.hdr = s.hdr) ∧
    (i.opcode ∉ [.shareEncode, .shareDecode, .zeroize] → t.hdr2 = s.hdr2) ∧
    (i.opcode ∉ [.sskrSplit, .zeroize] → t.sharecnt = s.sharecnt) ∧
    (i.opcode ∉ [.shamirSplit, .sskrSplit] → t.port = s.port ∧ t.rngcnt = s.rngcnt) := by
  cases i with
  | nop | digestVerify | zeroize =>
    obtain rfl := h
    simp [Instr.opcode]
  | gfAdd | gfMul | gfInv =>
    obtain ⟨v, rfl⟩ := h
    simp [Instr.opcode]
  | lagrEval | shamirRecombine | sskrRecombine | shareDecode =>
    obtain ⟨v, -, rfl⟩ := h
    simp [Instr.opcode]
  | shamirSplit =>
    obtain ⟨L, Y, d, -, rfl⟩ := h
    simp [Instr.opcode]
  | digestMake =>
    obtain ⟨L, D, -, -, rfl⟩ := h
    simp [Instr.opcode]
  | sskrSplit =>
    obtain ⟨o, d, -, -, rfl⟩ := h
    simp [Instr.opcode]
  | shareEncode k =>
    obtain ⟨L, V, -, rfl⟩ := h
    simp [Instr.opcode]

end Commits

/-! ### The three ends of a command (R301, R303, R311) -/

/-- A body that raises leaves the memory as it was: its draws change the port and RNGCNT alone. -/
theorem commandBody_raise_mem {i : Instr} {s u : State} {r : Raised} (h : commandBody i s = .raise u r) :
    u.mem = s.mem := by
  obtain ⟨d, rfl, -⟩ := commandBody_eq_raise h
  rfl

/-- Only the splits can be left without an answer (R45, R311). -/
theorem opcode_of_commandBody_hang {i : Instr} {s : State} {d : Drawing} (h : commandBody i s = .hang d) :
    i.opcode = .shamirSplit ∨ i.opcode = .sskrSplit := by
  by_contra hop
  exact commandBody_ne_hang (not_or.mp hop) s d h

/-- Settles O12: a normal end writes the outputs of its rule, a failure those of R304, and a hang nothing. -/
theorem commandsWriteOnlyTheirOutputBuffers : Obligations.CommandsWriteOnlyTheirOutputBuffers := by
  intro i s t hexec a ha
  rcases exec_cases i s with ⟨u, hbody, h⟩ | ⟨u, r, hbody, h⟩ | ⟨d, -, h⟩ <;>
    obtain rfl := Host.Outcome.next.inj (hexec.symm.trans h)
  · exact (commandBody_commitsTo hbody).writesOnlyOutputs ha
  · have hzeroize : i.opcode ≠ .zeroize := fun hz => opcode_of_commandBody_raise hbody (by simp [hz])
    obtain ⟨-, hkeep⟩ := commandWipe_clearsOutputs hzeroize u
    exact (hkeep a ha).trans (congrArg (Memory.read · a) (commandBody_raise_mem hbody))
  · rfl

/-- Every command keeps the memory canonical and within the buffers. -/
theorem exec_good {i : Instr} {s t : State} (hexec : exec i s = .next t) (hs : s.mem.Good) : t.mem.Good := by
  rcases exec_cases i s with ⟨u, hbody, h⟩ | ⟨u, r, hbody, h⟩ | ⟨d, -, h⟩ <;>
    obtain rfl := Host.Outcome.next.inj (hexec.symm.trans h)
  · exact (commandBody_commitsTo hbody).good hs
  · exact good_commandWipe i u (by rwa [commandBody_raise_mem hbody])
  · exact hs

/-- What the draws of a body that raises leave as it was. -/
theorem raise_afterDrawing_keeps {i : Instr} {s u : State} {r : Raised} (h : commandBody i s = .raise u r)
    (hop : i.opcode ∉ [.shamirSplit, .sskrSplit]) : u = s := by
  rcases commandBody_raise_keeps h with rfl | ⟨-, hsplit, -⟩
  · rfl
  · simp only [List.mem_cons, List.not_mem_nil, or_false] at hop
    exact absurd hsplit hop

/-- Settles O13: a normal end is read off its inversion, a failure off the failure writes and the draws. -/
theorem commandsKeepTheRegistersTheyDoNotWrite : Obligations.CommandsKeepTheRegistersTheyDoNotWrite := by
  intro i s t hexec
  rcases exec_cases i s with ⟨u, hbody, h⟩ | ⟨u, r, hbody, h⟩ | ⟨d, hbody, h⟩ <;>
    obtain rfl := Host.Outcome.next.inj (hexec.symm.trans h)
  case inl =>
    obtain ⟨hstatus, -, -, -, hsplitcfg, hgspec, hstrict, hie, hinputs, hschedule, hresponses, hobservations, hdrawn⟩ :=
      commandBody_commit_keeps hbody
    obtain ⟨hlen, hresult, hident, hhdr, hhdr2, hsharecnt, hport⟩ := (commandBody_commitsTo hbody).keepsRegisters
    have hlastop : u.status.lastop = s.status.lastop := congrArg Status.lastop hstatus
    exact ⟨hsplitcfg, hgspec, hstrict, hie, hlastop, hinputs, hschedule, hresponses,
      hobservations, hlen, hresult, hident, hhdr, hhdr2, hsharecnt,
      fun hop => ⟨(hport hop).1, (hport hop).2, hdrawn⟩⟩
  case inr.inl =>
    obtain ⟨hresult, hident, hhdr, hhdr2, hsharecnt⟩ := commandWipe_registers i u
    obtain ⟨hstatus, hctrl, hsplitcfg, hgspec, hinputs, hschedule, hresponses, hobservations, hport, hrngcnt, hdrawn⟩ :=
      commandWipe_keeps i u
    have hlastop : (commandWipe i u).status.lastop = u.status.lastop := congrArg Status.lastop hstatus
    obtain ⟨d, rfl, -⟩ := commandBody_eq_raise hbody
    refine ⟨hsplitcfg, hgspec, congrArg Ctrl.strict hctrl, congrArg Ctrl.ie hctrl, hlastop, hinputs, hschedule,
      hresponses, hobservations, fun _ => congrArg Ctrl.len hctrl, fun hop => hresult.trans ?_,
      fun hop => hident.trans ?_, fun hop => hhdr.trans ?_, fun hop => hhdr2.trans ?_, fun hop => hsharecnt.trans ?_,
      fun hop => ?_⟩
    case refine_6 =>
      have hsame := raise_afterDrawing_keeps hbody hop
      exact ⟨hport.trans (congrArg State.port hsame), hrngcnt.trans (congrArg State.rngcnt hsame), hdrawn⟩
    all_goals
      simp only [List.mem_cons, List.not_mem_nil, or_false, not_or] at hop
      simp [hop]
  case inr.inr =>
    refine ⟨rfl, rfl, rfl, rfl, rfl, rfl, rfl, rfl, rfl, fun _ => rfl, fun _ => rfl, fun _ => rfl, fun _ => rfl,
      fun _ => rfl, fun _ => rfl, fun hop => absurd (opcode_of_commandBody_hang hbody) ?_⟩
    simpa using hop

/-! ### The completion frame (R301) -/

theorem commandPhase_eq (i : Instr) : commandPhase i = if i = .sskrRecombine then .verified else .complete := by
  cases i <;> simp [commandPhase, Instr.opcode]

/-- Settles O8: the frame is `conclude`'s, and neither the body nor the failure writes touch what it sets. -/
theorem everyCommandEndsInTheCompletionFrame : Obligations.EveryCommandEndsInTheCompletionFrame := by
  intro i s
  rcases exec_cases i s with ⟨u, hbody, h⟩ | ⟨u, r, hbody, h⟩ | ⟨d, hbody, h⟩ <;> refine ⟨_, h, ?_⟩
  · obtain ⟨hstatus, herrinfo, -, -, -, -, -, hie, -⟩ := commandBody_commit_keeps hbody
    have hok : completionStatus u.status (commandPhase i) none = okStatus s (commandPhase i) := by rw [hstatus]; rfl
    rw [← commandPhase_eq]
    exact .inr ⟨rfl, hie, .inl ⟨hok, herrinfo⟩⟩
  · obtain ⟨d, rfl, -⟩ := commandBody_eq_raise hbody
    obtain ⟨hstatus, hctrl, -⟩ := commandWipe_keeps i (s.afterDrawing d)
    exact .inr ⟨rfl, congrArg Ctrl.ie hctrl, .inr ⟨r.err, congrArg (completionStatus · .failed (some r.err)) hstatus⟩⟩
  · exact .inl ⟨opcode_of_commandBody_hang hbody, _, rfl⟩

end Sys2Proof.Machine

/-! The invariant (10_state.md R23, R43, R46; 60_exceptions.md R300, R301) and the steps of the two agents. An engine step
is a completion, whose frame the invariant is read off, or a hang; a host step is a line of the host's program, of which
only a write of CTRL, STATUS or CMD and the reset input change a field the invariant speaks of. -/

namespace Sys2Proof.Machine

open Sys2Proof Sys2Proof.Claims

/-! ### The invariant and the fields it speaks of -/

/-- Settles O14: each clause of the invariant, evaluated at the table of R49. -/
theorem resetStateMeetsTheInvariant : Obligations.ResetStateMeetsTheInvariant where
  busy_iff_latched := rfl
  irq_level := rfl
  phase_pending := rfl
  phase_failed := by decide
  busy_not_done := fun _ => rfl
  phase_recombining := by decide
  lastop_latched := fun _ h => absurd h (Option.some_ne_none _).symm
  busy_counters := fun _ => ⟨rfl, rfl⟩
  mem_wf := reset_mem_wf
  mem_in_buffers := rfl

section Keeping

variable {s t : State}

/-- The invariant speaks of these fields only. -/
theorem State.Inv.of_fields_eq (h : s.Inv) (hstatus : t.status = s.status) (hlatch : t.latch = s.latch)
    (hirq : t.irq = s.irq) (hie : t.ctrl.ie = s.ctrl.ie) (hrngcnt : t.rngcnt = s.rngcnt)
    (herrinfo : t.errinfo = s.errinfo) (hmem : t.mem = s.mem) : t.Inv where
  busy_iff_latched := by rw [hstatus, hlatch]; exact h.busy_iff_latched
  irq_level := by rw [hirq, hstatus, hie]; exact h.irq_level
  phase_pending := by rw [hstatus]; exact h.phase_pending
  phase_failed := by rw [hstatus]; exact h.phase_failed
  busy_not_done := by rw [hstatus]; exact h.busy_not_done
  phase_recombining := by rw [hstatus, hlatch]; exact h.phase_recombining
  lastop_latched := by rw [hstatus, hlatch]; exact h.lastop_latched
  busy_counters := by rw [hstatus, hrngcnt, herrinfo]; exact h.busy_counters
  mem_wf := by rw [hmem]; exact h.mem_wf
  mem_in_buffers := by rw [hmem]; exact h.mem_in_buffers

theorem State.Inv.good (h : s.Inv) : s.mem.Good := ⟨h.mem_wf, h.mem_in_buffers⟩

/-- The phase and the error code of a completed command agree: FAILED with an error, VERIFIED or COMPLETE without. -/
def Phase.Completes (ph : Phase) (e : Option ErrCode) : Prop :=
  (ph = .failed ∧ e ≠ none) ∨ ((ph = .verified ∨ ph = .complete) ∧ e = none)

/-- The completion frame meets the invariant. -/
theorem State.Inv.of_completed {ph : Phase} {e : Option ErrCode} {lastop : Byte} (hlatch : t.latch = none)
    (hirq : t.irq = t.ctrl.ie) (hstatus : t.status = ⟨false, true, ph, e, lastop⟩) (hph : ph.Completes e)
    (hmem : t.mem.Good) : t.Inv where
  busy_iff_latched := by rw [hstatus, hlatch]; rfl
  irq_level := by rw [hirq, hstatus]; rfl
  phase_pending := by rw [hstatus]; rcases hph with ⟨rfl, -⟩ | ⟨rfl | rfl, -⟩ <;> rfl
  phase_failed := by rw [hstatus]; rcases hph with ⟨rfl, he⟩ | ⟨rfl | rfl, rfl⟩ <;> simp [*]
  busy_not_done := by rw [hstatus]; exact fun h => Bool.noConfusion h
  phase_recombining := by
    rw [hstatus, hlatch]
    rcases hph with ⟨rfl, -⟩ | ⟨rfl | rfl, -⟩ <;> simp [Phase.recombining]
  lastop_latched := by rw [hlatch]; exact fun _ h => absurd h (Option.some_ne_none _).symm
  busy_counters := by rw [hstatus]; exact fun h => Bool.noConfusion h
  mem_wf := hmem.1
  mem_in_buffers := hmem.2

/-! ### The engine's step (R301) -/

theorem exec_keeps_inv {i : Instr} (h : s.Inv) (hexec : exec i s = .next t) : t.Inv := by
  have hgood := exec_good hexec h.good
  obtain ⟨-, -, -, hie, -⟩ := commandsKeepTheRegistersTheyDoNotWrite i s t hexec
  obtain ⟨t', hexec', hframe⟩ := everyCommandEndsInTheCompletionFrame i s
  obtain rfl := Host.Outcome.next.inj (hexec.symm.trans hexec')
  rcases hframe with ⟨-, n, rfl⟩ | ⟨hlatch, hirq, ⟨hok, -⟩ | ⟨e, herr⟩⟩
  · exact h.of_fields_eq rfl rfl rfl rfl rfl rfl rfl
  · refine .of_completed hlatch (hirq.trans hie.symm) hok (.inr ⟨?_, rfl⟩) hgood
    split <;> simp
  · exact .of_completed hlatch (hirq.trans hie.symm) herr (.inl ⟨rfl, Option.some_ne_none e⟩) hgood

theorem execIllegal_keeps_inv (h : s.Inv) (hexec : execIllegal s = .next t) : t.Inv := by
  obtain rfl := Host.Outcome.next.inj ((execIllegal_eq s).symm.trans hexec)
  exact .of_completed rfl rfl rfl (.inl ⟨rfl, Option.some_ne_none _⟩) h.good

theorem engineStep_keeps_inv (h : s.Inv) (hstep : engineStep s = .next t) : t.Inv := by
  rcases engineStep_cases s with ⟨-, he⟩ | ⟨-, -, he⟩ | ⟨w, i, -, -, -, he⟩ | ⟨w, e, -, -, -, he⟩ <;> rw [he] at hstep
  · obtain rfl := Host.Outcome.next.inj hstep
    exact h
  · cases hstep
  · exact exec_keeps_inv h hstep
  · exact execIllegal_keeps_inv h hstep

/-! ### The progress of a pending recombine (R233) -/

/-- A free draw of the progress moves PHASE among 2, 3 and 4 only, and never back. -/
theorem progressPhase_keeps (ph : Phase) (r : RecombineProgress) :
    (progressPhase ph r).pending = ph.pending ∧ (progressPhase ph r).recombining = ph.recombining ∧
      (progressPhase ph r = .failed ↔ ph = .failed) ∧ ph.code.toNat ≤ (progressPhase ph r).code.toNat := by
  cases ph <;> cases r <;> decide

theorem State.progress_of_idle (h : s.status.busy = false) : s.progress = s := by
  simp [State.progress, h]

theorem State.progress_of_busy (h : s.status.busy = true) :
    s.progress = { s with
      status := { s.status with phase := progressPhase s.status.phase (Config.recombineProgress s.observations) }
      observations := s.observations + 1 } := by
  simp [State.progress, h]

theorem State.Inv.progress (h : s.Inv) : s.progress.Inv := by
  cases hbusy : s.status.busy with
  | false => rwa [State.progress_of_idle hbusy]
  | true =>
    obtain ⟨hpending, hrecombining, hfailed, -⟩ :=
      progressPhase_keeps s.status.phase (Config.recombineProgress s.observations)
    rw [State.progress_of_busy hbusy]
    exact {
      busy_iff_latched := h.busy_iff_latched
      irq_level := h.irq_level
      phase_pending := hpending.trans h.phase_pending
      phase_failed := hfailed.trans h.phase_failed
      busy_not_done := h.busy_not_done
      phase_recombining := (iff_of_eq (congrArg (· = true) hrecombining)).trans h.phase_recombining
      lastop_latched := h.lastop_latched
      busy_counters := h.busy_counters
      mem_wf := h.mem_wf
      mem_in_buffers := h.mem_in_buffers }

/-! ### A host write (R24, R34, R46, R300) -/

theorem issuePhase_pending (w : Word) : (issuePhase w).pending = true := by
  unfold issuePhase
  split <;> rfl

theorem issuePhase_ne_failed (w : Word) : issuePhase w ≠ .failed := by
  unfold issuePhase
  split <;> exact Phase.noConfusion

theorem issuePhase_recombining_iff (w : Word) : (issuePhase w).recombining = true ↔ w = 0x00000041#32 := by
  unfold issuePhase
  split <;> simp_all [Phase.recombining]

/-- An issued command meets the invariant, whatever was before. -/
theorem State.Inv.issue (h : s.Inv) (w : Word) : (s.issue w).Inv where
  busy_iff_latched := rfl
  irq_level := rfl
  phase_pending := issuePhase_pending w
  phase_failed := iff_of_false (issuePhase_ne_failed w) (not_not.mpr rfl)
  busy_not_done := fun _ => rfl
  phase_recombining := (issuePhase_recombining_iff w).trans (Option.some_inj).symm
  lastop_latched := fun _ hw => congrArg (BitVec.extractLsb' 0 8) (Option.some.inj hw)
  busy_counters := fun _ => ⟨rfl, rfl⟩
  mem_wf := h.mem_wf
  mem_in_buffers := h.mem_in_buffers

theorem State.Inv.clearDone (h : s.Inv) : s.clearDone.Inv where
  busy_iff_latched := h.busy_iff_latched
  irq_level := rfl
  phase_pending := h.phase_pending
  phase_failed := h.phase_failed
  busy_not_done := fun _ => rfl
  phase_recombining := h.phase_recombining
  lastop_latched := h.lastop_latched
  busy_counters := h.busy_counters
  mem_wf := h.mem_wf
  mem_in_buffers := h.mem_in_buffers

theorem State.Inv.writeCtrl (h : s.Inv) (v : Word) : (s.writeCtrl v).Inv where
  busy_iff_latched := h.busy_iff_latched
  irq_level := rfl
  phase_pending := h.phase_pending
  phase_failed := h.phase_failed
  busy_not_done := h.busy_not_done
  phase_recombining := h.phase_recombining
  lastop_latched := h.lastop_latched
  busy_counters := h.busy_counters
  mem_wf := h.mem_wf
  mem_in_buffers := h.mem_in_buffers

theorem State.Inv.writeReg (h : s.Inv) (r : Reg) (v : Word) : (s.writeReg r v).Inv := by
  cases r with
  | ctrl => exact h.writeCtrl v
  | status =>
    rw [State.writeReg, State.writeStatus]
    split
    · exact h.clearDone
    · exact h
  | cmd => exact h.issue v
  | id | result | errinfo | rngcnt => exact h
  | ident | hdr | hdr2 | splitcfg | sharecnt | gspec => exact h.of_fields_eq rfl rfl rfl rfl rfl rfl rfl

/-- The invariant of a state that differs in its memory alone. -/
theorem State.Inv.withMem (h : s.Inv) {m : Memory} (hm : m.Good) : State.Inv { s with mem := m } where
  busy_iff_latched := h.busy_iff_latched
  irq_level := h.irq_level
  phase_pending := h.phase_pending
  phase_failed := h.phase_failed
  busy_not_done := h.busy_not_done
  phase_recombining := h.phase_recombining
  lastop_latched := h.lastop_latched
  busy_counters := h.busy_counters
  mem_wf := hm.1
  mem_in_buffers := hm.2

theorem State.Inv.busWrite (h : s.Inv) (addr : BitVec 16) (w : Width) (v : Word) : (s.busWrite addr w v).Inv := by
  cases htarget : s.target true addr w with
  | none =>
    obtain ⟨-, hsame⟩ := State.busWrite_of_no_target v htarget
    rwa [hsame]
  | some target =>
    rw [State.busWrite_of_target v htarget]
    cases target with
    | register r => exact h.writeReg r v
    | buffer a n =>
      obtain ⟨-, -, -, hlegal⟩ := State.target_buffer htarget
      refine h.withMem (Memory.good_writeBytes a (wordToBytes v n) h.good fun x hlo hhi => ?_)
      rw [wordToBytes, List.length_map, List.length_range] at hhi
      exact isBufferByte_of_legal hlegal hlo hhi

/-! ### A line of the host's program (R104, R340) -/

theorem State.Inv.hardReset (s : State) : s.hardReset.Inv :=
  resetStateMeetsTheInvariant.of_fields_eq rfl rfl rfl rfl rfl rfl rfl

theorem State.Inv.hostOp (h : s.Inv) (op : HostOp) : (s.hostOp op).Inv := by
  cases op with
  | read addr w | wait => exact h.of_fields_eq rfl rfl rfl rfl rfl rfl rfl
  | write addr w v => exact (h.busWrite addr w v).of_fields_eq rfl rfl rfl rfl rfl rfl rfl
  | reset => exact State.Inv.hardReset s

theorem State.Inv.hostStep (h : s.Inv) : s.hostStep.Inv := by
  unfold State.hostStep
  split
  · exact h
  · next op rest _ =>
    have hrest : State.Inv { s with inputs := rest } := h.of_fields_eq rfl rfl rfl rfl rfl rfl rfl
    exact hrest.progress.hostOp op

theorem State.Inv.takeTurn (h : s.Inv) : s.takeTurn.Inv :=
  h.of_fields_eq (by simp) (by simp) (by simp) (by simp) (by simp) (by simp) (by simp)

/-! ### Whose step it is (R3, R350) -/

/-- A step is the host's or the engine's, after the turn is taken. -/
theorem step_cases (s : State) : step s = .next s.takeTurn.hostStep ∨ step s = engineStep s.takeTurn := by
  cases h : s.nextAgent with
  | host => exact .inl (step_host s h)
  | engine => exact .inr (step_engine s h)

/-- While the invariant holds the engine's step finds a word in LATCH to complete. -/
theorem State.Inv.engineStep_next (h : s.Inv) : ∃ t, engineStep s = .next t := by
  rcases engineStep_cases s with ⟨-, he⟩ | ⟨hbusy, hlatch, -⟩ | ⟨w, i, -, -, -, he⟩ | ⟨w, e, -, -, -, he⟩
  · exact ⟨_, he⟩
  · have hlatched := h.busy_iff_latched
    rw [hbusy, hlatch] at hlatched
    cases hlatched
  · obtain ⟨t, ht, -⟩ := everyCommandEndsInTheCompletionFrame i s
    exact ⟨t, he.trans ht⟩
  · exact ⟨_, he.trans (execIllegal_eq s)⟩

end Keeping

/-- Settles O15: either agent's step keeps the invariant. -/
theorem everyStepKeepsTheInvariant : Obligations.EveryStepKeepsTheInvariant := by
  intro s t hinv hstep
  rcases step_cases s with h | h <;> rw [h] at hstep
  · obtain rfl := Host.Outcome.next.inj hstep
    exact hinv.takeTurn.hostStep
  · exact engineStep_keeps_inv hinv.takeTurn hstep

/-- Settles O16: the host's step always answers a state, and the engine's where the invariant holds. -/
theorem invariantStatesStepSafely : Obligations.InvariantStatesStepSafely := by
  intro s hinv
  rcases step_cases s with h | h
  · exact ⟨_, h⟩
  · obtain ⟨t, ht⟩ := hinv.takeTurn.engineStep_next
    exact ⟨t, h.trans ht⟩

/-! ### The step on a latched legal word (R301) -/

/-- With the engine's turn scheduled first, a pending word is completed after the turn is taken. -/
theorem step_of_scheduled_engine {s : State} {w : Word} {rest : List Agent} (hbusy : s.status.busy = true)
    (hlatch : s.latch = some w) (hsched : s.schedule = .engine :: rest) :
    step s = completeWord w { s with schedule := rest } := by
  have hagent : s.nextAgent = .engine := by simp only [State.nextAgent, hsched]
  have hturn : s.takeTurn = { s with schedule := rest } := by simp only [State.takeTurn, hsched]
  rw [step_engine s hagent, hturn]
  simp only [engineStep, hbusy, hlatch, if_true]

theorem tableWord_toNat (w : Word) : tableWord 32 w.toNat = w := by
  rw [tableWord, Nat.mod_eq_of_lt w.isLt, BitVec.ofNat_toNat, BitVec.setWidth_eq]

/-- Settles O6: the engine's step completes the latched word by its instruction. -/
theorem stepRunsTheDecodedCommand : Obligations.StepRunsTheDecodedCommand := by
  refine ⟨fun s w i hbusy hlatch hdecode => ⟨fun hsched => ?_, fun rest hsched => ?_⟩, fun s i hwf => ?_⟩
  · rw [step_of_pending hbusy hlatch hsched, completeWord_of_decode_ok hdecode]
  · rw [step_of_scheduled_engine hbusy hlatch hsched, completeWord_of_decode_ok hdecode]
  · rw [State.withFetchWord, tableWord_toNat, step_of_pending rfl rfl rfl,
      completeWord_of_decode_ok (encodedInstructionsDecodeToThemselves i hwf)]

/-! ### PHASE of a pending recombine (R233) -/

/-- A host access changes neither PHASE nor LATCH while a command is pending: a write of CMD is then a bus error. -/
theorem State.busWrite_of_busy {s : State} (hbusy : s.status.busy = true) (addr : BitVec 16) (w : Width) (v : Word) :
    (s.busWrite addr w v).status.phase = s.status.phase ∧ (s.busWrite addr w v).latch = s.latch := by
  by_cases haccept : acceptedAccess true addr w
  · obtain ⟨rfl, rfl | ⟨-, hwrite⟩⟩ := haccept
    · obtain ⟨-, -, -, -, -, hstatus⟩ := busyMachineAcceptsOnlyIdAndStatus s 0x008#16 .word v hbusy
      rw [hstatus]
      split <;> exact ⟨rfl, rfl⟩
    · cases hwrite
  · obtain ⟨-, hsame⟩ := (busyMachineAcceptsOnlyIdAndStatus s addr w v hbusy).2.1 haccept
    rw [hsame]
    exact ⟨rfl, rfl⟩

/-- No line but the reset input moves PHASE or LATCH while a command is pending. -/
theorem State.hostOp_of_busy {s : State} (hbusy : s.status.busy = true) {op : HostOp} (hop : op ≠ .reset) :
    (s.hostOp op).status.phase = s.status.phase ∧ (s.hostOp op).latch = s.latch := by
  cases op with
  | read addr w | wait => exact ⟨rfl, rfl⟩
  | write addr w v => exact State.busWrite_of_busy hbusy addr w v
  | reset => exact absurd rfl hop

/-- Settles O28: the progress before the host's line moves PHASE forward within 2, 3 and 4, and the line itself leaves
it. -/
theorem pendingRecombinePhaseNeverFallsBack : Obligations.PendingRecombinePhaseNeverFallsBack := by
  intro s hbusy hrecombining hinput
  unfold State.hostStep
  split
  · exact ⟨hrecombining, le_rfl, rfl⟩
  · next op rest hinputs =>
    have hop : op ≠ .reset := by
      rintro rfl
      exact hinput (by rw [hinputs]; rfl)
    obtain ⟨-, hkeeps, -, hforward⟩ := progressPhase_keeps s.status.phase (Config.recombineProgress s.observations)
    have hprogress := State.progress_of_busy (s := { s with inputs := rest }) hbusy
    have hbusy' : (State.progress { s with inputs := rest }).status.busy = true := by rw [hprogress]; exact hbusy
    obtain ⟨hphase, hlatch⟩ := State.hostOp_of_busy hbusy' hop
    rw [hphase, hlatch, hprogress]
    exact ⟨hkeeps.trans hrecombining, hforward, rfl⟩

end Sys2Proof.Machine

/-! The reset input (70_reset_and_hazards.md R340, R341; 10_state.md R49) and the registers and buffers as the host reads
them (10_state.md R21 to R33, 20_memory.md R62, R63). A reading is a concatenation of fields, and a field of it is cut out
from where it stands in the concatenation. -/

namespace Sys2Proof.Machine

open Sys2Proof Sys2Proof.Claims

/-! ### The table of reset values (R49) -/

/-- The GSPEC registers are 0 after reset. -/
theorem readReg_reset_gspec (g : Fin 16) : State.reset.readReg (.gspec g) = 0#32 := by
  have hget : (Vector.replicate 16 (⟨0x00#8, 0x00#8⟩ : GroupSpec))[g] = ⟨0x00#8, 0x00#8⟩ := by simp
  rw [State.readReg, show State.reset.gspec = Vector.replicate 16 (⟨0x00#8, 0x00#8⟩ : GroupSpec) from rfl, hget]
  rfl

/-- Settles O19: every register but GSPEC evaluates, and no byte is listed. -/
theorem resetValuesAreTheTables : Obligations.ResetValuesAreTheTables :=
  ⟨rfl, rfl, rfl, rfl, rfl, rfl, rfl, rfl, rfl, rfl, rfl, rfl, readReg_reset_gspec, fun _ => rfl, rfl, rfl⟩

/-! ### The reset input (R340, R341) -/

/-- After the reset input every register reads its reset value, whatever was pending. -/
theorem readReg_hardReset (s : State) (r : Reg) : s.hardReset.readReg r = State.reset.readReg r := by
  cases r <;> rfl

/-- With the host's turn scheduled and the reset input its next line, the step is the reset, after the progress that any
line meets (R233). -/
theorem step_of_reset_input {s : State} {rest : List HostOp} {sched : List Agent} (hinput : s.inputs = .reset :: rest)
    (hsched : s.schedule = .host :: sched) :
    step s = .next (State.progress { s with schedule := sched, inputs := rest }).hardReset := by
  have hagent : s.nextAgent = .host := by simp only [State.nextAgent, hsched]
  have hturn : s.takeTurn = { s with schedule := sched } := by simp only [State.takeTurn, hsched]
  rw [step_host s hagent, hturn]
  simp only [State.hostStep, hinput]
  rfl

@[simp] theorem State.progress_busy (s : State) : s.progress.status.busy = s.status.busy := by
  cases h : s.status.busy with
  | false => rw [State.progress_of_idle h, h]
  | true => rw [State.progress_of_busy h]; exact h

/-- A port that nothing has been drawn from is no draws away from itself. -/
theorem Port.drawsTo_self (p : Port) : p.drawsTo p = 0 := by simp [Port.drawsTo]

/-- Only the splits draw (R45), so the completion of any other word makes no draws. -/
theorem State.pendingDraws_of_not_split {s : State}
    (h : ∀ w i, s.latch = some w → decode w = .ok i → i.opcode ≠ .shamirSplit ∧ i.opcode ≠ .sskrSplit) :
    s.pendingDraws = 0 := by
  unfold State.pendingDraws
  cases hlatch : s.latch with
  | none => rfl
  | some w =>
    cases hd : decode w with
    | error e => simp [hd]
    | ok i =>
      obtain ⟨hne, hne'⟩ := h w i hlatch hd
      obtain ⟨t, hexec, hframe⟩ := everyCommandEndsInTheCompletionFrame i s
      obtain ⟨-, -, -, -, -, -, -, -, -, -, -, -, -, -, -, hport⟩ := commandsKeepTheRegistersTheyDoNotWrite i s t hexec
      have hbusy : t.status.busy = false := by
        rcases hframe with ⟨hop, -⟩ | ⟨-, -, ⟨hok, -⟩ | ⟨e, herr⟩⟩
        · exact absurd hop (not_or.mpr ⟨hne, hne'⟩)
        · rw [hok]; rfl
        · rw [herr]; rfl
      have hsame : t.port = s.port := (hport (by simp [hne, hne'])).1
      simp [hd, hexec, hbusy, hsame, Port.drawsTo_self]

/-- Reset discards no draw of a command that is known to have made none and makes none. -/
theorem State.abandonedDraws_eq_zero {s : State} (hpending : s.pendingDraws = 0) (hdrawn : s.drawn = 0) :
    s.abandonedDraws = 0 := by
  simp [State.abandonedDraws, hpending, hdrawn]

/-- Settles O17: the reset state's readings are the table's, and the draws reset discards lie between those known to have
been made and, for a word that does not draw, none. -/
theorem resetInputRestoresEveryResetValue : Obligations.ResetInputRestoresEveryResetValue := by
  intro s rest sched hinput hsched
  obtain ⟨hid, hctrl, hstatus, hcmd, hresult, herrinfo, hident, hhdr, hhdr2, hsplitcfg, hsharecnt, hrngcnt, hgspec, -⟩ :=
    resetValuesAreTheTables
  have hread := readReg_hardReset (State.progress { s with schedule := sched, inputs := rest })
  refine ⟨_, (State.progress { s with schedule := sched, inputs := rest }).abandonedDraws,
    step_of_reset_input hinput hsched, (hread _).trans hid, (hread _).trans hctrl, (hread _).trans hstatus,
    (hread _).trans hcmd, (hread _).trans hresult, (hread _).trans herrinfo, (hread _).trans hident,
    (hread _).trans hhdr, (hread _).trans hhdr2, (hread _).trans hsplitcfg, (hread _).trans hsharecnt,
    (hread _).trans hrngcnt, fun g => (hread _).trans (hgspec g), fun _ => rfl, rfl, rfl, ?_, ?_, ?_, rfl, ?_,
    fun hidle => ?_, fun hbusy => ?_, fun hnosplit hdrawn => ?_⟩
  · exact State.progress_inputs _
  · exact State.progress_schedule _
  · exact State.progress_responses _
  · exact congrArg (Port.skip · _) (State.progress_port _)
  · exact State.abandonedDraws_idle ((State.progress_busy _).trans hidle)
  · have hbounds := State.abandonedDraws_bounds ((State.progress_busy { s with schedule := sched, inputs := rest }).trans
      hbusy)
    simpa using hbounds.1
  · exact State.abandonedDraws_eq_zero (State.pendingDraws_of_not_split (by simpa using hnosplit))
      ((State.progress_drawn _).trans hdrawn)

/-! ### Fields of a concatenation -/

section Fields

variable {v w n k : Nat}

/-- A field that lies in the lower part of a concatenation. -/
theorem extractLsb'_append_low (x : BitVec v) (y : BitVec w) (h : k + n ≤ w) :
    (x ++ y).extractLsb' k n = y.extractLsb' k n := by
  ext i hi
  simp only [BitVec.getElem_extractLsb', BitVec.getLsbD_append]
  simp [show k + i < w by omega]

/-- A field that lies in the upper part of a concatenation. -/
theorem extractLsb'_append_high (x : BitVec v) (y : BitVec w) (h : w ≤ k) :
    (x ++ y).extractLsb' k n = x.extractLsb' (k - w) n := by
  ext i hi
  simp only [BitVec.getElem_extractLsb', BitVec.getLsbD_append]
  simp [show ¬ k + i < w by omega, show k + i - w = k - w + i by omega]

end Fields

/-- Settles O25: each field of each reading, taken from where it stands. -/
theorem registerFieldsAreInTheirPlaces : Obligations.RegisterFieldsAreInTheirPlaces := by
  intro s
  have hspec : ∀ g : Fin 16, s.groupSpec g.val = s.gspec[g] := fun g => dif_pos g.isLt
  simp only [hspec, State.readReg]
  simp (disch := omega) only [extractLsb'_append_low, extractLsb'_append_high, BitVec.getLsbD_append]
  simp

/-! ### STATUS (R23, R302) -/

/-- ERR is 1 exactly when there is an error (R42): every code is a non-zero number. -/
theorem errFlag_eq_isSome (st : Status) : errFlag st = st.errcode.isSome := by
  rw [errFlag]
  cases st.errcode with
  | none => rfl
  | some e => cases e <;> rfl

/-- Settles O27: the fields of the STATUS word from where they stand; the numbers are those of the tables. -/
theorem statusFieldsAreInTheirPlaces : Obligations.StatusFieldsAreInTheirPlaces := by
  intro st
  refine ⟨?_, ?_, ?_, ?_, ?_, ?_, ?_, ?_, ?_, rfl, rfl, rfl, rfl, rfl, rfl, rfl, rfl, rfl, rfl, rfl, rfl, rfl, rfl, rfl,
    rfl, rfl, rfl, rfl, rfl⟩ <;>
    simp (disch := omega) only [statusWord, errFlag_eq_isSome, extractLsb'_append_low, extractLsb'_append_high,
      BitVec.getLsbD_append] <;>
    simp

/-! ### STATUS.DONE and CTRL.IE (R46, R309) -/

/-- Settles O26: the writes of STATUS and CTRL, which while BUSY = 0 complete at their offsets. -/
theorem hostControlsTheInterruptLine : Obligations.HostControlsTheInterruptLine := by
  intro s v hidle
  have hstatus : s.target true 0x008#16 .word = some (.register .status) := target_of_offset hidle true rfl
  have hctrl : s.target true 0x004#16 .word = some (.register .ctrl) := target_of_offset hidle true rfl
  refine ⟨fun hset => ?_, fun hclear => ?_, State.busWrite_of_target v hctrl⟩
  · exact (State.busWrite_of_target v hstatus).trans (if_pos hset)
  · exact (State.busWrite_of_target v hstatus).trans (if_neg (Bool.eq_false_iff.mp hclear))

end Sys2Proof.Machine

/-! Buffer accesses (20_memory.md R62, R63, R67). A word is its four bytes, so what an access reads and stores is said byte
by byte; the bytes past the access's width are 0. -/

namespace Sys2Proof.Machine

open Sys2Proof Sys2Proof.Claims

/-! ### A word and its bytes, least significant first (R62) -/

theorem extractLsb'_bytesToWord (bs : List Byte) {j : Nat} (hj : j < 4) :
    (bytesToWord bs).extractLsb' (8 * j) 8 = byteAt bs j := by
  unfold bytesToWord
  interval_cases j <;>
    simp (disch := omega) only [extractLsb'_append_low, extractLsb'_append_high] <;>
    exact BitVec.extractLsb'_eq_self

/-- Words with the same four bytes are the same. -/
theorem word_eq_of_bytes_eq {v v' : Word} (h : ∀ j < 4, v.extractLsb' (8 * j) 8 = v'.extractLsb' (8 * j) 8) :
    v = v' := by
  rw [← bytes_append v, ← bytes_append v', h 0 (by omega), h 1 (by omega), h 2 (by omega), h 3 (by omega)]

/-- The low `n` bytes of a word, zero-extended, have those bytes and then zeros. -/
theorem extractLsb'_lowBytes (v : Word) {n j : Nat} (hj : j < 4) :
    (BitVec.ofNat 32 (v.toNat % 2 ^ (8 * n))).extractLsb' (8 * j) 8 =
      if j < n then v.extractLsb' (8 * j) 8 else 0x00#8 := by
  ext i hi
  rw [apply_ite (fun x : Byte => x[i])]
  simp only [BitVec.getElem_extractLsb', BitVec.getLsbD_ofNat, Nat.testBit_mod_two_pow, BitVec.getElem_zero]
  by_cases hjn : j < n
  · simp [hjn, show 8 * j + i < 32 by omega, show 8 * j + i < 8 * n by omega, BitVec.getLsbD]
  · simp [hjn, show ¬ 8 * j + i < 8 * n by omega]

theorem byteAt_of_length_le {bs : List Byte} {j : Nat} (h : bs.length ≤ j) : byteAt bs j = 0x00#8 := by
  rw [byteAt, List.getD_eq_default _ _ h]

/-- A word of at most `n` bytes is its own low `n` bytes, zero-extended. -/
theorem bytesToWord_eq_lowBytes {bs : List Byte} {n : Nat} (h : bs.length ≤ n) :
    bytesToWord bs = BitVec.ofNat 32 ((bytesToWord bs).toNat % 2 ^ (8 * n)) := by
  refine word_eq_of_bytes_eq fun j hj => ?_
  rw [extractLsb'_lowBytes _ hj, extractLsb'_bytesToWord bs hj]
  split
  · rfl
  · exact byteAt_of_length_le (by omega)

theorem toNat_bytesToWord_lt {bs : List Byte} {n : Nat} (h : bs.length ≤ n) :
    (bytesToWord bs).toNat < 2 ^ (8 * n) := by
  rw [bytesToWord_eq_lowBytes h, BitVec.toNat_ofNat]
  exact (Nat.mod_le _ _).trans_lt (Nat.mod_lt _ (Nat.two_pow_pos _))

theorem wordToBytes_length (v : Word) (n : Nat) : (wordToBytes v n).length = n := by simp [wordToBytes]

theorem byteAt_wordToBytes (v : Word) {n j : Nat} (hj : j < n) :
    byteAt (wordToBytes v n) j = v.extractLsb' (8 * j) 8 := by
  simp [wordToBytes, byteAt, hj]

/-- The bytes an access stores, read back as a word. -/
theorem bytesToWord_wordToBytes (v : Word) (n : Nat) :
    bytesToWord (wordToBytes v n) = BitVec.ofNat 32 (v.toNat % 2 ^ (8 * n)) := by
  refine word_eq_of_bytes_eq fun j hj => ?_
  rw [extractLsb'_lowBytes _ hj, extractLsb'_bytesToWord _ hj]
  split
  · next hjn => exact byteAt_wordToBytes v hjn
  · exact byteAt_of_length_le (by rw [wordToBytes_length]; omega)

/-! ### Buffer accesses while BUSY = 0 (R62, R63) -/

theorem Width.bytes_le_four (w : Width) : w.bytes ≤ 4 := by cases w <;> decide

/-- The registers lie below the buffers (R61). -/
theorem Reg.offset_lt (r : Reg) : r.offset < 0x100 := by
  cases r with
  | gspec g => simp only [Reg.offset]; omega
  | _ => simp [Reg.offset]

/-- An access of the map from the first buffer on has a buffer as its target. -/
theorem target_of_buffer {s : State} {addr : BitVec 16} {w : Width} (isWrite : Bool) (hidle : s.status.busy = false)
    (hlow : 0x100 ≤ addr.toNat) (hmapped : mappedAccess addr.toNat w.bytes) :
    s.target isWrite addr w = some (.buffer addr.toNat w.bytes) := by
  obtain ⟨t, ht⟩ := State.target_of_mapped isWrite hidle hmapped
  cases t with
  | register r =>
    obtain ⟨-, hoff, -⟩ := State.target_register ht
    have := r.offset_lt
    omega
  | buffer a n =>
    obtain ⟨-, rfl, rfl, -⟩ := State.target_buffer ht
    exact ht

/-- What a state reads after bytes are stored from an offset on. -/
theorem at_store (s : State) (base : Nat) (bs : List Byte) (a : Nat) :
    at_ (s.store base bs) a = if base ≤ a ∧ a < base + bs.length then byteAt bs (a - base) else at_ s a :=
  Memory.read_writeBytes s.mem base bs a

/-- The bytes just stored, read back. -/
theorem readBytes_store (s : State) (base : Nat) (bs : List Byte) :
    (s.store base bs).mem.readBytes base bs.length = bs := by
  refine List.ext_getElem (Memory.readBytes_length _ _ _) fun j hj hj' => ?_
  have hread := Memory.read_writeBytes_of_inside s.mem base bs j hj'
  simp [Memory.readBytes, hread, byteAt, hj']

/-- Settles O23: both accesses have the buffer's bytes as their target, and the write stores the bytes it carries. -/
theorem bufferWritesReadBackLittleEndian : Obligations.BufferWritesReadBackLittleEndian := by
  intro s addr w v hidle hlow hmapped t
  have ht : t = s.store addr.toNat (wordToBytes v w.bytes) :=
    State.busWrite_of_target v (target_of_buffer true hidle hlow hmapped)
  have hlength := wordToBytes_length v w.bytes
  have hread : ∀ a, at_ t a = _ := fun a => (congrArg (at_ · a) ht).trans (at_store s _ _ a)
  have hidle' : t.status.busy = false := by rw [ht]; exact hidle
  refine ⟨⟨_, State.busRead_of_target (target_of_buffer false hidle hlow hmapped), fun j hj => ?_, ?_⟩,
    State.busWriteResponse_of_target (target_of_buffer true hidle hlow hmapped), fun j hj => ?_, fun a ha => ?_, ?_, ?_⟩
  · rw [State.readTarget, extractLsb'_bytesToWord _ (hj.trans_le w.bytes_le_four), Memory.byteAt_readBytes _ _ _ _ hj]
    rfl
  · exact toNat_bytesToWord_lt (Memory.readBytes_length _ _ _).le
  · rw [hread, hlength, if_pos (by omega), Nat.add_sub_cancel_left, byteAt_wordToBytes v hj]
  · rw [hread, hlength, if_neg (by omega)]
  · rw [ht]
    rfl
  · have hback := readBytes_store s addr.toNat (wordToBytes v w.bytes)
    rw [hlength, ← ht] at hback
    rw [State.busRead_of_target (target_of_buffer false hidle' hlow hmapped), State.readTarget, hback,
      bytesToWord_wordToBytes]

end Sys2Proof.Machine

/-! GF(256) as a field (41_gf_arith.md R124) and Lagrange interpolation over it (42_lagrange.md R140, R141). The residues of
the bytes are the whole ring GF(2)[x] / FIELD_POLY, in which every non-zero byte has an inverse, so that ring is a field,
and the model's interpolation is Mathlib's in it. -/

namespace Sys2Proof.Machine

open Sys2Proof Sys2Proof.Claims Polynomial

/-! ### The arithmetic laws (R124) -/

@[simp] theorem residue_gfAdd (a b : Byte) : residue (gfAdd a b) = residue a + residue b := by
  rw [gfAdd, residue, bitsPoly_xor, map_add]
  rfl

theorem gfAdd_self (a : Byte) : gfAdd a a = 0x00#8 := BitVec.xor_self

theorem zero_gfAdd (a : Byte) : gfAdd 0x00#8 a = a := BitVec.zero_xor

theorem gfAdd_assoc (a b c : Byte) : gfAdd (gfAdd a b) c = gfAdd a (gfAdd b c) := BitVec.xor_assoc a b c

theorem zero_gfMul (a : Byte) : gfMul 0x00#8 a = 0x00#8 := residue_injective (by simp)

/-- A product with a non-zero factor is 0 only if the other factor is: the inverse cancels. -/
theorem eq_zero_of_gfMul_eq_zero {a b : Byte} (ha : a ≠ 0x00#8) (h : gfMul a b = 0x00#8) : b = 0x00#8 :=
  calc b = gfMul (gfMul a (gfInv a)) b := by rw [gfMul_gfInv ha, one_gfMul]
    _ = gfMul (gfMul a b) (gfInv a) := by rw [gfMul_assoc, gfMul_comm (gfInv a), ← gfMul_assoc]
    _ = 0x00#8 := by rw [h, zero_gfMul]

theorem gfMul_eq_zero {a b : Byte} (h : gfMul a b = 0x00#8) : a = 0x00#8 ∨ b = 0x00#8 :=
  or_iff_not_imp_left.mpr fun ha => eq_zero_of_gfMul_eq_zero ha h

theorem gfPow_ne_zero {a : Byte} (ha : a ≠ 0x00#8) (k : Nat) : gfPow a k ≠ 0x00#8 := by
  induction k with
  | zero => exact show (0x01#8 : Byte) ≠ 0x00#8 by decide
  | succ k ih => exact fun h => (gfMul_eq_zero h).elim ih ha

/-- Settles O32: the laws of ⊗ are those of the residues. -/
theorem bytesObeyTheFieldLaws : Obligations.BytesObeyTheFieldLaws :=
  ⟨fun a b => BitVec.xor_comm a b, gfAdd_assoc, zero_gfAdd, gfAdd_self, gfMul_comm, gfMul_assoc,
    fun _ _ _ => residue_injective (by simp [mul_add]), zero_gfMul, one_gfMul, fun _ _ => gfMul_eq_zero,
    fun _ k ha => gfPow_ne_zero ha k⟩

/-! ### The residues are a field -/

/-- Every class modulo FIELD_POLY is a byte's: a remainder has eight coefficients. -/
theorem residue_surjective : Function.Surjective (residue : Byte → AdjoinRoot reductionPoly) := by
  intro r
  obtain ⟨f, rfl⟩ := AdjoinRoot.mk_surjective r
  have hrem : AdjoinRoot.mk reductionPoly (f %ₘ reductionPoly) = AdjoinRoot.mk reductionPoly f :=
    AdjoinRoot.mk_eq_mk.mpr (modByMonic_eq_sub_mul_div f reductionPoly ▸ ⟨-(f /ₘ reductionPoly), by ring⟩)
  have hdegree : (f %ₘ reductionPoly).degree < 8 :=
    degree_reductionPoly ▸ degree_modByMonic_lt f reductionPoly_monic
  refine ⟨BitVec.ofFnLE fun i => (f %ₘ reductionPoly).coeff i = 1, ?_⟩
  rw [← hrem, residue]
  congr 1
  ext j
  have hbit : ∀ c : ZMod 2, (if c = 1 then 1 else 0) = c := by decide
  rw [coeff_bitsPoly, BitVec.getLsbD_ofFnLE]
  by_cases hj : j < 8
  · simp [hj, hbit]
  · simp [hj, (degree_lt_iff_coeff_zero _ 8).mp hdegree j (not_lt.mp hj)]

theorem residue_eq_zero_iff {a : Byte} : residue a = 0 ↔ a = 0x00#8 := by
  rw [← residue_zero, residue_injective.eq_iff]

theorem isDomain_residues : IsDomain (AdjoinRoot reductionPoly) := by
  have hnontrivial : Nontrivial (AdjoinRoot reductionPoly) :=
    ⟨residue 0x00#8, residue 0x01#8, residue_injective.ne (by decide)⟩
  have hzero : NoZeroDivisors (AdjoinRoot reductionPoly) := by
    refine ⟨fun {x y} hxy => ?_⟩
    obtain ⟨a, rfl⟩ := residue_surjective x
    obtain ⟨b, rfl⟩ := residue_surjective y
    rw [← residue_gfMul, residue_eq_zero_iff] at hxy
    simpa only [residue_eq_zero_iff] using gfMul_eq_zero hxy
  exact NoZeroDivisors.to_isDomain _

/-- FIELD_POLY is irreducible over GF(2) (R121), so its residues are a field. -/
theorem irreducible_reductionPoly : Irreducible reductionPoly := by
  have hprime : Prime reductionPoly :=
    (Ideal.span_singleton_prime reductionPoly_monic.ne_zero).mp
      ((Ideal.Quotient.isDomain_iff_prime _).mp isDomain_residues)
  exact hprime.irreducible

/-! ### The model's sums, products and inverses as the field's -/

theorem residue_gfSum (l : List Byte) : residue (gfSum l) = (l.map residue).sum := by
  induction l with
  | nil => simp [gfSum]
  | cons a l ih => simp [gfSum, ih]

theorem residue_gfProd (l : List Byte) : residue (gfProd l) = (l.map residue).prod := by
  induction l with
  | nil => simp [gfProd]
  | cons a l ih => simp [gfProd, ih]

/-- Subtraction is ⊕ (R120). -/
theorem residue_sub (a b : Byte) : residue a - residue b = residue (gfAdd a b) := by
  rw [sub_eq_iff_eq_add, ← residue_gfAdd, gfAdd_assoc, gfAdd_self, gfAdd, BitVec.xor_zero]

/-- The polynomial whose coefficients are the bytes at position `p` of the coefficient vectors (R161). -/
noncomputable def positionPoly (coeffs : List (List Byte)) (p : Nat) : (AdjoinRoot reductionPoly)[X] :=
  ∑ k ∈ Finset.range coeffs.length, C (residue (byteAt (coeffs.getD k []) p)) * X ^ k

theorem residue_polyByte (coeffs : List (List Byte)) (x : Byte) (p : Nat) :
    residue (polyByte coeffs x p) = (positionPoly coeffs p).eval (residue x) := by
  rw [polyByte, residue_gfSum, List.map_map, positionPoly, eval_finsetSum, Finset.sum_range, ← List.sum_ofFn,
    List.ofFn_eq_map, ← List.map_coe_finRange_eq_range, List.map_map]
  simp [Function.comp_def]

theorem degree_positionPoly_lt (coeffs : List (List Byte)) (p : Nat) :
    (positionPoly coeffs p).degree < coeffs.length := by
  rw [← mem_degreeLT]
  refine Submodule.sum_mem _ fun k hk => mem_degreeLT.mpr ?_
  exact (degree_C_mul_X_pow_le k _).trans_lt (by exact_mod_cast Finset.mem_range.mp hk)

section Field

variable [Fact (Irreducible reductionPoly)]

theorem residue_gfInv {a : Byte} (ha : a ≠ 0x00#8) : residue (gfInv a) = (residue a)⁻¹ :=
  eq_inv_of_mul_eq_one_right (by rw [← residue_gfMul, gfMul_gfInv ha, residue_one])

/-- The model's Lagrange basis is the field's, at distinct coordinates (R140). -/
theorem residue_lagrangeBasis {xs : List Byte} (hxs : xs.Nodup) (xi x : Byte) :
    residue (lagrangeBasis xs xi x) = (Lagrange.basis xs.toFinset residue xi).eval (residue x) := by
  have hothers : (xs.filter (· != xi)).toFinset = xs.toFinset.erase xi := by
    ext y
    simp [and_comm]
  have hprod : ∀ z, residue (gfProd ((xs.filter (· != xi)).map fun xj => gfAdd z xj)) =
      ∏ xj ∈ xs.toFinset.erase xi, (residue z - residue xj) := fun z => by
    rw [residue_gfProd, List.map_map, ← hothers, List.prod_toFinset _ (hxs.filter _)]
    simp only [Function.comp_def, residue_sub]
  have hne : gfProd ((xs.filter (· != xi)).map fun xj => gfAdd xi xj) ≠ 0x00#8 := by
    rw [← residue_eq_zero_iff.ne, hprod, Finset.prod_ne_zero_iff]
    intro y hy
    rw [sub_ne_zero]
    exact residue_injective.ne (Finset.ne_of_mem_erase hy).symm
  rw [lagrangeBasis, residue_gfMul, residue_gfInv hne, hprod, hprod, Lagrange.basis, eval_prod]
  simp only [Lagrange.basisDivisor, eval_mul, eval_C, eval_sub, eval_X, Finset.prod_mul_distrib, Finset.prod_inv_distrib]
  rw [mul_comm]

/-- A polynomial with no more coefficients than there are coordinates is its own interpolation (R141). -/
theorem gfSum_lagrangeBasis {xs : List Byte} (hxs : xs.Nodup) {coeffs : List (List Byte)}
    (hlength : coeffs.length ≤ xs.length) (x : Byte) (p : Nat) :
    gfSum (xs.map fun xi => gfMul (polyByte coeffs xi p) (lagrangeBasis xs xi x)) = polyByte coeffs x p := by
  have hdegree : (positionPoly coeffs p).degree < xs.toFinset.card := by
    refine (degree_positionPoly_lt coeffs p).trans_le ?_
    rw [List.toFinset_card_of_nodup hxs]
    exact_mod_cast hlength
  have hself := Lagrange.eq_interpolate_of_eval_eq (v := residue) (s := xs.toFinset)
    (fun xi => residue (polyByte coeffs xi p)) residue_injective.injOn hdegree
    fun xi _ => (residue_polyByte coeffs xi p).symm
  apply residue_injective
  rw [residue_polyByte, hself, Lagrange.interpolate_apply, eval_finsetSum, List.sum_toFinset _ hxs, residue_gfSum,
    List.map_map]
  simp only [Function.comp_def, residue_gfMul, residue_lagrangeBasis hxs, eval_mul, eval_C]

end Field

/-- Settles O34: at each position the points' bytes are those of one polynomial, which is its own interpolation. -/
theorem interpolationRecoversThePolynomial : Obligations.InterpolationRecoversThePolynomial := by
  have : Fact (Irreducible reductionPoly) := ⟨irreducible_reductionPoly⟩
  intro coeffs pts x L hlength hdistinct hvalues
  refine List.map_congr_left fun p hp => ?_
  have hself := gfSum_lagrangeBasis hdistinct (hlength.trans_eq (List.length_map _).symm) x p
  rw [interpByte, ← hself, List.map_map]
  refine congrArg gfSum (List.map_congr_left fun pt hpt => ?_)
  rw [hvalues pt hpt, byteAt_polyEval _ _ _ _ (List.mem_range.mp hp)]
  rfl

end Sys2Proof.Machine

/-! A command's draws as one draw (43_shamir.md R161, R163). Every computation that draws is the drawing of a fixed number
of bytes followed by a function of them, so that what a port that delivers, refuses or is silent does to it follows from
what it does to a single vector. -/

namespace Sys2Proof.Machine

open Sys2Proof Sys2Proof.Claims

/-! ### Drawing and then computing -/

/-- The result of a drawing with a function applied to the value drawn. -/
def DrawResult.map {α β : Type} (f : α → β) (r : DrawResult α) : DrawResult β := r.andThen fun a d => .drawn (f a) d

section Results

variable {α β γ : Type}

@[simp] theorem DrawResult.map_drawn (f : α → β) (a : α) (d : Drawing) :
    (DrawResult.drawn a d).map f = .drawn (f a) d := rfl

theorem DrawResult.map_andThen (r : DrawResult α) (f : α → β) (g : β → Drawing → DrawResult γ) :
    (r.map f).andThen g = r.andThen fun a d => g (f a) d := by
  cases r <;> rfl

theorem DrawResult.andThen_assoc (r : DrawResult α) (f : α → Drawing → DrawResult β) (g : β → Drawing → DrawResult γ) :
    (r.andThen f).andThen g = r.andThen fun a d => (f a d).andThen g := by
  cases r <;> rfl

/-- What follows a drawing matters only at the values it delivers. -/
theorem DrawResult.andThen_congr {r : DrawResult α} {f g : α → Drawing → DrawResult β}
    (h : ∀ a d, r = .drawn a d → f a d = g a d) : r.andThen f = r.andThen g := by
  cases r with
  | drawn a d => exact h a d rfl
  | unavailable d => rfl
  | silent d => rfl

theorem DrawResult.map_congr {r : DrawResult α} {f g : α → β} (h : ∀ a, f a = g a) : r.map f = r.map g :=
  congrArg (DrawResult.map · r) (funext h)

theorem DrawResult.map_eq_drawn {r : DrawResult α} {f : α → β} {b : β} {d : Drawing} (h : r.map f = .drawn b d) :
    ∃ a, r = .drawn a d ∧ b = f a := by
  obtain ⟨a, d', hr, hb⟩ := DrawResult.andThen_eq_drawn h
  cases hb
  exact ⟨a, hr, rfl⟩

theorem DrawResult.answered_map {r : DrawResult α} {n : Nat} (f : α → β) (h : r.Answered n) : (r.map f).Answered n :=
  DrawResult.answered_andThen h fun _ _ _ hd => DrawResult.answered_drawn _ hd

end Results

/-! ### Vectors (R161) -/

/-- A long vector is drawn in two parts. -/
theorem drawVector_add (n m : Nat) (d : Drawing) :
    drawVector (n + m) d = (drawVector n d).andThen fun v d1 => (drawVector m d1).map (v ++ ·) := by
  induction n generalizing d with
  | zero =>
    rw [Nat.zero_add, drawVector, DrawResult.andThen_drawn]
    cases drawVector m d <;> rfl
  | succ n ih =>
    rw [Nat.succ_add, drawVector, drawVector, DrawResult.andThen_assoc]
    refine DrawResult.andThen_congr fun b d1 _ => ?_
    rw [ih, DrawResult.andThen_assoc, DrawResult.andThen_assoc]
    refine DrawResult.andThen_congr fun v d2 _ => ?_
    rw [DrawResult.map_andThen, DrawResult.andThen_drawn]
    rfl

/-- A computation that draws after a vector is one on the bytes of both. -/
theorem drawVector_andThen {α : Type} {n m : Nat} {f : List Byte → Drawing → DrawResult α}
    {g : List Byte → List Byte → α} (hf : ∀ v d1, f v d1 = (drawVector m d1).map (g v)) (d : Drawing) :
    (drawVector n d).andThen f = (drawVector (n + m) d).map fun bs => g (bs.take n) (bs.drop n) := by
  rw [drawVector_add, DrawResult.map, DrawResult.andThen_assoc]
  refine DrawResult.andThen_congr fun v d1 hv => ?_
  obtain ⟨hlength, -⟩ := drawVector_drawn hv
  rw [hf, DrawResult.map_andThen]
  simp only [List.take_left' hlength, List.drop_left' hlength]
  rfl

theorem drawByte_eq (d : Drawing) : drawByte d = (drawVector 1 d).map (byteAt · 0) := by
  simp only [drawVector]
  cases drawByte d <;> rfl

/-- `k` vectors of `m` bytes, cut from one. -/
def rows (k m : Nat) (bs : List Byte) : List (List Byte) := (List.range k).map fun i => (bs.drop (i * m)).take m

theorem rows_length (k m : Nat) (bs : List Byte) : (rows k m bs).length = k := by simp [rows]

theorem rows_succ (k m : Nat) (bs : List Byte) : rows (k + 1) m bs = bs.take m :: rows k m (bs.drop m) := by
  simp only [rows, List.range_succ_eq_map, List.map_cons, List.map_map, Nat.zero_mul, List.drop_zero]
  congr 2
  funext i
  simp [Nat.succ_mul, Nat.add_comm]

theorem byteAt_drop (bs : List Byte) (n p : Nat) : byteAt (bs.drop n) p = byteAt bs (n + p) := by
  simp [byteAt]

/-- Byte `p` of row `i`. -/
theorem byteAt_rows {k m i p : Nat} (bs : List Byte) (hi : i < k) (hp : p < m) :
    byteAt ((rows k m bs).getD i []) p = byteAt bs (i * m + p) := by
  have hrow : (rows k m bs).getD i [] = (bs.drop (i * m)).take m := by simp [rows, hi]
  rw [hrow, byteAt_take _ hp, byteAt_drop]

theorem drawVectors_eq (k m : Nat) (d : Drawing) : drawVectors k m d = (drawVector (k * m) d).map (rows k m) := by
  induction k generalizing d with
  | zero => simp [drawVectors, drawVector, rows]
  | succ k ih =>
    have hrest : ∀ v d1, ((drawVectors k m d1).andThen fun vs d2 => .drawn (v :: vs) d2) =
        (drawVector (k * m) d1).map fun bs => v :: rows k m bs := fun v d1 => by
      rw [ih, DrawResult.map_andThen]
      rfl
    rw [drawVectors, drawVector_andThen hrest, Nat.succ_mul, Nat.add_comm]
    exact DrawResult.map_congr fun bs => (rows_succ k m bs).symm

/-! ### The Shamir primitive (R161, R163) -/

/-- The coefficient vectors that a split with t ≥ 2 makes of the drawn bytes. -/
def splitCoefficients (cfg : Config) (t : Nat) (dg : Bool) (S drawn : List Byte) : List (List Byte) :=
  if dg then
    S :: (rows (t - 2) S.length (drawn.drop (S.length - 4)) ++
      [topCoefficient cfg t S (digestShare cfg S (drawn.take (S.length - 4)))
        (rows (t - 2) S.length (drawn.drop (S.length - 4)))])
  else S :: rows (t - 1) S.length drawn

/-- The y-vectors that a split makes of the drawn bytes. -/
def splitVectors (cfg : Config) (t c : Nat) (dg : Bool) (S drawn : List Byte) : List (List Byte) :=
  if t = 1 then List.replicate c S else shareVectors (splitCoefficients cfg t dg S drawn) c S.length

theorem splitVectors_of_ne_one (cfg : Config) {t : Nat} (ht : t ≠ 1) (c : Nat) (dg : Bool) (S drawn : List Byte) :
    splitVectors cfg t c dg S drawn = shareVectors (splitCoefficients cfg t dg S drawn) c S.length := if_neg ht

/-- A split draws the bytes of R163 and computes its vectors from them. -/
theorem shamirSplit_eq (cfg : Config) (t c : Nat) (dg : Bool) (S : List Byte) (d : Drawing) :
    shamirSplit cfg t c dg S d = (drawVector (levelDraws t dg S.length) d).map (splitVectors cfg t c dg S) := by
  unfold shamirSplit levelDraws
  by_cases ht : t = 1
  · simp [ht, drawVector, splitVectors]
  rw [if_neg ht, if_neg ht]
  cases dg with
  | false =>
    rw [if_neg Bool.false_ne_true, if_neg Bool.false_ne_true, drawVectors_eq, DrawResult.map_andThen]
    exact DrawResult.map_congr fun bs => (splitVectors_of_ne_one cfg ht c false S bs).symm
  | true =>
    have hrest : ∀ salt d1, ((drawVectors (t - 2) S.length d1).andThen fun rs d2 => .drawn
          (shareVectors (S :: (rs ++ [topCoefficient cfg t S (digestShare cfg S salt) rs])) c S.length) d2) =
        (drawVector ((t - 2) * S.length) d1).map fun bs => shareVectors (S :: (rows (t - 2) S.length bs ++
          [topCoefficient cfg t S (digestShare cfg S salt) (rows (t - 2) S.length bs)])) c S.length :=
      fun salt d1 => by
        rw [drawVectors_eq, DrawResult.map_andThen]
        rfl
    rw [if_pos rfl, if_pos rfl, drawVector_andThen hrest]
    exact DrawResult.map_congr fun bs => (splitVectors_of_ne_one cfg ht c true S bs).symm

/-! ### The polynomial of a split (R161, R162) -/

/-- Vectors with the same length and bytes are the same. -/
theorem eq_of_byteAt_eq {v v' : List Byte} (hlength : v.length = v'.length)
    (h : ∀ p < v.length, byteAt v p = byteAt v' p) : v = v' := by
  refine List.ext_getElem hlength fun p hp hp' => ?_
  have hbyte := h p hp
  rwa [byteAt, byteAt, List.getD_eq_getElem _ _ hp, List.getD_eq_getElem _ _ hp'] at hbyte

/-- A byte of a polynomial's value is its constant byte and the other terms (R162). -/
theorem polyByte_cons (S : List Byte) (rs : List (List Byte)) (x : Byte) (p : Nat) :
    polyByte (S :: rs) x p = gfAdd (byteAt S p)
      (gfSum ((List.range rs.length).map fun j => gfMul (byteAt (rs.getD j []) p) (gfPow x (j + 1)))) := by
  have hone : gfMul (byteAt S p) (gfPow x 0) = byteAt S p := (gfMul_comm _ _).trans (one_gfMul _)
  rw [polyByte, List.length_cons, List.range_succ_eq_map, List.map_cons, List.map_map, gfSum]
  exact congrArg₂ gfAdd hone rfl

theorem gfSum_append (l l' : List Byte) : gfSum (l ++ l') = gfAdd (gfSum l) (gfSum l') :=
  residue_injective (by simp [residue_gfSum])

/-- The terms of coefficient vectors with one more at the end. -/
theorem gfSum_terms_concat (rs : List (List Byte)) (top : List Byte) (x : Byte) (p : Nat) :
    gfSum ((List.range (rs ++ [top]).length).map fun j => gfMul (byteAt ((rs ++ [top]).getD j []) p) (gfPow x (j + 1))) =
      gfAdd (gfSum ((List.range rs.length).map fun j => gfMul (byteAt (rs.getD j []) p) (gfPow x (j + 1))))
        (gfMul (byteAt top p) (gfPow x (rs.length + 1))) := by
  have hlow : ∀ j ∈ List.range rs.length, gfMul (byteAt ((rs ++ [top]).getD j []) p) (gfPow x (j + 1)) =
      gfMul (byteAt (rs.getD j []) p) (gfPow x (j + 1)) := fun j hj => by
    rw [List.getD_append _ _ _ _ (List.mem_range.mp hj)]
  have hzero : ∀ a, gfAdd a 0x00#8 = a := fun a => BitVec.xor_zero
  rw [List.length_append, List.length_singleton, List.range_succ, List.map_append, gfSum_append, List.map_congr_left hlow]
  simp [gfSum, hzero]

/-- At 0 a polynomial is its constant coefficient. -/
theorem polyEval_zero (S : List Byte) (rs : List (List Byte)) : polyEval (S :: rs) 0x00#8 S.length = S := by
  have hpow : ∀ j, gfPow 0x00#8 (j + 1) = 0x00#8 := fun j => (gfMul_comm _ _).trans (zero_gfMul _)
  refine eq_of_byteAt_eq (polyEval_length _ _ _) fun p hp => ?_
  rw [polyEval_length] at hp
  rw [byteAt_polyEval _ _ _ _ hp]
  apply residue_injective
  simp [polyByte_cons, residue_gfSum, hpow, Function.comp_def]

/-- The top coefficient of R161 makes the polynomial the vector `E` at DIGEST_X. -/
theorem polyEval_topCoefficient {cfg : Config} (hx : cfg.digestX ≠ 0x00#8) {t : Nat} (ht : 2 ≤ t) {S E : List Byte}
    {rs : List (List Byte)} (hrs : rs.length = t - 2) (hE : E.length = S.length) :
    polyEval (S :: (rs ++ [topCoefficient cfg t S E rs])) cfg.digestX S.length = E := by
  refine eq_of_byteAt_eq ((polyEval_length _ _ _).trans hE.symm) fun p hp => ?_
  rw [polyEval_length] at hp
  have htop : byteAt (topCoefficient cfg t S E rs) p = topCoefficientByte cfg t S E rs p := by
    simp [topCoefficient, byteAt, hp]
  have hcancel : ∀ a, gfMul (gfMul a (gfInv (gfPow cfg.digestX (t - 1)))) (gfPow cfg.digestX (t - 1)) = a := fun a => by
    rw [gfMul_assoc, gfMul_comm (gfInv _), gfMul_gfInv (gfPow_ne_zero hx _), gfMul_comm, one_gfMul]
  have hsum : ∀ e s m : Byte, gfAdd s (gfAdd m (gfAdd (gfAdd e s) m)) = e := fun e s m => by
    have hcomm : gfAdd (gfAdd e s) m = gfAdd m (gfAdd s e) :=
      (BitVec.xor_comm _ _).trans (congrArg (gfAdd m) (BitVec.xor_comm e s))
    rw [hcomm, ← gfAdd_assoc m, gfAdd_self, zero_gfAdd, ← gfAdd_assoc, gfAdd_self, zero_gfAdd]
  rw [byteAt_polyEval _ _ _ _ hp, polyByte_cons, gfSum_terms_concat, htop, hrs, show t - 2 + 1 = t - 1 by omega,
    topCoefficientByte, hcancel]
  simp only [gfMul_comm (gfPow _ _)]
  exact hsum _ _ _

end Sys2Proof.Machine

/-! The Shamir controller (43_shamir.md R161 to R168): the polynomial behind the vectors of a split, that a recombination
of enough of them is the secret, and the command SHAMIR_SPLIT. -/

namespace Sys2Proof.Machine

open Sys2Proof Sys2Proof.Claims

/-! ### The coefficient vectors of a split (R161) -/

section Coefficients

variable {cfg : Config} {t : Nat} {dg : Bool} {S drawn : List Byte}

theorem splitCoefficients_length (ht : 2 ≤ t) : (splitCoefficients cfg t dg S drawn).length = t := by
  cases dg <;> simp [splitCoefficients, rows_length] <;> omega

theorem splitCoefficients_head : (splitCoefficients cfg t dg S drawn).head? = some S := by
  cases dg <;> rfl

/-- At 0 the polynomial is the secret. -/
theorem polyEval_splitCoefficients_zero : polyEval (splitCoefficients cfg t dg S drawn) 0x00#8 S.length = S := by
  cases dg <;> exact polyEval_zero S _

/-- In digest mode the polynomial is the digest share of the secret and the drawn salt at DIGEST_X. -/
theorem polyEval_splitCoefficients_digestX (hcfg : cfg.Legal) (ht : 2 ≤ t) (hS : 4 ≤ S.length)
    (hdrawn : S.length - 4 ≤ drawn.length) :
    polyEval (splitCoefficients cfg t true S drawn) cfg.digestX S.length =
      digestShare cfg S (drawn.take (S.length - 4)) := by
  have hx : cfg.digestX ≠ 0x00#8 := by
    intro hzero
    rw [Config.Legal, hzero] at hcfg
    exact absurd hcfg (by decide)
  refine polyEval_topCoefficient hx ht (rows_length _ _ _) ?_
  rw [digestShare, List.length_append, Vector.length_toList, List.length_take, min_eq_left hdrawn]
  omega

/-- In digest mode the middle coefficients are the drawn bytes after the salt, in order. -/
theorem byteAt_splitCoefficients_digest {k p : Nat} (hk : 1 ≤ k) (hkt : k < t - 1) (hp : p < S.length) :
    byteAt ((splitCoefficients cfg t true S drawn).getD k []) p =
      byteAt drawn ((S.length - 4) + (k - 1) * S.length + p) := by
  obtain ⟨j, rfl⟩ := Nat.exists_eq_add_of_le' hk
  rw [splitCoefficients, if_pos rfl, List.getD_cons_succ, List.getD_append _ _ _ _ (by rw [rows_length]; omega),
    byteAt_rows _ (by omega) hp, byteAt_drop, Nat.add_sub_cancel, Nat.add_assoc]

/-- In plain mode every coefficient but the secret is drawn. -/
theorem byteAt_splitCoefficients_plain {k p : Nat} (hkt : k < t) (hp : p < S.length) :
    byteAt ((splitCoefficients cfg t false S drawn).getD k []) p =
      if k = 0 then byteAt S p else byteAt drawn ((k - 1) * S.length + p) := by
  cases k with
  | zero => rfl
  | succ j =>
    rw [if_neg (Nat.succ_ne_zero j), Nat.add_sub_cancel]
    exact byteAt_rows drawn (by omega) hp

end Coefficients

/-! ### The vectors of a split -/

theorem getD_shareVectors (coeffs : List (List Byte)) {c i : Nat} (L : Nat) (hi : i < c) :
    (shareVectors coeffs c L).getD i [] = polyEval coeffs (shareX i) L := by
  simp [shareVectors, hi]

section Vectors

variable {cfg : Config} {t c i : Nat} {dg : Bool} {S drawn : List Byte}

theorem getD_splitVectors_one (hi : i < c) : (splitVectors cfg 1 c dg S drawn).getD i [] = S := by
  simp [splitVectors, hi]

theorem getD_splitVectors (ht : 2 ≤ t) (hi : i < c) :
    (splitVectors cfg t c dg S drawn).getD i [] = polyEval (splitCoefficients cfg t dg S drawn) (shareX i) S.length := by
  rw [splitVectors_of_ne_one cfg (by omega), getD_shareVectors _ _ hi]

theorem length_getD_splitVectors (hi : i < c) : ((splitVectors cfg t c dg S drawn).getD i []).length = S.length := by
  by_cases ht : t = 1
  · rw [ht, getD_splitVectors_one hi]
  · rw [splitVectors_of_ne_one cfg ht, getD_shareVectors _ _ hi, polyEval_length]

end Vectors

/-! ### Recombination (R164, R168) -/

/-- The points of the given shares: share i has the coordinate i + 1 (R160). -/
def sharePoints (is : List Nat) (Y : List (List Byte)) : List Point := is.map fun i => ⟨shareX i, Y.getD i []⟩

theorem nodup_sharePoints {is : List Nat} (his : is.Nodup) (hlt : ∀ i ∈ is, i < 16) (Y : List (List Byte)) :
    ((sharePoints is Y).map Point.x).Nodup := by
  rw [sharePoints, List.map_map]
  exact his.map_on fun i hi j hj h => shareX_injOn (hlt i hi) (hlt j hj) h

theorem verifyDigestShare_digestShare (cfg : Config) (S salt : List Byte) :
    verifyDigestShare cfg S (digestShare cfg S salt) = true :=
  (verifyDigestShare_append cfg S salt (Vector.length_toList)).mpr rfl

/-- A recombination of at least t shares of a split, at different indices, is the secret. -/
theorem shamirRecombine_splitVectors {cfg : Config} (hcfg : cfg.Legal) {t c : Nat} (ht : 1 ≤ t) (hc : c ≤ 16) {dg : Bool}
    {S drawn : List Byte} (hS : 4 ≤ S.length) (hdrawn : levelDraws t dg S.length ≤ drawn.length) {is : List Nat}
    (his : is.Nodup) (hlt : ∀ i ∈ is, i < c) (henough : t ≤ is.length) (info : BitVec 16) :
    shamirRecombine cfg t (sharePoints is (splitVectors cfg t c dg S drawn)) dg S.length info = .ok S := by
  have hnodup := nodup_sharePoints his (fun i hi => (hlt i hi).trans_le hc) (splitVectors cfg t c dg S drawn)
  have hselect := selectDistinct_of_nodup _ [] hnodup fun _ _ => List.not_mem_nil
  have hlength : (sharePoints is (splitVectors cfg t c dg S drawn)).length = is.length := List.length_map _
  rcases Nat.eq_or_lt_of_le ht with rfl | h2
  · cases is with
    | nil => simp at henough
    | cons i is =>
      rw [sharePoints, List.map_cons, shamirRecombine_one_cons, getD_splitVectors_one (hlt i List.mem_cons_self)]
  · rw [shamirRecombine_of_enough (by rw [hselect, hlength]; exact henough), hselect]
    have hinterp : ∀ x, interp ((sharePoints is (splitVectors cfg t c dg S drawn)).take t) x S.length =
        polyEval (splitCoefficients cfg t dg S drawn) x S.length := fun x => by
      refine interpolationRecoversThePolynomial _ _ x _ ?_ ?_ fun pt hpt => ?_
      · rw [splitCoefficients_length h2, List.length_take, hlength, min_eq_left henough]
      · rw [List.map_take]
        exact hnodup.sublist (List.take_sublist _ _)
      · obtain ⟨i, hi, rfl⟩ := List.mem_map.mp (List.mem_of_mem_take hpt)
        exact getD_splitVectors h2 (hlt i hi)
    rw [recombineSelected_of_verified (by omega), hinterp, polyEval_splitCoefficients_zero]
    rintro rfl
    have hsalt : S.length - 4 ≤ drawn.length := by
      rw [levelDraws, if_neg (by omega), if_pos rfl] at hdrawn
      omega
    rw [hinterp, hinterp, polyEval_splitCoefficients_zero, polyEval_splitCoefficients_digestX hcfg h2 hS hsalt]
    exact verifyDigestShare_digestShare _ _ _

/-- Settles O40: whatever the port has delivered, the vectors are those of a split of some bytes. -/
theorem shamirRecombineInvertsSplit : Obligations.ShamirRecombineInvertsSplit := by
  intro cfg t c dg S d d' Y is info hcfg h1 htc hc hlen hsplit his hlt henough
  obtain ⟨-, h16, -⟩ := (lenOK_iff _).mp hlen
  rw [shamirSplit_eq] at hsplit
  obtain ⟨bs, hbs, rfl⟩ := DrawResult.map_eq_drawn hsplit
  obtain ⟨hlength, -⟩ := drawVector_drawn hbs
  exact shamirRecombine_splitVectors hcfg h1 hc (by omega) hlength.ge his hlt henough info

/-! ### SHAMIR_SPLIT and its draws (R166) -/

/-- The operands that SHAMIR_SPLIT accepts (R166). -/
structure SplitOperandsLegal (t c : Nat) (s : State) : Prop where
  length : lenOK s.len = true
  threshold_pos : 1 ≤ t
  threshold_le : t ≤ c
  count_le : c ≤ 16

section Command

variable {t c : Nat} {dg : Bool} {s : State}

theorem commandBody_shamirSplit_of_bad_operands (h : lenOK s.len = false ∨ t < 1 ∨ 16 < t ∨ c < t ∨ 16 < c) :
    commandBody (.shamirSplit t c dg) s = .raise s ⟨.invalidParameters, infoCommand⟩ := by
  rw [commandBody, shamirSplitBody]
  cases hlen : lenOK s.len with
  | false => rfl
  | true => exact (if_neg (by decide)).trans (if_pos (by simpa [hlen] using h))

/-- With legal operands the draw of the bytes of R163 decides. -/
theorem commandBody_shamirSplit_of_legal (h : SplitOperandsLegal t c s) :
    commandBody (.shamirSplit t c dg) s = drawBody s
      ((drawVector (levelDraws t dg s.len) s.drawing).map (splitVectors hwConfig t c dg (s.secretVec s.len)))
      (writePoints s.len c) := by
  obtain ⟨hlen, h1, htc, hc⟩ := h
  rw [commandBody, shamirSplitBody, hlen, if_neg (by decide), if_neg (by omega), shamirSplit_eq,
    State.secretVec_length]

/-- The whole effect of a command that ends normally, from the state `u` its draws led to, with the points of a split. -/
theorem exec_of_commit_writePoints {i : Instr} {u : State} {L : Nat} {Y : List (List Byte)} (hL : L ≤ 32)
    (hbody : commandBody i s = .commit (writePoints L c Y u)) (hphase : commandPhase i = .complete) :
    ∃ v, exec i s = .next v ∧
      (∀ i < 16, at_ v (0x180 + i) = if i < c then BitVec.ofNat 8 (i + 1) else 0x00#8) ∧
      (∀ i < 16, ∀ p < 32, at_ v (0x200 + 32 * i + p) = if i < c ∧ p < L then byteAt (Y.getD i []) p else 0x00#8) ∧
      (∀ a, a < 0x180 ∨ (0x190 ≤ a ∧ a < 0x200) ∨ 0x400 ≤ a → at_ v a = at_ u a) ∧
      v = { u with mem := v.mem, status := okStatus u .complete, latch := none, irq := u.ctrl.ie } := by
  have hread : ∀ a, at_ ((writePoints L c Y u).completeOk .complete) a = _ := fun a => read_writePoints u L c Y a hL
  refine ⟨(writePoints L c Y u).completeOk .complete, ?_, fun i hi => ?_, fun i hi p hp => ?_, fun a ha => ?_, rfl⟩
  · rw [exec_eq_conclude, hbody, hphase, conclude_commit]
  · rw [hread, if_pos (by omega), Nat.add_sub_cancel_left]
  · have hrow : (0x200 + 32 * i + p - 0x200) / 32 = i := by omega
    have hcolumn : (0x200 + 32 * i + p - 0x200) % 32 = p := by omega
    rw [hread, if_neg (by omega), if_pos (by omega), hrow, hcolumn, ite_and]
    refine if_congr Iff.rfl ?_ rfl
    split
    · next hpL => exact byteAt_take _ hpL
    · next hpL => exact byteAt_of_length_le (by rw [List.length_take]; omega)
  · exact (hread a).trans ((if_neg (by omega)).trans (if_neg (by omega)))

/-- The whole effect of a command that raises, from the state `u` its draws led to, and whose failure writes clear the
point table. -/
theorem exec_of_raise_wipePoints {i : Instr} {u : State} {r : Raised} (hbody : commandBody i s = .raise u r)
    (hwipe : commandWipe i = wipePoints) :
    ∃ v, exec i s = .next v ∧ ZeroIn v 0x180 0x190 ∧ ZeroIn v 0x200 0x400 ∧
      (∀ a, a < 0x180 ∨ (0x190 ≤ a ∧ a < 0x200) ∨ 0x400 ≤ a → at_ v a = at_ u a) ∧
      v = { u with mem := v.mem, status := errStatus u r.err, errinfo := r.info, latch := none, irq := u.ctrl.ie } := by
  refine ⟨(wipePoints u).completeRaised r, ?_, fun a hlo hhi => ?_, fun a hlo hhi => ?_, fun a ha => ?_, rfl⟩
  · rw [exec_eq_conclude, hbody, hwipe, conclude_raise]
  · exact (at_wipePoints u a).trans (if_pos (.inl ⟨hlo, hhi⟩))
  · exact (at_wipePoints u a).trans (if_pos (.inr ⟨hlo, hhi⟩))
  · exact (at_wipePoints u a).trans (if_neg (by omega))

/-- A drawing starts with the port's listed answers. -/
theorem State.drawing_of_answers {answers : List PortAnswer} (h : s.port.answers = answers) :
    s.drawing = ⟨⟨answers, s.port.freeDraws⟩, 0⟩ := by
  rw [State.drawing, ← h]

/-- With legal operands and a port that lists the bytes of R163, the points are those of the split they give. -/
theorem commandBody_shamirSplit_of_listed (h : SplitOperandsLegal t c s) {bs : List Byte} {rest : List PortAnswer}
    (hport : s.port.answers = bs.map PortAnswer.byte ++ rest) (hbs : bs.length = levelDraws t dg s.len) :
    commandBody (.shamirSplit t c dg) s = .commit (writePoints s.len c
      (splitVectors hwConfig t c dg (s.secretVec s.len) bs) (s.afterDrawing ⟨⟨rest, s.port.freeDraws⟩, bs.length⟩)) := by
  rw [commandBody_shamirSplit_of_legal h, ← hbs, State.drawing_of_answers hport, drawVector_listed, Nat.zero_add]
  rfl

end Command

/-- Settles O35: the plain split of the drawn bytes, each vector a value of its polynomial. -/
theorem shamirSplitStoresThePolynomialsValues : Obligations.ShamirSplitStoresThePolynomialsValues := by
  intro t c s bs rest hlen h2 htc hc hport hbs
  have hdraws : levelDraws t false s.len = (t - 1) * s.len := by
    rw [levelDraws, if_neg (by omega), if_neg Bool.false_ne_true]
  have hbody := commandBody_shamirSplit_of_listed ⟨hlen, by omega, htc, hc⟩ hport (hbs.trans hdraws.symm)
  obtain ⟨u, hexec, hpx, hpy, hrest, hu⟩ := exec_of_commit_writePoints ((lenOK_iff _).mp hlen).2.2 hbody rfl
  refine ⟨u, hexec, hpx, fun i hi p hp => (hpy i hi p hp).trans (if_ctx_congr Iff.rfl ?_ fun _ => rfl), hrest, hu⟩
  rintro ⟨hic, hpL⟩
  rw [getD_splitVectors h2 hic, State.secretVec_length, byteAt_polyEval _ _ _ _ hpL, polyByte,
    splitCoefficients_length h2]
  refine congrArg gfSum (List.map_congr_left fun k hk => ?_)
  rw [byteAt_splitCoefficients_plain (List.mem_range.mp hk) (by rwa [State.secretVec_length]), State.secretVec_length,
    State.secretVec, Memory.byteAt_readBytes _ _ _ _ hpL]
  rfl

/-- Settles O36: with threshold 1 every vector is the secret, and no byte is drawn. -/
theorem shamirSplitThresholdOneCopiesTheSecret : Obligations.ShamirSplitThresholdOneCopiesTheSecret := by
  intro c dg s hlen h1 hc
  have hbody := commandBody_shamirSplit_of_legal (dg := dg) ⟨hlen, le_rfl, h1, hc⟩
  rw [levelDraws, if_pos rfl, drawVector, DrawResult.map_drawn, drawBody_drawn, s.afterDrawing_drawing] at hbody
  obtain ⟨u, hexec, hpx, hpy, hrest, hu⟩ := exec_of_commit_writePoints ((lenOK_iff _).mp hlen).2.2 hbody rfl
  refine ⟨u, hexec, hpx, fun i hi p hp => (hpy i hi p hp).trans (if_ctx_congr Iff.rfl ?_ fun _ => rfl), hrest, hu⟩
  rintro ⟨hic, hpL⟩
  rw [getD_splitVectors_one hic]
  exact Memory.byteAt_readBytes _ _ _ _ hpL

/-- Settles O37: the digest-mode split of the drawn bytes and its polynomial. -/
theorem shamirSplitDigestModePassesThroughTheDigestShare :
    Obligations.ShamirSplitDigestModePassesThroughTheDigestShare := by
  intro t c s bs rest hlen h2 htc hc hport hbs
  obtain ⟨-, h16, h32⟩ := (lenOK_iff _).mp hlen
  have hdraws : levelDraws t true s.len = (s.len - 4) + (t - 2) * s.len := by
    rw [levelDraws, if_neg (by omega), if_pos rfl]
  have hbody := commandBody_shamirSplit_of_listed ⟨hlen, by omega, htc, hc⟩ hport (hbs.trans hdraws.symm)
  have hS : (s.secretVec s.len).length = s.len := s.secretVec_length s.len
  obtain ⟨u, hexec, hpx, hpy, hrest, hu⟩ := exec_of_commit_writePoints h32 hbody rfl
  have hzero := polyEval_splitCoefficients_zero (cfg := hwConfig) (t := t) (dg := true) (S := s.secretVec s.len)
    (drawn := bs)
  have hdigest := polyEval_splitCoefficients_digestX (cfg := hwConfig) (t := t) (S := s.secretVec s.len) (drawn := bs)
    (by decide) h2 (by omega) (by omega)
  rw [hS] at hzero hdigest
  refine ⟨u, splitCoefficients hwConfig t true (s.secretVec s.len) bs, hexec, splitCoefficients_length h2,
    splitCoefficients_head, hzero, hdigest, fun k hk hkt p hp => ?_, hpx, fun i hi => ⟨?_, fun a hlo hhi => ?_⟩,
    fun a hlo hhi => ?_, hrest, hu⟩
  · have hmiddle := byteAt_splitCoefficients_digest (cfg := hwConfig) (drawn := bs) hk hkt (hp.trans_eq hS.symm)
    rwa [hS] at hmiddle
  · refine eq_of_byteAt_eq (by rw [polyEval_length]; exact Memory.readBytes_length _ _ _) fun p hp => ?_
    have hpL : p < s.len := hp.trans_eq (Memory.readBytes_length _ _ _)
    rw [u.byteAt_pyVec i hpL, hpy i (by omega) p (by omega), if_pos ⟨hi, hpL⟩, getD_splitVectors h2 hi, hS]
    rfl
  · obtain ⟨p, rfl⟩ := Nat.exists_eq_add_of_le (show 0x200 + 32 * i ≤ a by omega)
    rw [hpy i (by omega) p (by omega), if_neg (by omega)]
  · obtain ⟨i, p, hp, rfl⟩ : ∃ i p, p < 32 ∧ a = 0x200 + 32 * i + p :=
      ⟨(a - 0x200) / 32, (a - 0x200) % 32, by omega, by omega⟩
    rw [hpy i (by omega) p hp, if_neg (by omega)]

/-- Settles O38: the checks come before any draw, and a refused draw ends the one drawing of the command. -/
theorem shamirSplitFailsWithItsPointsCleared : Obligations.ShamirSplitFailsWithItsPointsCleared := by
  refine fun t c dg s => ⟨fun hbad => ?_, fun hlen h1 htc hc bs rest hport hbs => ?_⟩
  · exact exec_of_raise_wipePoints (commandBody_shamirSplit_of_bad_operands hbad) rfl
  · have hbody := commandBody_shamirSplit_of_legal (dg := dg) ⟨hlen, h1, htc, hc⟩
    rw [State.drawing_of_answers hport, drawVector_refused _ _ _ _ _ hbs, Nat.zero_add] at hbody
    exact exec_of_raise_wipePoints hbody rfl

end Sys2Proof.Machine

/-! SSKR_SPLIT (45_sskr.md R210 to R217). The whole command draws the bytes of R217 at once and computes the share set from
them; what it stores, and what a port that refuses or is silent does to it, is read off that. -/

namespace Sys2Proof.Machine

open Sys2Proof Sys2Proof.Claims

/-! ### A level reads only the bytes it draws (R163) -/

theorem rows_take {k m n : Nat} (bs : List Byte) (h : k * m ≤ n) : rows k m (bs.take n) = rows k m bs := by
  refine List.map_congr_left fun i hi => ?_
  have hrow : i * m + m ≤ k * m := by
    rw [← Nat.succ_mul]
    exact Nat.mul_le_mul_right m (List.mem_range.mp hi)
  rw [List.drop_take, List.take_take, min_eq_left (by omega)]

theorem splitVectors_take (cfg : Config) (t c : Nat) (dg : Bool) (S bs : List Byte) :
    splitVectors cfg t c dg S (bs.take (levelDraws t dg S.length)) = splitVectors cfg t c dg S bs := by
  unfold splitVectors levelDraws
  split
  · rfl
  · unfold splitCoefficients
    cases dg with
    | false => rw [if_neg Bool.false_ne_true, if_neg Bool.false_ne_true, if_neg Bool.false_ne_true, rows_take bs le_rfl]
    | true =>
      rw [if_pos rfl, if_pos rfl, if_pos rfl, List.drop_take, rows_take _ (by omega), List.take_take,
        min_eq_left (by omega)]

/-! ### The inner level (R214, R216) -/

/-- The bytes that the members of a group take (R163). -/
def GroupJob.draws (job : GroupJob) : Nat := levelDraws job.spec.mt.toNat true job.secret.length

/-- The member shares of the groups, group after group, from the drawn bytes. -/
def memberShares (cfg : Config) (id : BitVec 16) (gt gc : Nat) : List GroupJob → List Byte → List (List Byte)
  | [], _ => []
  | job :: jobs, bs =>
    groupShares id gt gc job (splitVectors cfg job.spec.mt.toNat job.spec.mc.toNat true job.secret bs) ++
      memberShares cfg id gt gc jobs (bs.drop job.draws)

theorem splitGroups_eq (cfg : Config) (id : BitVec 16) (gt gc : Nat) (jobs : List GroupJob) (d : Drawing) :
    splitGroups cfg id gt gc jobs d =
      (drawVector (jobs.map GroupJob.draws).sum d).map (memberShares cfg id gt gc jobs) := by
  induction jobs generalizing d with
  | nil => rfl
  | cons job jobs ih =>
    have hrest : ∀ v d1, ((splitGroups cfg id gt gc jobs d1).andThen fun W d2 => .drawn (groupShares id gt gc job
          (splitVectors cfg job.spec.mt.toNat job.spec.mc.toNat true job.secret v) ++ W) d2) =
        (drawVector (jobs.map GroupJob.draws).sum d1).map fun bs => groupShares id gt gc job
          (splitVectors cfg job.spec.mt.toNat job.spec.mc.toNat true job.secret v) ++
            memberShares cfg id gt gc jobs bs := fun v d1 => by
      rw [ih, DrawResult.map_andThen]
      rfl
    rw [splitGroups, shamirSplit_eq, DrawResult.map_andThen, drawVector_andThen hrest, List.map_cons, List.sum_cons]
    refine DrawResult.map_congr fun bs => ?_
    rw [splitVectors_take]
    rfl

/-- Member `m` of the group of job `i`: its slot, and its share of that group's split. -/
theorem getD_memberShares (cfg : Config) (id : BitVec 16) (gt gc : Nat) {jobs : List GroupJob} {i m : Nat}
    {job : GroupJob} (bs : List Byte) (hjob : jobs[i]? = some job) (hm : m < job.spec.mc.toNat) :
    (memberShares cfg id gt gc jobs bs).getD (((jobs.take i).map fun j => j.spec.mc.toNat).sum + m) [] =
      encodeShare id gt gc job.g job.spec.mt.toNat m
        ((splitVectors cfg job.spec.mt.toNat job.spec.mc.toNat true job.secret
          (bs.drop ((jobs.take i).map GroupJob.draws).sum)).getD m []) := by
  have hgroup : ∀ (job : GroupJob) (M : List (List Byte)), (groupShares id gt gc job M).length = job.spec.mc.toNat :=
    fun _ _ => by simp [groupShares]
  induction jobs generalizing i bs with
  | nil => simp at hjob
  | cons job0 jobs ih =>
    cases i with
    | zero =>
      obtain rfl : job0 = job := by simpa using hjob
      simp only [List.take_zero, List.map_nil, List.sum_nil, Nat.zero_add, List.drop_zero, memberShares]
      rw [List.getD_append _ _ _ _ (by rwa [hgroup])]
      simp [groupShares, hm]
    | succ i =>
      simp only [List.take_succ_cons, List.map_cons, List.sum_cons, memberShares]
      rw [List.getD_append_right _ _ _ _ (by rw [hgroup]; omega), hgroup, Nat.add_assoc, Nat.add_sub_cancel_left,
        ih _ (by simpa using hjob), List.drop_drop]

/-! ### The whole split (R214) -/

/-- The group secrets that the outer level makes of the bytes a split draws: those after the identifier's two. -/
def groupSecrets (cfg : Config) (s : State) (bs : List Byte) : List (List Byte) :=
  splitVectors cfg s.splitcfg.gt.toNat s.splitcfg.gc.toNat true (s.secretVec s.len) (bs.drop 2)

/-- The members' payloads of group `g` that the inner level makes of the bytes a split draws. -/
def memberVectors (cfg : Config) (s : State) (bs : List Byte) (g : Nat) : List (List Byte) :=
  splitVectors cfg (s.groupSpec g).mt.toNat (s.groupSpec g).mc.toNat true ((groupSecrets cfg s bs).getD g [])
    (bs.drop (drawsBefore s g))

/-- The shares that a split with the given identifier makes of the bytes it draws after the identifier's. -/
def sharesFrom (cfg : Config) (s : State) (id : BitVec 16) (bs : List Byte) : List (List Byte) :=
  memberShares cfg id s.splitcfg.gt.toNat s.splitcfg.gc.toNat
    (s.groupJobs (splitVectors cfg s.splitcfg.gt.toNat s.splitcfg.gc.toNat true (s.secretVec s.len) bs))
    (bs.drop (levelDraws s.splitcfg.gt.toNat true s.len))

/-- The identifier and the shares that a split makes of the bytes it draws. -/
def splitOutput (cfg : Config) (s : State) (bs : List Byte) : SplitOutput where
  id := byteAt bs 0 ++ byteAt bs 1
  shares := sharesFrom cfg s (byteAt bs 0 ++ byteAt bs 1) (bs.drop 2)

/-- Each group secret is as long as the secret. -/
theorem length_groupSecret (cfg : Config) (s : State) (bs : List Byte) {g : Nat} (hg : g < s.splitcfg.gc.toNat) :
    ((groupSecrets cfg s bs).getD g []).length = s.len :=
  (length_getD_splitVectors hg).trans (s.secretVec_length s.len)

/-- The draws of the groups do not depend on the bytes drawn for the outer level. -/
theorem draws_groupJobs (s : State) {GS : List (List Byte)}
    (hGS : ∀ g < s.splitcfg.gc.toNat, (GS.getD g []).length = s.len)
    {n : Nat} (hn : n ≤ s.splitcfg.gc.toNat) : (((s.groupJobs GS).take n).map GroupJob.draws).sum =
      ((List.range n).map fun g => levelDraws (s.groupSpec g).mt.toNat true s.len).sum := by
  rw [State.groupJobs, ← List.map_take, List.take_range, min_eq_left hn, List.map_map]
  refine congrArg List.sum (List.map_congr_left fun g hg => ?_)
  simp only [Function.comp_apply, GroupJob.draws, hGS g ((List.mem_range.mp hg).trans_le hn)]

theorem splitDraws_eq (s : State) : splitDraws s = 1 + (1 + (levelDraws s.splitcfg.gt.toNat true s.len +
    ((List.range s.splitcfg.gc.toNat).map fun g => levelDraws (s.groupSpec g).mt.toNat true s.len).sum)) := by
  unfold splitDraws
  omega

/-- The groups of a split, from the vectors `GS` of the outer level (R214). -/
theorem splitGroups_groupJobs (cfg : Config) (s : State) (id : BitVec 16) (gt gc : Nat) {GS : List (List Byte)}
    (hGS : ∀ g < s.splitcfg.gc.toNat, (GS.getD g []).length = s.len) (d : Drawing) :
    splitGroups cfg id gt gc (s.groupJobs GS) d =
      (drawVector ((List.range s.splitcfg.gc.toNat).map fun g =>
        levelDraws (s.groupSpec g).mt.toNat true s.len).sum d).map (memberShares cfg id gt gc (s.groupJobs GS)) := by
  have hdraws := draws_groupJobs s hGS le_rfl
  rw [List.take_of_length_le (by simp [State.groupJobs])] at hdraws
  rw [splitGroups_eq, hdraws]

/-- What SSKR_SPLIT draws after the identifier. -/
theorem sskrSplit_levels_eq (cfg : Config) (s : State) (id : BitVec 16) (d : Drawing) :
    ((shamirSplit cfg s.splitcfg.gt.toNat s.splitcfg.gc.toNat true (s.secretVec s.len) d).andThen fun GS d1 =>
      (splitGroups cfg id s.splitcfg.gt.toNat s.splitcfg.gc.toNat (s.groupJobs GS) d1).andThen fun W d2 =>
        .drawn (⟨id, W⟩ : SplitOutput) d2) =
      (drawVector (levelDraws s.splitcfg.gt.toNat true s.len +
        ((List.range s.splitcfg.gc.toNat).map fun g => levelDraws (s.groupSpec g).mt.toNat true s.len).sum) d).map
          fun bs => ⟨id, sharesFrom cfg s id bs⟩ := by
  have htake := splitVectors_take cfg s.splitcfg.gt.toNat s.splitcfg.gc.toNat true (s.secretVec s.len)
  rw [s.secretVec_length] at htake
  rw [shamirSplit_eq, DrawResult.map_andThen, s.secretVec_length]
  refine (drawVector_andThen (g := fun v bs => ⟨id, memberShares cfg id s.splitcfg.gt.toNat s.splitcfg.gc.toNat
    (s.groupJobs (splitVectors cfg s.splitcfg.gt.toNat s.splitcfg.gc.toNat true (s.secretVec s.len) v)) bs⟩)
    (fun v d1 => ?_) d).trans (DrawResult.map_congr fun bs => by rw [htake, sharesFrom])
  rw [splitGroups_groupJobs cfg s id _ _ fun g hg => (length_getD_splitVectors hg).trans (s.secretVec_length s.len),
    DrawResult.map_andThen]
  rfl

/-- SSKR_SPLIT draws the bytes of R217 and computes its shares from them. -/
theorem sskrSplit_eq (cfg : Config) (s : State) (d : Drawing) :
    sskrSplit cfg s d = (drawVector (splitDraws s) d).map (splitOutput cfg s) := by
  unfold sskrSplit
  simp only [drawByte_eq, sskrSplit_levels_eq, DrawResult.map_andThen]
  rw [splitDraws_eq, drawVector_andThen (fun b0 d0 => drawVector_andThen (fun b1 d1 => rfl) d0)]
  refine DrawResult.map_congr fun bs => ?_
  simp only [byteAt_take _ Nat.zero_lt_one, byteAt_drop, List.drop_drop]
  rfl

/-! ### What a split delivers (R213, R214, R216) -/

theorem sharesBefore_succ (s : State) (g : Nat) :
    sharesBefore s (g + 1) = sharesBefore s g + (s.groupSpec g).mc.toNat := by
  simp [sharesBefore, List.range_succ]

theorem sharesBefore_mono (s : State) : Monotone (sharesBefore s) :=
  monotone_nat_of_le_succ fun g => by
    rw [sharesBefore_succ]
    omega

theorem drawsBefore_succ (s : State) (g : Nat) :
    drawsBefore s (g + 1) = drawsBefore s g + levelDraws (s.groupSpec g).mt.toNat true s.len := by
  simp [drawsBefore, List.range_succ, Nat.add_assoc]

theorem drawsBefore_mono (s : State) : Monotone (drawsBefore s) :=
  monotone_nat_of_le_succ fun g => by
    rw [drawsBefore_succ]
    omega

/-- The slot of member `m` of group `g` is one of the split's. -/
theorem sharesBefore_add_lt {s : State} {g m : Nat} (hg : g < s.splitcfg.gc.toNat) (hm : m < (s.groupSpec g).mc.toNat) :
    sharesBefore s g + m < sharesBefore s s.splitcfg.gc.toNat := by
  have hstep := sharesBefore_succ s g
  have hmono := sharesBefore_mono s (Nat.succ_le_of_lt hg)
  rw [Nat.succ_eq_add_one] at hmono
  omega

section Output

variable {cfg : Config} {s : State} {bs : List Byte}

/-- Each member's payload is as long as the secret. -/
theorem length_memberVector {g m : Nat} (hg : g < s.splitcfg.gc.toNat) (hm : m < (s.groupSpec g).mc.toNat) :
    ((memberVectors cfg s bs g).getD m []).length = s.len :=
  (length_getD_splitVectors hm).trans (length_groupSecret cfg s bs hg)

/-- The share of member `m` of group `g`. -/
theorem getD_splitOutput_shares {g m : Nat} (hg : g < s.splitcfg.gc.toNat) (hm : m < (s.groupSpec g).mc.toNat) :
    (splitOutput cfg s bs).shares.getD (sharesBefore s g + m) [] =
      encodeShare (splitOutput cfg s bs).id s.splitcfg.gt.toNat s.splitcfg.gc.toNat g (s.groupSpec g).mt.toNat m
        ((memberVectors cfg s bs g).getD m []) := by
  have hjob : (s.groupJobs (groupSecrets cfg s bs))[g]? =
      some ⟨g, s.groupSpec g, (groupSecrets cfg s bs).getD g []⟩ := by
    simp [State.groupJobs, hg]
  have hslot : (((s.groupJobs (groupSecrets cfg s bs)).take g).map fun j => j.spec.mc.toNat).sum = sharesBefore s g := by
    rw [State.groupJobs, ← List.map_take, List.take_range, min_eq_left hg.le, List.map_map]
    rfl
  have hdraws := draws_groupJobs s (fun g hg => length_groupSecret cfg s bs hg) hg.le
  have hmember := getD_memberShares cfg (splitOutput cfg s bs).id s.splitcfg.gt.toNat s.splitcfg.gc.toNat
    ((bs.drop 2).drop (levelDraws s.splitcfg.gt.toNat true s.len)) hjob hm
  rw [hslot, hdraws] at hmember
  refine hmember.trans ?_
  rw [List.drop_drop, List.drop_drop, ← Nat.add_assoc]
  rfl

end Output

/-- The vectors of a level are the split of R161 that the drawn bytes give. -/
theorem isDigestSplit_splitVectors {t c L : Nat} {S drawn : List Byte} (hS : S.length = L) (hL : 4 ≤ L)
    (hdrawn : levelDraws t true L ≤ drawn.length) :
    IsDigestSplit t c L S drawn fun i => (splitVectors hwConfig t c true S drawn).getD i [] := by
  subst hS
  refine ⟨fun ht i hi => ?_, fun ht => ?_⟩
  · rw [ht]
    exact getD_splitVectors_one hi
  · have hsalt : S.length - 4 ≤ drawn.length := by
      rw [levelDraws, if_neg (by omega), if_pos rfl] at hdrawn
      omega
    exact ⟨splitCoefficients hwConfig t true S drawn, splitCoefficients_length ht, splitCoefficients_head,
      polyEval_splitCoefficients_digestX (by decide) ht hL hsalt, fun k hk hkt p hp =>
      byteAt_splitCoefficients_digest hk hkt hp, fun i hi => getD_splitVectors ht hi⟩

/-! ### SSKR_SPLIT (R215) -/

section Command

variable {s : State}

/-- With a legal specification the draw of the bytes of R217 decides. -/
theorem commandBody_sskrSplit_of_legal (h : SplitLegal s) :
    commandBody .sskrSplit s =
      drawBody s ((drawVector (splitDraws s) s.drawing).map (splitOutput hwConfig s)) writeSplit := by
  rw [commandBody, sskrSplitBody, s.splitError_eq_none_iff.mpr h, sskrSplit_eq]

/-- What SSKR_SPLIT stores in the slots (R215). -/
theorem at_writeSplit {o : SplitOutput} (hcount : o.shares.length ≤ 256) (hshares : ∀ w ∈ o.shares, w.length ≤ 64)
    (u : State) (a : Nat) : at_ (writeSplit o u) a =
      if 0x800 ≤ a ∧ a < 0x800 + o.shares.length then BitVec.ofNat 8 (o.shares.getD (a - 0x800) []).length
      else if 0x4000 ≤ a ∧ a < 0x4000 + 64 * o.shares.length then
        byteAt (o.shares.getD ((a - 0x4000) / 64) []) ((a - 0x4000) % 64)
      else if (0x800 ≤ a ∧ a < 0x900) ∨ (0x4000 ≤ a ∧ a < 0x8000) then 0x00#8 else at_ u a := by
  have hstore := read_storeShares o.shares 0 ((u.mem.clearBuffer .share).clearBuffer .slen) a hshares (by omega)
  rw [Nat.add_zero, Nat.mul_zero, Nat.add_zero, Nat.zero_add] at hstore
  rw [← at_wipeShares]
  exact hstore

/-- The whole effect of a command that ends normally, from the state `u` its draws led to, with the shares of a split. -/
theorem exec_of_commit_writeSplit {i : Instr} {u : State} {o : SplitOutput} (hcount : o.shares.length ≤ 256)
    (hshares : ∀ w ∈ o.shares, w.length ≤ 64) (hbody : commandBody i s = .commit (writeSplit o u))
    (hphase : commandPhase i = .complete) :
    ∃ t, exec i s = .next t ∧
      (∀ k < o.shares.length, at_ t (0x800 + k) = BitVec.ofNat 8 (o.shares.getD k []).length ∧
        t.mem.readBytes (0x4000 + 64 * k) 64 = padTo 64 (o.shares.getD k [])) ∧
      ZeroIn t (0x800 + o.shares.length) 0x900 ∧ ZeroIn t (0x4000 + 64 * o.shares.length) 0x8000 ∧
      (∀ a, a < 0x800 ∨ (0x900 ≤ a ∧ a < 0x4000) ∨ 0x8000 ≤ a → at_ t a = at_ u a) ∧
      t = { u with mem := t.mem, sharecnt := BitVec.ofNat 16 o.shares.length, ident := o.id,
                   status := okStatus u .complete, latch := none, irq := u.ctrl.ie } := by
  have hread : ∀ a, at_ ((writeSplit o u).completeOk .complete) a = _ := at_writeSplit hcount hshares u
  refine ⟨(writeSplit o u).completeOk .complete, ?_, fun k hk => ⟨?_, ?_⟩, fun a hlo hhi => ?_, fun a hlo hhi => ?_,
    fun a ha => ?_, rfl⟩
  · rw [exec_eq_conclude, hbody, hphase, conclude_commit]
  · rw [hread, if_pos (by omega), Nat.add_sub_cancel_left]
  · have hlength : (o.shares.getD k []).length ≤ 64 := by
      rw [List.getD_eq_getElem _ _ hk]
      exact hshares _ (List.getElem_mem _)
    refine eq_of_byteAt_eq (by rw [Memory.readBytes_length, padTo_length, max_eq_left hlength]) fun p hp => ?_
    rw [Memory.readBytes_length] at hp
    rw [Memory.byteAt_readBytes _ _ _ _ hp, byteAt_padTo]
    refine (hread _).trans ?_
    rw [if_neg (by omega), if_pos (by omega), show (0x4000 + 64 * k + p - 0x4000) / 64 = k by omega,
      show (0x4000 + 64 * k + p - 0x4000) % 64 = p by omega]
  · rw [hread, if_neg (by omega), if_neg (by omega), if_pos (by omega)]
  · rw [hread, if_neg (by omega), if_neg (by omega), if_pos (by omega)]
  · exact (hread a).trans ((if_neg (by omega)).trans ((if_neg (by omega)).trans (if_neg (by omega))))

end Command

/-- Settles O49: the two levels are those that the drawn bytes give, and every share is in its slot. -/
theorem sskrSplitStoresEveryShare : Obligations.SskrSplitStoresEveryShare := by
  intro s bs rest hlegal hport hbs N
  obtain ⟨hlen, h1, h16, ht, htc, hgroups⟩ := hlegal
  obtain ⟨-, hL16, hL32⟩ := (lenOK_iff _).mp hlen
  have hdrawn : drawVector (splitDraws s) s.drawing = .drawn bs ⟨⟨rest, s.port.freeDraws⟩, splitDraws s⟩ := by
    rw [← hbs, State.drawing_of_answers hport, drawVector_listed, Nat.zero_add]
  have hsplit := sskrSplit_eq hwConfig s s.drawing
  rw [hdrawn, DrawResult.map_drawn] at hsplit
  obtain ⟨hcount, hlength⟩ := sskrSplit_lengths hsplit
  have hN : (splitOutput hwConfig s bs).shares.length = N := hcount
  have hbody := commandBody_sskrSplit_of_legal ⟨hlen, h1, h16, ht, htc, hgroups⟩
  rw [hdrawn, DrawResult.map_drawn, drawBody_drawn] at hbody
  obtain ⟨t, hexec, hslots, hslen, hshare, hrest, hframe⟩ := exec_of_commit_writeSplit
    (hN.trans_le (sharesBefore_le ⟨hlen, h1, h16, ht, htc, hgroups⟩))
    (fun w hw => (hlength w hw).trans_le (by omega)) hbody rfl
  rw [hN] at hslots hslen hshare hframe
  have hmono := drawsBefore_mono s
  refine ⟨t, fun g => (groupSecrets hwConfig s bs).getD g [], fun g m => (memberVectors hwConfig s bs g).getD m [],
    hexec, isDigestSplit_splitVectors (s.secretVec_length _) (by omega) ?_, fun g hg =>
    isDigestSplit_splitVectors (length_groupSecret _ _ _ hg) (by omega) ?_, fun g hg m hm => ?_, hslen, hshare, hrest,
    hframe⟩
  · rw [List.length_drop, hbs, splitDraws]
    omega
  · have hnext : drawsBefore s (g + 1) ≤ splitDraws s := hmono (Nat.succ_le_of_lt hg)
    rw [drawsBefore_succ] at hnext
    rw [List.length_drop, hbs]
    omega
  · have hslot := sharesBefore_add_lt hg hm
    obtain ⟨hsize, hbytes⟩ := hslots _ hslot
    refine ⟨?_, ?_⟩
    · rw [hsize, getD_splitOutput_shares hg hm, encodeShare_length, length_memberVector hg hm, BitVec.toNat_ofNat,
        Nat.mod_eq_of_lt (by omega)]
    · rw [hbytes, getD_splitOutput_shares hg hm, hframe]

/-- Settles O50: the refused draw ends the one drawing of the command. -/
theorem sskrSplitLeavesNothingWhenThePortRefuses : Obligations.SskrSplitLeavesNothingWhenThePortRefuses := by
  intro s bs rest hlegal hport hbs
  have hbody := commandBody_sskrSplit_of_legal hlegal
  rw [State.drawing_of_answers hport, drawVector_refused _ _ _ _ _ hbs, Nat.zero_add] at hbody
  exact exec_of_raise_wipeShares hbody rfl

end Sys2Proof.Machine

/-! What the port does to a split (60_exceptions.md R311, 70_reset_and_hazards.md R341). A port that answers lets every
command complete; one that leaves a draw of a split without an answer leaves it pending until the reset input, which
discards the draws made. -/

namespace Sys2Proof.Machine

open Sys2Proof Sys2Proof.Claims

/-! ### A port that answers (R311) -/

/-- The draws of a level with operands in range (R163). -/
theorem levelDraws_le {t L : Nat} (dg : Bool) (ht : t ≤ 16) (hL : L ≤ 32) : levelDraws t dg L ≤ 480 := by
  have hplain : (t - 1) * L ≤ 15 * 32 := Nat.mul_le_mul (by omega) hL
  have hdigest : (t - 2) * L ≤ 14 * 32 := Nat.mul_le_mul (by omega) hL
  unfold levelDraws
  split_ifs <;> omega

/-- The draws of a digest-mode level with operands in range (R163). -/
theorem levelDraws_digest_le {t L : Nat} (ht : t ≤ 16) (hL : L ≤ 32) : levelDraws t true L ≤ 28 + 14 * 32 := by
  have hdigest : (t - 2) * L ≤ 14 * 32 := Nat.mul_le_mul (by omega) hL
  rw [levelDraws, if_pos rfl]
  split_ifs <;> omega

theorem splitDraws_le {s : State} (h : SplitLegal s) : splitDraws s ≤ drawBound := by
  obtain ⟨hlen, -, h16, -, htc, hgroups⟩ := h
  obtain ⟨-, -, hL⟩ := (lenOK_iff _).mp hlen
  have houter := levelDraws_digest_le (htc.trans h16) hL
  have hinner := List.sum_le_card_nsmul
    ((List.range s.splitcfg.gc.toNat).map fun g => levelDraws (s.groupSpec g).mt.toNat true s.len) (28 + 14 * 32) (by
      simp only [List.mem_map, List.mem_range]
      rintro _ ⟨g, hg, rfl⟩
      obtain ⟨-, hmt, hmc⟩ := hgroups g hg
      exact levelDraws_digest_le (hmt.trans hmc) hL)
  simp only [List.length_map, List.length_range, smul_eq_mul] at hinner
  unfold splitDraws drawBound
  omega

/-- A body whose draws are answered is not left without an answer. -/
theorem drawBody_ne_hang {α : Type} {r : DrawResult α} {n : Nat} (h : r.Answered n) (s : State)
    (k : α → State → State) (d : Drawing) : drawBody s r k ≠ .hang d := by
  obtain ⟨hsilent, -⟩ := h
  cases r with
  | drawn a d' => nofun
  | unavailable d' => nofun
  | silent d' => exact absurd rfl (hsilent d')

theorem drawVector_map_answered {α : Type} {s : State} {n : Nat} (h : s.RngAnswers drawBound) (hn : n ≤ drawBound)
    (f : List Byte → α) : ((drawVector n s.drawing).map f).Answered 0 :=
  DrawResult.answered_map f (drawVector_answered (Port.AnswersFor.mono h hn))

/-- No body is left without an answer by a port that answers every draw. -/
theorem commandBody_ne_hang_of_rngAnswers {i : Instr} {s : State} (h : s.RngAnswers drawBound) (d : Drawing) :
    commandBody i s ≠ .hang d := by
  intro hbody
  cases i with
  | shamirSplit t c dg =>
    by_cases hbad : lenOK s.len = false ∨ t < 1 ∨ 16 < t ∨ c < t ∨ 16 < c
    · cases (commandBody_shamirSplit_of_bad_operands hbad).symm.trans hbody
    · simp only [not_or, Bool.not_eq_false, not_lt] at hbad
      obtain ⟨hlen, h1, h16, htc, hc⟩ := hbad
      have hdraws := levelDraws_le dg h16 ((lenOK_iff _).mp hlen).2.2
      rw [commandBody_shamirSplit_of_legal ⟨hlen, h1, htc, hc⟩] at hbody
      exact drawBody_ne_hang (drawVector_map_answered h (hdraws.trans (by decide)) _) _ _ _ hbody
  | sskrSplit =>
    cases herror : s.splitError with
    | some r => cases (commandBody_sskrSplit_of_splitError herror).symm.trans hbody
    | none =>
      have hlegal := s.splitError_eq_none_iff.mp herror
      rw [commandBody_sskrSplit_of_legal hlegal] at hbody
      exact drawBody_ne_hang (drawVector_map_answered h (splitDraws_le hlegal) _) _ _ _ hbody
  | _ => exact commandBody_ne_hang (by simp [Instr.opcode]) s d hbody

/-- Settles O9: a command that is not left without an answer ends in the completion frame. -/
theorem everyCommandCompletesWhenThePortAnswers : Obligations.EveryCommandCompletesWhenThePortAnswers := by
  intro i s hanswers
  rcases exec_cases i s with ⟨t, -, h⟩ | ⟨t, r, -, h⟩ | ⟨d, hbody, -⟩
  · exact ⟨_, h, rfl, rfl, rfl⟩
  · exact ⟨_, h, rfl, rfl, rfl⟩
  · exact absurd hbody (commandBody_ne_hang_of_rngAnswers hanswers d)

/-! ### A silent port (R311) -/

section Silent

variable {s : State} {bs : List Byte} {rest : List PortAnswer}

theorem commandBody_shamirSplit_of_silent {t c : Nat} {dg : Bool} (h : SplitOperandsLegal t c s)
    (hport : s.port.answers = bs.map PortAnswer.byte ++ .silent :: rest) (hbs : bs.length < levelDraws t dg s.len) :
    commandBody (.shamirSplit t c dg) s = .hang ⟨⟨rest, s.port.freeDraws⟩, bs.length⟩ := by
  rw [commandBody_shamirSplit_of_legal h, State.drawing_of_answers hport, drawVector_unanswered _ _ _ _ _ hbs,
    Nat.zero_add]
  rfl

theorem commandBody_sskrSplit_of_silent (h : SplitLegal s)
    (hport : s.port.answers = bs.map PortAnswer.byte ++ .silent :: rest) (hbs : bs.length < splitDraws s) :
    commandBody .sskrSplit s = .hang ⟨⟨rest, s.port.freeDraws⟩, bs.length⟩ := by
  rw [commandBody_sskrSplit_of_legal h, State.drawing_of_answers hport, drawVector_unanswered _ _ _ _ _ hbs,
    Nat.zero_add]
  rfl

end Silent

/-- A command left without an answer only has its draws recorded. -/
theorem exec_of_hang {i : Instr} {s : State} {d : Drawing} (hbody : commandBody i s = .hang d) :
    exec i s = .next { s with drawn := d.count + 1 } := by
  rw [exec_eq_conclude, hbody]
  rfl

/-- A step that completes a word whose command is left without an answer. -/
theorem step_of_hang {i : Instr} {s : State} {w : Word} {d : Drawing} (hbusy : s.status.busy = true)
    (hsched : s.schedule = []) (hlatch : s.latch = some w) (hdecode : decode w = .ok i)
    (hbody : commandBody i s = .hang d) : step s = .next { s with drawn := d.count + 1 } := by
  rw [step_of_pending hbusy hlatch hsched, completeWord_of_decode_ok hdecode, exec_of_hang hbody]

theorem decode_sskrSplit : decode 0x00000040#32 = .ok .sskrSplit := decode_wordOf 0x40#8 0x00#8 0x00#8 0x00#8

theorem decode_encode_shamirSplit {t c : Nat} (dg : Bool) (ht : t ≤ 16) (hc : c ≤ 16) :
    decode (encode (.shamirSplit t c dg)) = .ok (.shamirSplit t c dg) :=
  encodedInstructionsDecodeToThemselves _ (by simp [Instr.wellFormed, fitsByte]; omega)

/-- Settles O10: neither the port nor the command reads the record of the draws, so the repeated step is the same. -/
theorem silentPortLeavesTheSplitPending : Obligations.SilentPortLeavesTheSplitPending := by
  rintro s bs rest hport hbusy hsched (⟨hlegal, hlatch, hbs⟩ | ⟨t, c, dg, hlen, h1, htc, hc, hlatch, hbs⟩)
  · exact ⟨step_of_hang hbusy hsched hlatch decode_sskrSplit (commandBody_sskrSplit_of_silent hlegal hport hbs),
      step_of_hang (s := { s with drawn := bs.length + 1 }) hbusy hsched hlatch decode_sskrSplit
        (commandBody_sskrSplit_of_silent hlegal hport hbs)⟩
  · have hdecode := decode_encode_shamirSplit dg (htc.trans hc) hc
    exact ⟨step_of_hang hbusy hsched hlatch hdecode (commandBody_shamirSplit_of_silent ⟨hlen, h1, htc, hc⟩ hport hbs),
      step_of_hang (s := { s with drawn := bs.length + 1 }) hbusy hsched hlatch hdecode
        (commandBody_shamirSplit_of_silent ⟨hlen, h1, htc, hc⟩ hport hbs)⟩

/-! ### Reset of a hung split (R341) -/

/-- The draws of a pending command that is left without an answer are the bytes delivered and the unanswered draw. -/
theorem State.pendingDraws_of_hang {i : Instr} {s : State} {w : Word} {d : Drawing} (hbusy : s.status.busy = true)
    (hlatch : s.latch = some w) (hdecode : decode w = .ok i) (hbody : commandBody i s = .hang d) :
    s.pendingDraws = d.count + 1 := by
  simp [State.pendingDraws, hlatch, hdecode, exec_of_hang hbody, hbusy]

section HungSplit

variable {s : State} {bs : List Byte} {rest : List PortAnswer}

theorem State.pendingDraws_of_silent (h : SplitLegal s)
    (hport : s.port.answers = bs.map PortAnswer.byte ++ .silent :: rest) (hbs : bs.length < splitDraws s)
    (hbusy : s.status.busy = true) (hlatch : s.latch = some 0x00000040#32) : s.pendingDraws = bs.length + 1 :=
  State.pendingDraws_of_hang hbusy hlatch decode_sskrSplit (commandBody_sskrSplit_of_silent h hport hbs)

/-- The same after the progress that a host's line meets (R233). -/
theorem State.pendingDraws_progress_of_silent (h : SplitLegal s)
    (hport : s.port.answers = bs.map PortAnswer.byte ++ .silent :: rest) (hbs : bs.length < splitDraws s)
    (hbusy : s.status.busy = true) (hlatch : s.latch = some 0x00000040#32) :
    s.progress.pendingDraws = bs.length + 1 := by
  rw [State.progress_of_busy hbusy]
  apply State.pendingDraws_of_silent (rest := rest) <;> assumption

end HungSplit

/-- Settles O18: after the engine's step the record and the pending draws agree, so that reset discards exactly them;
before it, reset discards at most them. -/
theorem resetDiscardsTheDrawsOfAHungSplit : Obligations.ResetDiscardsTheDrawsOfAHungSplit := by
  intro s bs rest more hlegal hport hbs hbusy hlatch hinput
  refine ⟨fun hsched => ?_, fun hsched hdrawn => ?_⟩
  · have hstep : step s = .next { s with schedule := [.host], drawn := bs.length + 1 } := by
      rw [step_of_scheduled_engine hbusy hlatch hsched, completeWord_of_decode_ok decode_sskrSplit]
      exact exec_of_hang (commandBody_sskrSplit_of_silent (s := { s with schedule := [.host] }) hlegal hport hbs)
    have hpending := State.pendingDraws_progress_of_silent
      (s := { s with schedule := [], drawn := bs.length + 1, inputs := more }) hlegal hport hbs hbusy hlatch
    have hbounds := State.abandonedDraws_bounds
      (s := State.progress { s with schedule := [], drawn := bs.length + 1, inputs := more })
      ((State.progress_busy _).trans hbusy)
    rw [hpending, State.progress_drawn] at hbounds
    refine ⟨_, _, hstep, step_of_reset_input hinput rfl, rfl, rfl, rfl, rfl, rfl, rfl, ?_⟩
    have hdraws : State.abandonedDraws (State.progress _) = bs.length + 1 :=
      le_antisymm (hbounds.2.trans_eq (max_self _)) hbounds.1
    have hskip := Port.skip_listed (bs.map PortAnswer.byte ++ [.silent]) rest s.port.freeDraws
    rw [List.length_append, List.length_map, List.length_singleton, List.append_assoc, List.singleton_append, ← hport,
      ← hdraws] at hskip
    exact (congrArg (Port.skip · _) (State.progress_port _)).trans hskip
  · refine ⟨_, (State.progress { s with schedule := [], inputs := more }).abandonedDraws,
      step_of_reset_input hinput hsched, ?_, congrArg (Port.skip · _) (State.progress_port _)⟩
    have hbounds := State.abandonedDraws_bounds (s := State.progress { s with schedule := [], inputs := more })
      ((State.progress_busy _).trans hbusy)
    rw [State.pendingDraws_progress_of_silent (s := { s with schedule := [], inputs := more }) hlegal hport hbs hbusy
      hlatch, State.progress_drawn] at hbounds
    exact hbounds.2.trans_eq (by simp [hdrawn])

end Sys2Proof.Machine

/-! An encoded share decodes to the fields it was made of (46_codec.md R258). -/

namespace Sys2Proof.Machine

open Sys2Proof Sys2Proof.Claims

/-- The header values that a share can hold and that decode (R100, R253). -/
structure HeaderLegal (gt gc gi mt mi : Nat) : Prop where
  gt_pos : 1 ≤ gt
  gt_le : gt ≤ gc
  gc_le : gc ≤ 16
  gi_lt : gi < gc
  mt_pos : 1 ≤ mt
  mt_le : mt ≤ 16
  mi_le : mi ≤ 15

/-- A legal header is read back from its bytes. -/
theorem readShareFields_encodeShare {gt gc gi mt mi : Nat} (h : HeaderLegal gt gc gi mt mi) (id : BitVec 16)
    (P : List Byte) (k : Nat) :
    readShareFields (padTo 64 (encodeShare id gt gc gi mt mi P)) (5 + P.length) k =
      ⟨k, id, gt, gc, gi, mt, mi, 0#4, P⟩ := by
  obtain ⟨hgt, hgtc, hgc, hgi, hmt, hmt16, hmi⟩ := h
  have hcounts : (nibbles (gt - 1) (gc - 1)).toNat = 16 * (gt - 1) + (gc - 1) := toNat_nibbles (by omega) (by omega)
  have hgroup : (nibbles gi (mt - 1)).toNat = 16 * gi + (mt - 1) := toNat_nibbles (by omega) (by omega)
  have hmember : (nibbles mi 0).toNat = 16 * mi := toNat_nibbles (by omega) (by omega)
  have hpayload : ((padTo 64 (encodeShare id gt gc gi mt mi P)).drop 5).take (5 + P.length - 5) = P := by
    rw [Nat.add_sub_cancel_left]
    exact List.take_left
  simp only [readShareFields, DecodedShare.mk.injEq, hpayload, byteAt_padTo]
  refine ⟨trivial, BitVec.extractLsb'_append_extractLsb', ?_, ?_, ?_, ?_, ?_, ?_, trivial⟩
  · exact (congrArg (· + 1) ((toNat_highNibble _).trans (congrArg (· / 16) hcounts))).trans (by omega)
  · exact (congrArg (· + 1) ((toNat_lowNibble _).trans (congrArg (· % 16) hcounts))).trans (by omega)
  · exact ((toNat_highNibble _).trans (congrArg (· / 16) hgroup)).trans (by omega)
  · exact (congrArg (· + 1) ((toNat_lowNibble _).trans (congrArg (· % 16) hgroup))).trans (by omega)
  · exact ((toNat_highNibble _).trans (congrArg (· / 16) hmember)).trans (by omega)
  · exact BitVec.eq_of_toNat_eq (((toNat_lowNibble _).trans (congrArg (· % 16) hmember)).trans
      (Nat.mul_mod_right 16 mi))

/-- Settles O43: the header read back is legal, so no check fails. -/
theorem encodedSharesDecodeToTheirFields : Obligations.EncodedSharesDecodeToTheirFields := by
  intro id gt gc gi mt mi k P strict hgt hgtc hgc hgi hmt hmt16 hmi hlen
  obtain ⟨heven, h16, h32⟩ := (lenOK_iff _).mp hlen
  rw [decodeShare, if_neg (by omega), if_neg (by omega),
    readShareFields_encodeShare ⟨hgt, hgtc, hgc, hgi, hmt, hmt16, hmi⟩, if_neg (by simp), if_neg (by simp; omega)]

end Sys2Proof.Machine

/-! SSKR_RECOMBINE (45_sskr.md R220 to R231): what its phases make of the shares in the slots, and its two ends. -/

namespace Sys2Proof.Machine

open Sys2Proof Sys2Proof.Claims

/-! ### The two ends of the command (R230 to R232) -/

section Ends

variable {s : State}

/-- The whole effect of a recombination that fails. -/
theorem exec_sskrRecombine_effect_of_error {r : Raised} (h : sskrRecombine hwConfig s = .error r) :
    ∃ t, exec .sskrRecombine s = .next t ∧ ZeroIn t 0x100 0x120 ∧ SameOutside s t 0x100 0x120 ∧
      t = { s with mem := t.mem, status := errStatus s r.err, errinfo := r.info, latch := none, irq := s.ctrl.ie } :=
  exec_of_raise_clearBuffer (b := .secret) (by rw [commandBody, sskrRecombineBody, h]) rfl

/-- The whole effect of a recombination that recovers a secret. -/
theorem exec_sskrRecombine_effect_of_ok {o : Recovered} (h : sskrRecombine hwConfig s = .ok o) :
    ∃ t, exec .sskrRecombine s = .next t ∧ (∀ p < 32, at_ t (0x100 + p) = byteAt o.secret p) ∧
      SameOutside s t 0x100 0x120 ∧
      t = { s with mem := t.mem, ctrl := ⟨s.ctrl.strict, s.ctrl.ie, BitVec.ofNat 6 o.secret.length⟩, ident := o.id,
                   status := okStatus s .verified, latch := none, irq := s.ctrl.ie } := by
  have hread : ∀ a, at_ ((writeRecovered o s).completeOk .verified) a = _ :=
    at_writeRecovered (sskrRecombine_length h).2 s
  refine ⟨_, exec_sskrRecombine_of_ok h, fun p hp => ?_, fun a ha => ?_, rfl⟩
  · rw [hread, if_pos (by omega), Nat.add_sub_cancel_left]
  · rw [hread, if_neg (by omega)]

end Ends

/-! ### Phases 1 and 2 (R221, R222) -/

theorem getD_range {k n : Nat} (hk : k < n) : (List.range n).getD k 0 = k := by
  simp [hk]

/-- Phases 1 and 2 pass and deliver the shares `hs`, of which `h0` is the first. -/
structure State.Delivers (s : State) (h0 : DecodedShare) (hs : List DecodedShare) : Prop where
  count_pos : 1 ≤ s.sharecnt.toNat
  count_le : s.sharecnt.toNat ≤ 256
  length_eq : hs.length = s.sharecnt.toNat
  head_eq : hs.head? = some h0
  decode_eq : ∀ k < s.sharecnt.toNat, s.decodeSlot k = .ok (hs.getD k h0)

section Delivered

variable {s : State} {h0 : DecodedShare} {hs : List DecodedShare}

theorem State.Delivers.sskrRecombine_eq (h : s.Delivers h0 hs) (cfg : Config) :
    sskrRecombine cfg s = recombineShares cfg hs := by
  obtain ⟨hpos, hle, hlength, -, hdecode⟩ := h
  have hslots : s.decodeSlots (List.range s.sharecnt.toNat) = .ok hs := by
    refine State.decodeSlots_eq_ok h0 (by rw [hlength, List.length_range]) fun i hi => ?_
    rw [List.length_range] at hi
    rw [getD_range hi]
    exact hdecode i hi
  rw [sskrRecombine, if_neg (by omega), if_neg (Nat.not_lt.mpr hle), hslots]

/-- Every delivered share is the decoding of its slot. -/
theorem State.Delivers.exists_slot (h : s.Delivers h0 hs) {x : DecodedShare} (hx : x ∈ hs) :
    ∃ k < s.sharecnt.toNat, x = hs.getD k h0 ∧ s.decodeSlot k = .ok x := by
  obtain ⟨k, hk, rfl⟩ := List.getElem_of_mem hx
  have hkN : k < s.sharecnt.toNat := hk.trans_eq h.length_eq
  have hget := List.getD_eq_getElem hs h0 hk
  exact ⟨k, hkN, hget.symm, (h.decode_eq k hkN).trans (congrArg Except.ok hget)⟩

/-- A delivered share holds legal thresholds and a legal payload (R251, R253). -/
theorem State.Delivers.legal (h : s.Delivers h0 hs) {x : DecodedShare} (hx : x ∈ hs) :
    1 ≤ x.gt ∧ 1 ≤ x.mt ∧ x.payload.length ≤ 32 := by
  obtain ⟨k, -, -, hdecode⟩ := h.exists_slot hx
  obtain ⟨-, hlength, -, h37, -, hgt, -, -, hmt, -⟩ := State.decodeSlot_ok hdecode
  exact ⟨hgt, hmt, by omega⟩

theorem State.Delivers.slot_eq (h : s.Delivers h0 hs) {k : Nat} (hk : k < s.sharecnt.toNat) :
    (hs.getD k h0).slot = k := by
  obtain ⟨-, -, -, -, -, -, -, -, -, hslot⟩ := State.decodeSlot_ok (h.decode_eq k hk)
  exact hslot

/-! ### Phases 3 to 5 (R223 to R225) -/

/-- A check that fails first in slot `k` raises with that slot. -/
theorem State.Delivers.firstFailing_eq_some (h : s.Delivers h0 hs) {e : ErrCode} {bad : DecodedShare → Bool}
    {P : Nat → Prop} (hbad : ∀ k, bad (hs.getD k h0) = true ↔ P k) {info : BitVec 16}
    (hfirst : ∃ k < s.sharecnt.toNat, P k ∧ (∀ j < k, ¬ P j) ∧ info = BitVec.ofNat 16 k) :
    firstFailing e bad hs = some ⟨e, info⟩ := by
  obtain ⟨k, hk, hPk, hbefore, rfl⟩ := hfirst
  exact Machine.firstFailing_eq_some h0 (hk.trans_eq h.length_eq.symm) (h.slot_eq hk) ((hbad k).mpr hPk)
    fun j hj => Bool.eq_false_iff.mpr (mt (hbad j).mp (hbefore j hj))

theorem State.Delivers.firstFailing_eq_none (h : s.Delivers h0 hs) {e : ErrCode} {bad : DecodedShare → Bool}
    {P : Nat → Prop} (hbad : ∀ k, bad (hs.getD k h0) = true ↔ P k) (hnever : ∀ k < s.sharecnt.toNat, ¬ P k) :
    firstFailing e bad hs = none := by
  refine Machine.firstFailing_eq_none.mpr fun x hx => ?_
  obtain ⟨k, hk, rfl, -⟩ := h.exists_slot hx
  exact Bool.eq_false_iff.mpr (mt (hbad k).mp (hnever k hk))

end Delivered

theorem otherIdentifier_iff (h0 h : DecodedShare) : otherIdentifier h0 h = true ↔ h.id ≠ h0.id := bne_iff_ne

theorem otherParameters_iff (h0 h : DecodedShare) : otherParameters h0 h = true ↔
    h.payload.length ≠ h0.payload.length ∨ h.gt ≠ h0.gt ∨ h.gc ≠ h0.gc := by
  simp [otherParameters, or_assoc]

theorem otherMemberThreshold_iff (hs : List DecodedShare) (h : DecodedShare) : otherMemberThreshold hs h = true ↔
    ∃ j, hs.find? (fun j => j.gi == h.gi) = some j ∧ h.mt ≠ j.mt := by
  unfold otherMemberThreshold
  cases hs.find? fun j => j.gi == h.gi <;> simp

theorem conflictsWithTwin_iff (hs : List DecodedShare) (h : DecodedShare) : conflictsWithTwin hs h = true ↔
    ∃ j, hs.find? (fun j => j.gi == h.gi && j.mi == h.mi) = some j ∧ h.payload ≠ j.payload := by
  unfold conflictsWithTwin firstTwin
  cases hs.find? fun j => j.gi == h.gi && j.mi == h.mi <;> simp

section Phases

variable {cfg : Config} {h0 : DecodedShare} {hs : List DecodedShare}

theorem recombineShares_of_shareSetError {r : Raised} (hhead : hs.head? = some h0) (h : shareSetError h0 hs = some r) :
    recombineShares cfg hs = .error r := by
  obtain ⟨tl, rfl⟩ := List.head?_eq_some_iff.mp hhead
  rw [recombineShares, h]

/-- The shares agree on what R223 to R225 compare. -/
structure Consistent (h0 : DecodedShare) (hs : List DecodedShare) : Prop where
  parameters : ∀ h ∈ hs, h.id = h0.id ∧ h.payload.length = h0.payload.length ∧ h.gt = h0.gt ∧ h.gc = h0.gc
  members : ∀ h ∈ hs, ∀ j ∈ hs, h.gi = j.gi → h.mt = j.mt ∧ (h.mi = j.mi → h.payload = j.payload)

/-- With a consistent set phases 6 to 9 decide. -/
theorem Consistent.recombineShares_eq (h : Consistent h0 hs) (hhead : hs.head? = some h0) :
    recombineShares cfg hs =
      (recombineKept cfg (keptShares hs) h0.payload.length h0.gt).map fun S => ⟨S, h0.id⟩ := by
  obtain ⟨tl, rfl⟩ := List.head?_eq_some_iff.mp hhead
  rw [recombineShares, shareSetError_of_consistent h.parameters h.members]
  cases recombineKept cfg (keptShares (h0 :: tl)) h0.payload.length h0.gt <;> rfl

end Phases

/-- Settles O51: each alternative fixes the phase that fails first and the slot it names. -/
theorem sskrRecombineReportsTheFirstFailingPhase : Obligations.SskrRecombineReportsTheFirstFailingPhase := by
  intro s hs h0 e info N sameGroup twin mixed other otherMt conflict decoded first never hcase
  suffices herror : sskrRecombine hwConfig s = .error ⟨e, info⟩ from exec_sskrRecombine_effect_of_error herror
  rcases hcase with ⟨hN, rfl, rfl⟩ | ⟨hN, rfl, rfl⟩ | ⟨h1, h256, ⟨k, hk, hbad, hbefore⟩ | ⟨hdecoded, hphase⟩⟩
  · exact if_pos hN
  · exact (if_neg (by omega)).trans (if_pos hN)
  · have hslots : s.decodeSlots (List.range N) = .error ⟨e, info⟩ := by
      refine State.decodeSlots_eq_error (i := k) (by rwa [List.length_range]) (by rwa [getD_range hk]) fun j hj => ?_
      rw [getD_range (hj.trans hk)]
      exact hbefore j hj
    rw [sskrRecombine, if_neg (by omega), if_neg (Nat.not_lt.mpr h256), hslots]
  · obtain ⟨hlength, hhead, hdecode⟩ := hdecoded
    have hdelivers : s.Delivers h0 hs := ⟨h1, h256, hlength, hhead, hdecode⟩
    rw [hdelivers.sskrRecombine_eq]
    refine recombineShares_of_shareSetError hhead ?_
    have hmixed : ∀ k, otherIdentifier h0 (hs.getD k h0) = true ↔ mixed k := fun k => otherIdentifier_iff _ _
    have hother : ∀ k, otherParameters h0 (hs.getD k h0) = true ↔ other k := fun k => otherParameters_iff _ _
    have hotherMt : ∀ k, otherMemberThreshold hs (hs.getD k h0) = true ↔ otherMt k :=
      fun k => otherMemberThreshold_iff _ _
    have hconflict : ∀ k, conflictsWithTwin hs (hs.getD k h0) = true ↔ conflict k := fun k => conflictsWithTwin_iff _ _
    rw [shareSetError]
    rcases hphase with ⟨hfirst, rfl⟩ | ⟨hno, ⟨hfirst, rfl⟩ | ⟨hno', ⟨hfirst, rfl⟩ | ⟨hno'', hfirst, rfl⟩⟩⟩
    · rw [hdelivers.firstFailing_eq_some hmixed hfirst]
      rfl
    · rw [hdelivers.firstFailing_eq_none hmixed hno, hdelivers.firstFailing_eq_some hother hfirst]
      rfl
    · rw [hdelivers.firstFailing_eq_none hmixed hno, hdelivers.firstFailing_eq_none hother hno',
        hdelivers.firstFailing_eq_some hotherMt hfirst]
      rfl
    · rw [hdelivers.firstFailing_eq_none hmixed hno, hdelivers.firstFailing_eq_none hother hno',
        hdelivers.firstFailing_eq_none hotherMt hno'', hdelivers.firstFailing_eq_some hconflict hfirst]
      rfl

/-- Settles O52: a consistent set whose levels recombine is recovered, and its payloads fit SECRET. -/
theorem sskrRecombineStoresTheRecoveredSecret : Obligations.SskrRecombineStoresTheRecoveredSecret := by
  intro s hs h0 S h1 h256 hlength hhead hdecode hparameters hmembers henough hkept
  have hdelivers : s.Delivers h0 hs := ⟨h1, h256, hlength, hhead, hdecode⟩
  have hrecovered : sskrRecombine hwConfig s = .ok ⟨S, h0.id⟩ := by
    rw [hdelivers.sskrRecombine_eq, Consistent.recombineShares_eq ⟨hparameters, hmembers⟩ hhead, hkept]
    rfl
  have hS : S.length = h0.payload.length := by
    refine recombineKept_length (hdelivers.legal (List.mem_of_head? hhead)).1 (fun h hh => ?_) hkept
    have hmem : h ∈ hs := List.mem_of_mem_filter hh
    exact ⟨(hparameters h hmem).2.1, (hdelivers.legal hmem).2.1⟩
  obtain ⟨t, hexec, hsecret, hrest, hframe⟩ := exec_sskrRecombine_effect_of_ok hrecovered
  rw [hS] at hframe
  exact ⟨t, hexec, hS, hsecret, hrest, hframe⟩

/-! ### Phases 6 to 9 (R226 to R229) -/

section Kept

variable {cfg : Config} {kept : List DecodedShare} {L gt : Nat}

theorem groupQualifies_iff (g : Nat) : groupQualifies kept g = true ↔
    ∃ mt, groupThreshold kept g = some mt ∧ mt ≤ (groupMembers kept g).length := by
  unfold groupQualifies
  cases groupThreshold kept g <;> simp

theorem recombineKept_of_few (h : (qualifyingGroups kept).length < gt) :
    recombineKept cfg kept L gt = .error ⟨.insufficientShares, infoOuter⟩ := if_pos h

theorem recombineKept_of_group_error {r : Raised} (h : gt ≤ (qualifyingGroups kept).length)
    (hgroups : recombineGroups cfg kept L ((qualifyingGroups kept).take gt) = .error r) :
    recombineKept cfg kept L gt = .error r := by
  rw [recombineKept, if_neg (Nat.not_lt.mpr h), hgroups]

theorem recombineKept_of_groups {pts : List Point} (h : gt ≤ (qualifyingGroups kept).length)
    (hgroups : recombineGroups cfg kept L ((qualifyingGroups kept).take gt) = .ok pts) :
    recombineKept cfg kept L gt = shamirRecombine cfg gt pts true L infoOuter := by
  rw [recombineKept, if_neg (Nat.not_lt.mpr h), hgroups]

/-- The selected groups are the first `gt` that qualify (R227). -/
theorem getD_take_qualifyingGroups {q : Nat} (hq : q < gt) :
    ((qualifyingGroups kept).take gt).getD q 0 = (qualifyingGroups kept).getD q 0 := by
  rw [List.getD_eq_getElem?_getD, List.getElem?_take_of_lt hq, ← List.getD_eq_getElem?_getD]

theorem getD_qualifyingGroups_mem {q : Nat} (hq : q < (qualifyingGroups kept).length) :
    (qualifyingGroups kept).getD q 0 ∈ qualifyingGroups kept := by
  rw [List.getD_eq_getElem _ _ hq]
  exact List.getElem_mem hq

/-- A qualifying group whose digest share does not verify (R228, R191). -/
theorem recombineGroup_of_mismatch {g mt : Nat} (hg : g ∈ qualifyingGroups kept) (hmt : groupThreshold kept g = some mt)
    (h2 : 2 ≤ mt) (hverify : verifyDigestShare cfg
      (interp (((groupMembers kept g).map memberPoint).take mt) 0x00#8 L)
      (interp (((groupMembers kept g).map memberPoint).take mt) cfg.digestX L) = false) :
    recombineGroup cfg kept L g = .error ⟨.checksumMismatch, infoGroup g⟩ := by
  obtain ⟨mt', hmt', henough⟩ := (groupQualifies_iff g).mp (List.mem_filter.mp hg).2
  obtain rfl : mt' = mt := Option.some_injective _ (hmt'.symm.trans hmt)
  rw [recombineGroup, hmt, Option.getD_some, shamirRecombine_of_enough, selectDistinct_groupMembers]
  · exact recombineSelected_of_mismatch (by omega) hverify
  · rw [selectDistinct_groupMembers, List.length_map]
    exact henough

/-- The points of the selected groups are all selected (R229). -/
theorem shamirRecombine_outer_of_mismatch {GS : List (List Byte)} (h2 : 2 ≤ gt)
    (henough : gt ≤ (qualifyingGroups kept).length)
    (hverify : verifyDigestShare cfg
      (interp ((List.range gt).map fun q => ⟨shareX ((qualifyingGroups kept).getD q 0), GS.getD q []⟩) 0x00#8 L)
      (interp ((List.range gt).map fun q => ⟨shareX ((qualifyingGroups kept).getD q 0), GS.getD q []⟩) cfg.digestX L) =
        false)
    (hgroups : ∀ q < gt, recombineGroup cfg kept L ((qualifyingGroups kept).getD q 0) = .ok (GS.getD q [])) :
    recombineKept cfg kept L gt = .error ⟨.checksumMismatch, infoOuter⟩ := by
  have hlength : ((qualifyingGroups kept).take gt).length = gt := by rw [List.length_take, min_eq_left henough]
  have hpoints : ((List.range gt).map fun q =>
      (⟨shareX (((qualifyingGroups kept).take gt).getD q 0), GS.getD q []⟩ : Point)) =
      (List.range gt).map fun q => ⟨shareX ((qualifyingGroups kept).getD q 0), GS.getD q []⟩ :=
    List.map_congr_left fun q hq => by rw [getD_take_qualifyingGroups (List.mem_range.mp hq)]
  have hok := recombineGroups_eq_ok (cfg := cfg) (kept := kept) (L := L) (GS := GS)
    (gs := (qualifyingGroups kept).take gt) fun q hq => by
      rw [hlength] at hq
      rw [getD_take_qualifyingGroups hq]
      exact hgroups q hq
  have hselect := selectDistinct_outerPoints (gs := (qualifyingGroups kept).take gt)
    ((List.nodup_range.filter _).sublist (List.take_sublist _ _))
    (fun g hg => List.mem_range.mp (List.mem_filter.mp (List.mem_of_mem_take hg)).1) fun q => GS.getD q []
  rw [hlength, hpoints] at hok hselect
  rw [recombineKept_of_groups henough hok, shamirRecombine_of_enough (by rw [hselect]; simp), hselect,
    List.take_of_length_le (by simp)]
  exact recombineSelected_of_mismatch (by omega) hverify

end Kept

/-- Settles O53: each alternative fixes where phases 6 to 9 end. -/
theorem sskrRecombineReportsWeakOrCorruptGroups : Obligations.SskrRecombineReportsWeakOrCorruptGroups := by
  intro s hs h0 e info kept L h1 h256 hlength hhead hdecode hparameters hmembers hcase
  have hdelivers : s.Delivers h0 hs := ⟨h1, h256, hlength, hhead, hdecode⟩
  suffices hkept : recombineKept hwConfig kept L h0.gt = .error ⟨e, info⟩ by
    refine exec_sskrRecombine_effect_of_error (r := ⟨e, info⟩) ?_
    rw [hdelivers.sskrRecombine_eq, Consistent.recombineShares_eq ⟨hparameters, hmembers⟩ hhead, hkept]
    rfl
  rcases hcase with ⟨hfew, rfl, rfl⟩ | ⟨henough, q, hq, ⟨mt, hmt, h2, hverify⟩, hbefore, rfl, rfl⟩ |
    ⟨h2, henough, GS, hgroups, hverify, rfl, rfl⟩
  · exact recombineKept_of_few hfew
  · refine recombineKept_of_group_error henough (recombineGroups_eq_error (q := q) ?_ ?_ fun j hj => ?_)
    · rw [List.length_take]
      omega
    · rw [getD_take_qualifyingGroups hq]
      exact recombineGroup_of_mismatch (getD_qualifyingGroups_mem (hq.trans_le henough)) hmt h2 hverify
    · rw [getD_take_qualifyingGroups (hj.trans hq)]
      exact hbefore j hj
  · exact shamirRecombine_outer_of_mismatch h2 henough hverify hgroups

end Sys2Proof.Machine

/-! Recombining shares of a split (45_sskr.md R234). The slots present some of the split's shares, in any order and with
repeats; what phases 5 to 7 keep and select of them is read off which members are present, and both levels then give
back what the split made. -/

namespace Sys2Proof.Machine

open Sys2Proof Sys2Proof.Claims

/-! ### Counting below a bound -/

/-- A filter below 16 that lets nothing through from `n` on is one below `n`. -/
theorem filter_range_sixteen {n : Nat} (hn : n ≤ 16) {p q : Nat → Bool} (h : ∀ i < 16, p i = true ↔ i < n ∧ q i = true) :
    (List.range 16).filter p = (List.range n).filter q := by
  obtain ⟨k, hk⟩ := Nat.exists_eq_add_of_le hn
  have hlow : (List.range n).filter p = (List.range n).filter q := List.filter_congr fun i hi => by
    have hi := List.mem_range.mp hi
    rw [Bool.eq_iff_iff, h i (by omega)]
    simp [hi]
  have hhigh : ((List.range k).map (n + ·)).filter p = [] := List.filter_eq_nil_iff.mpr fun i hi => by
    obtain ⟨j, hj, rfl⟩ := List.mem_map.mp hi
    have hj := List.mem_range.mp hj
    rw [h _ (by omega)]
    omega
  rw [hk, List.range_add, List.filter_append, hlow, hhigh, List.append_nil]

/-- Every slot of the split is some member's. -/
theorem exists_member_of_lt_sharesBefore (s : State) {k n : Nat} (hk : k < sharesBefore s n) :
    ∃ g < n, ∃ m < (s.groupSpec g).mc.toNat, k = sharesBefore s g + m := by
  induction n with
  | zero => exact absurd hk (Nat.not_lt_zero k)
  | succ n ih =>
    rw [sharesBefore_succ] at hk
    by_cases hlow : k < sharesBefore s n
    · obtain ⟨g, hg, hmember⟩ := ih hlow
      exact ⟨g, by omega, hmember⟩
    · exact ⟨n, n.lt_succ_self, k - sharesBefore s n, by omega, by omega⟩

/-! ### Presented shares -/

/-- The fields of the share of member `m` of group `g`, decoded from a slot. -/
def splitShare (cfg : Config) (s : State) (bs : List Byte) (slot g m : Nat) : DecodedShare where
  slot := slot
  id := (splitOutput cfg s bs).id
  gt := s.splitcfg.gt.toNat
  gc := s.splitcfg.gc.toNat
  gi := g
  mt := (s.groupSpec g).mt.toNat
  mi := m
  rsv := 0#4
  payload := (memberVectors cfg s bs g).getD m []

/-- The decoded shares `hs` are those of the split's slots `ks`. -/
structure Presents (cfg : Config) (s : State) (bs : List Byte) (ks : List Nat) (hs : List DecodedShare) : Prop where
  mem : ∀ h ∈ hs, ∃ slot, ∃ g < s.splitcfg.gc.toNat, ∃ m < (s.groupSpec g).mc.toNat,
    sharesBefore s g + m ∈ ks ∧ h = splitShare cfg s bs slot g m
  complete : ∀ g < s.splitcfg.gc.toNat, ∀ m < (s.groupSpec g).mc.toNat, sharesBefore s g + m ∈ ks →
    ∃ slot, splitShare cfg s bs slot g m ∈ hs

/-- The members of group `g` among the presented slots. -/
def presentMembers (s : State) (ks : List Nat) (g : Nat) : List Nat :=
  (List.range (s.groupSpec g).mc.toNat).filter fun m => decide (sharesBefore s g + m ∈ ks)

/-- The groups with enough members among the presented slots. -/
def presentGroups (s : State) (ks : List Nat) : List Nat :=
  (List.range s.splitcfg.gc.toNat).filter fun g => decide ((s.groupSpec g).mt.toNat ≤ membersPresent s ks g)

theorem mem_presentMembers {s : State} {ks : List Nat} {g m : Nat} :
    m ∈ presentMembers s ks g ↔ m < (s.groupSpec g).mc.toNat ∧ sharesBefore s g + m ∈ ks := by
  simp [presentMembers]

theorem mem_presentGroups {s : State} {ks : List Nat} {g : Nat} :
    g ∈ presentGroups s ks ↔ g < s.splitcfg.gc.toNat ∧ (s.groupSpec g).mt.toNat ≤ (presentMembers s ks g).length := by
  simp only [presentGroups, List.mem_filter, List.mem_range, decide_eq_true_eq]
  rfl

section Presented

variable {cfg : Config} {s : State} {bs : List Byte} {ks : List Nat} {hs : List DecodedShare}

theorem Presents.consistent (h : Presents cfg s bs ks hs) {h0 : DecodedShare} (h0mem : h0 ∈ hs) : Consistent h0 hs := by
  obtain ⟨slot0, g0, hg0, m0, hm0, -, rfl⟩ := h.mem h0 h0mem
  refine ⟨fun x hx => ?_, fun x hx y hy hgi => ?_⟩
  · obtain ⟨slot, g, hg, m, hm, -, rfl⟩ := h.mem x hx
    exact ⟨rfl, (length_memberVector hg hm).trans (length_memberVector hg0 hm0).symm, rfl, rfl⟩
  · obtain ⟨slot, g, hg, m, hm, -, rfl⟩ := h.mem x hx
    obtain ⟨slot', g', hg', m', hm', -, rfl⟩ := h.mem y hy
    obtain rfl : g = g' := hgi
    refine ⟨rfl, fun hmi => ?_⟩
    obtain rfl : m = m' := hmi
    rfl

/-- The first share with given indices is kept (R225). -/
theorem exists_mem_keptShares {x : DecodedShare} (hx : x ∈ hs) : ∃ y ∈ keptShares hs, y.gi = x.gi ∧ y.mi = x.mi := by
  have hsome : (firstTwin hs x).isSome := List.find?_isSome.mpr ⟨x, hx, by simp⟩
  obtain ⟨y, hy⟩ := Option.isSome_iff_exists.mp hsome
  have hindices : y.gi = x.gi ∧ y.mi = x.mi := by simpa using List.find?_some hy
  have htwin : firstTwin hs y = some y := by
    rw [← hy, firstTwin, firstTwin, hindices.1, hindices.2]
  refine ⟨y, List.mem_filter.mpr ⟨List.mem_of_find?_eq_some hy, ?_⟩, hindices⟩
  simp [htwin]

/-- Keeping one share of each member (R225) keeps every member presented. -/
theorem Presents.keptShares (h : Presents cfg s bs ks hs) : Presents cfg s bs ks (keptShares hs) where
  mem x hx := h.mem x (List.mem_of_mem_filter hx)
  complete g hg m hm hk := by
    obtain ⟨slot, hmem⟩ := h.complete g hg m hm hk
    obtain ⟨y, hy, hgi, hmi⟩ := exists_mem_keptShares hmem
    obtain ⟨slot', g', -, m', -, -, rfl⟩ := h.mem y (List.mem_of_mem_filter hy)
    obtain rfl : g' = g := hgi
    obtain rfl : m' = m := hmi
    exact ⟨slot', hy⟩

/-! ### Members and thresholds (R226) -/

/-- What a search for a member finds. -/
theorem Presents.find?_member (h : Presents cfg s bs ks hs) {g : Nat} (hg : g < s.splitcfg.gc.toNat) (m : Nat) :
    (hs.find? fun x => x.gi == g && x.mi == m).map memberPoint =
      if m ∈ presentMembers s ks g then some ⟨shareX m, (memberVectors cfg s bs g).getD m []⟩ else none := by
  split
  · next hm =>
    obtain ⟨hmc, hk⟩ := mem_presentMembers.mp hm
    obtain ⟨slot, hmem⟩ := h.complete g hg m hmc hk
    have hsome : (hs.find? fun x => x.gi == g && x.mi == m).isSome :=
      List.find?_isSome.mpr ⟨_, hmem, by simp [splitShare]⟩
    obtain ⟨x, hx⟩ := Option.isSome_iff_exists.mp hsome
    obtain ⟨slot', g', -, m', -, -, rfl⟩ := h.mem x (List.mem_of_find?_eq_some hx)
    have hindices : g' = g ∧ m' = m := by simpa [splitShare] using List.find?_some hx
    obtain ⟨rfl, rfl⟩ := hindices
    rw [hx]
    rfl
  · next hm =>
    rw [Option.map_eq_none_iff, List.find?_eq_none]
    intro x hx hindices
    obtain ⟨slot, g', -, m', hmc, hk, rfl⟩ := h.mem x hx
    obtain ⟨rfl, rfl⟩ : g' = g ∧ m' = m := by simpa [splitShare] using hindices
    exact hm (mem_presentMembers.mpr ⟨hmc, hk⟩)

/-- The points of a group's members are its shares (R228). -/
theorem Presents.groupMembers_eq (h : Presents cfg s bs ks hs) (hlegal : SplitLegal s) {g : Nat}
    (hg : g < s.splitcfg.gc.toNat) :
    (groupMembers hs g).map memberPoint = sharePoints (presentMembers s ks g) (memberVectors cfg s bs g) := by
  obtain ⟨-, -, -, -, -, hgroups⟩ := hlegal
  obtain ⟨-, -, hmc⟩ := hgroups g hg
  have hmembers : (List.range 16).filter (fun m => decide (m ∈ presentMembers s ks g)) = presentMembers s ks g :=
    filter_range_sixteen hmc fun m _ => by simp [mem_presentMembers]
  rw [groupMembers, List.map_filterMap, sharePoints, ← hmembers, ← List.filterMap_eq_map, List.filterMap_filter]
  refine List.filterMap_congr fun m _ => ?_
  rw [h.find?_member hg]
  simp

theorem Presents.groupThreshold_eq (h : Presents cfg s bs ks hs) {g mt : Nat} (hmt : groupThreshold hs g = some mt) :
    g < s.splitcfg.gc.toNat ∧ mt = (s.groupSpec g).mt.toNat := by
  obtain ⟨x, hx, rfl⟩ := Option.map_eq_some_iff.mp hmt
  obtain ⟨slot, g', hg, m, -, -, rfl⟩ := h.mem x (List.mem_of_find?_eq_some hx)
  obtain rfl : g' = g := by simpa [splitShare] using List.find?_some hx
  exact ⟨hg, rfl⟩

/-- A group with a member has its threshold. -/
theorem Presents.groupThreshold_of_mem (h : Presents cfg s bs ks hs) {g m : Nat} (hg : g < s.splitcfg.gc.toNat)
    (hm : m ∈ presentMembers s ks g) : groupThreshold hs g = some (s.groupSpec g).mt.toNat := by
  obtain ⟨hmc, hk⟩ := mem_presentMembers.mp hm
  obtain ⟨slot, hmem⟩ := h.complete g hg m hmc hk
  have hsome : (hs.find? fun x => x.gi == g).isSome := List.find?_isSome.mpr ⟨_, hmem, by simp [splitShare]⟩
  obtain ⟨x, hx⟩ := Option.isSome_iff_exists.mp hsome
  have hmt : groupThreshold hs g = some x.mt := by rw [groupThreshold, hx]; rfl
  obtain ⟨-, hspec⟩ := h.groupThreshold_eq hmt
  rw [hmt, hspec]

/-- The groups that qualify are those with enough members present (R226, R227). -/
theorem Presents.groupQualifies_iff (h : Presents cfg s bs ks hs) (hlegal : SplitLegal s) (g : Nat) :
    groupQualifies hs g = true ↔ g ∈ presentGroups s ks := by
  have hlength : g < s.splitcfg.gc.toNat → (groupMembers hs g).length = (presentMembers s ks g).length := fun hg => by
    have hpoints := congrArg List.length (h.groupMembers_eq hlegal hg)
    rwa [List.length_map, sharePoints, List.length_map] at hpoints
  rw [Machine.groupQualifies_iff, mem_presentGroups]
  constructor
  · rintro ⟨mt, hmt, henough⟩
    obtain ⟨hg, rfl⟩ := h.groupThreshold_eq hmt
    exact ⟨hg, henough.trans_eq (hlength hg)⟩
  · rintro ⟨hg, henough⟩
    obtain ⟨-, -, -, -, -, hgroups⟩ := hlegal
    obtain ⟨hmt, -, -⟩ := hgroups g hg
    obtain ⟨m, hm⟩ := List.exists_mem_of_length_pos (hmt.trans henough)
    exact ⟨_, h.groupThreshold_of_mem hg hm, henough.trans_eq (hlength hg).symm⟩

theorem Presents.qualifyingGroups_eq (h : Presents cfg s bs ks hs) (hlegal : SplitLegal s) :
    qualifyingGroups hs = presentGroups s ks := by
  obtain ⟨-, -, h16, -, -, -⟩ := id hlegal
  refine filter_range_sixteen h16 fun g _ => ?_
  rw [h.groupQualifies_iff hlegal]
  simp [presentGroups]

/-! ### The two levels (R228, R229) -/

/-- A group with enough members present recombines to its secret. -/
theorem Presents.recombineGroup_eq (h : Presents cfg s bs ks hs) (hcfg : cfg.Legal) (hlegal : SplitLegal s)
    (hbs : bs.length = splitDraws s) {g : Nat} (hg : g ∈ presentGroups s ks) :
    recombineGroup cfg hs s.len g = .ok ((groupSecrets cfg s bs).getD g []) := by
  obtain ⟨hgc, henough⟩ := mem_presentGroups.mp hg
  obtain ⟨hlen, -, -, -, -, hgroups⟩ := id hlegal
  obtain ⟨-, h16, -⟩ := (lenOK_iff _).mp hlen
  obtain ⟨hmt, -, hmc⟩ := hgroups g hgc
  obtain ⟨m, hm⟩ := List.exists_mem_of_length_pos (hmt.trans henough)
  have hS := length_groupSecret cfg s bs hgc
  have hdrawn : levelDraws (s.groupSpec g).mt.toNat true s.len ≤ (bs.drop (drawsBefore s g)).length := by
    have hnext : drawsBefore s (g + 1) ≤ splitDraws s := drawsBefore_mono s (Nat.succ_le_of_lt hgc)
    rw [drawsBefore_succ] at hnext
    rw [List.length_drop, hbs]
    omega
  have hlevel := shamirRecombine_splitVectors (c := (s.groupSpec g).mc.toNat) (dg := true)
    (drawn := bs.drop (drawsBefore s g)) hcfg hmt hmc (show 4 ≤ ((groupSecrets cfg s bs).getD g []).length by omega)
    (by rwa [hS]) (List.nodup_range.filter _) (fun i hi => (mem_presentMembers.mp hi).1) henough (infoGroup g)
  rw [hS] at hlevel
  rw [recombineGroup, h.groupThreshold_of_mem hgc hm, Option.getD_some, h.groupMembers_eq hlegal hgc]
  exact hlevel

theorem Presents.recombineGroups_eq (h : Presents cfg s bs ks hs) (hcfg : cfg.Legal) (hlegal : SplitLegal s)
    (hbs : bs.length = splitDraws s) {gs : List Nat} (hgs : ∀ g ∈ gs, g ∈ presentGroups s ks) :
    recombineGroups cfg hs s.len gs = .ok (sharePoints gs (groupSecrets cfg s bs)) := by
  induction gs with
  | nil => rfl
  | cons g gs ih =>
    rw [recombineGroups, h.recombineGroup_eq hcfg hlegal hbs (hgs g List.mem_cons_self),
      ih fun i hi => hgs i (List.mem_cons_of_mem g hi)]
    rfl

/-- Phases 6 to 9 give back the secret when enough groups have enough members present. -/
theorem Presents.recombineKept_eq (h : Presents cfg s bs ks hs) (hcfg : cfg.Legal) (hlegal : SplitLegal s)
    (hbs : bs.length = splitDraws s) :
    recombineKept cfg hs s.len s.splitcfg.gt.toNat =
      if s.splitcfg.gt.toNat ≤ groupsPresent s ks then .ok (s.secretVec s.len)
      else .error ⟨.insufficientShares, infoOuter⟩ := by
  have hqualifying := h.qualifyingGroups_eq hlegal
  obtain ⟨hlen, -, h16, ht, -, -⟩ := id hlegal
  obtain ⟨-, hL, -⟩ := (lenOK_iff _).mp hlen
  split
  · next henough =>
    have hselected : ∀ g ∈ (presentGroups s ks).take s.splitcfg.gt.toNat, g ∈ presentGroups s ks :=
      fun g hg => List.mem_of_mem_take hg
    have hdrawn : levelDraws s.splitcfg.gt.toNat true s.len ≤ (bs.drop 2).length := by
      rw [List.length_drop, hbs, splitDraws]
      omega
    have hlevel := shamirRecombine_splitVectors (c := s.splitcfg.gc.toNat) (dg := true) (S := s.secretVec s.len)
      (drawn := bs.drop 2) hcfg ht h16 (by rw [s.secretVec_length]; omega)
      (by rwa [s.secretVec_length]) ((List.nodup_range.filter _).sublist (List.take_sublist s.splitcfg.gt.toNat _))
      (fun g hg => (mem_presentGroups.mp (hselected g hg)).1)
      (by rw [List.length_take]; exact le_min le_rfl henough) infoOuter
    rw [s.secretVec_length] at hlevel
    rw [recombineKept_of_groups (henough.trans_eq (congrArg List.length hqualifying.symm))
      (by rw [hqualifying]; exact h.recombineGroups_eq hcfg hlegal hbs hselected)]
    exact hlevel
  · next hfew =>
    refine recombineKept_of_few ?_
    rw [hqualifying]
    exact not_le.mp hfew

/-- Phases 3 to 9 on any presented shares. -/
theorem Presents.recombineShares_eq (h : Presents cfg s bs ks hs) (hcfg : cfg.Legal) (hlegal : SplitLegal s)
    (hbs : bs.length = splitDraws s) (hne : hs ≠ []) :
    recombineShares cfg hs =
      if s.splitcfg.gt.toNat ≤ groupsPresent s ks then .ok ⟨s.secretVec s.len, (splitOutput cfg s bs).id⟩
      else .error ⟨.insufficientShares, infoOuter⟩ := by
  obtain ⟨h0, hhead⟩ := Option.isSome_iff_exists.mp (List.isSome_head?.mpr hne)
  have hmem : h0 ∈ hs := List.mem_of_head? hhead
  rw [(h.consistent hmem).recombineShares_eq hhead]
  obtain ⟨slot, g, hg, m, hm, -, rfl⟩ := h.mem h0 hmem
  have hL : (splitShare cfg s bs slot g m).payload.length = s.len := length_memberVector hg hm
  rw [hL, show (splitShare cfg s bs slot g m).gt = s.splitcfg.gt.toNat from rfl,
    h.keptShares.recombineKept_eq hcfg hlegal hbs]
  split <;> rfl

end Presented

/-! ### The shares of a split, decoded (R222) -/

section Decoded

variable {cfg : Config} {s : State} {bs : List Byte}

theorem HeaderLegal.of_splitLegal (h : SplitLegal s) {g m : Nat} (hg : g < s.splitcfg.gc.toNat)
    (hm : m < (s.groupSpec g).mc.toNat) :
    HeaderLegal s.splitcfg.gt.toNat s.splitcfg.gc.toNat g (s.groupSpec g).mt.toNat m := by
  obtain ⟨-, -, h16, ht, htc, hgroups⟩ := h
  obtain ⟨hmt, hmtc, hmc⟩ := hgroups g hg
  exact ⟨ht, htc, h16, hg, hmt, hmtc.trans hmc, by omega⟩

/-- The share in a member's slot reads as its fields. -/
theorem readShareFields_splitOutput (h : SplitLegal s) {g m : Nat} (hg : g < s.splitcfg.gc.toNat)
    (hm : m < (s.groupSpec g).mc.toNat) (slot : Nat) :
    readShareFields (padTo 64 ((splitOutput cfg s bs).shares.getD (sharesBefore s g + m) [])) (5 + s.len) slot =
      splitShare cfg s bs slot g m := by
  rw [getD_splitOutput_shares hg hm, ← length_memberVector (cfg := cfg) (bs := bs) hg hm]
  exact readShareFields_encodeShare (HeaderLegal.of_splitLegal h hg hm) _ _ slot

theorem presented_length (o : SplitOutput) (L : Nat) (ks : List Nat) : (presented o L ks).length = ks.length := by
  simp [presented]

theorem presents_presented (h : SplitLegal s) {ks : List Nat}
    (hks : ∀ k ∈ ks, k < sharesBefore s s.splitcfg.gc.toNat) :
    Presents cfg s bs ks (presented (splitOutput cfg s bs) s.len ks) where
  mem x hx := by
    obtain ⟨slot, hslot, rfl⟩ := List.mem_map.mp hx
    have hslot := List.mem_range.mp hslot
    have hmem : ks.getD slot 0 ∈ ks := by
      rw [List.getD_eq_getElem _ _ hslot]
      exact List.getElem_mem hslot
    obtain ⟨g, hg, m, hm, hk⟩ := exists_member_of_lt_sharesBefore s (hks _ hmem)
    refine ⟨slot, g, hg, m, hm, by rwa [← hk], ?_⟩
    rw [hk, readShareFields_splitOutput h hg hm]
  complete g hg m hm hk := by
    obtain ⟨slot, hslot, hget⟩ := List.getElem_of_mem hk
    refine ⟨slot, List.mem_map.mpr ⟨slot, List.mem_range.mpr hslot, ?_⟩⟩
    rw [List.getD_eq_getElem _ _ hslot, hget, readShareFields_splitOutput h hg hm]

/-- What a drawn split delivers is the output that some bytes of R217's number give. -/
theorem sskrSplit_eq_drawn {d d' : Drawing} {o : SplitOutput} (h : sskrSplit cfg s d = .drawn o d') :
    ∃ bs, bs.length = splitDraws s ∧ o = splitOutput cfg s bs := by
  rw [sskrSplit_eq] at h
  obtain ⟨bs, hbs, rfl⟩ := DrawResult.map_eq_drawn h
  exact ⟨bs, (drawVector_drawn hbs).1, rfl⟩

end Decoded

/-- Settles O55: the presented shares are shares of the split. -/
theorem sskrRecombineInvertsSplit : Obligations.SskrRecombineInvertsSplit := by
  intro cfg s d d' o ks hcfg hlegal hsplit hne hks
  obtain ⟨hcount, -⟩ := sskrSplit_lengths hsplit
  obtain ⟨bs, hbs, rfl⟩ := sskrSplit_eq_drawn hsplit
  have hpresents := presents_presented (cfg := cfg) (bs := bs) hlegal fun k hk => (hks k hk).trans_eq hcount
  refine hpresents.recombineShares_eq hcfg hlegal hbs fun hnil => ?_
  exact hne (List.length_eq_zero_iff.mp ((presented_length _ _ _).symm.trans (congrArg List.length hnil)))

/-! ### The command on slots that hold shares of a split -/

/-- A slot that begins with a member's share decodes to its fields, in either mode. -/
theorem decodeSlot_of_member {cfg : Config} {s u : State} {bs : List Byte} (h : SplitLegal s) {g m j : Nat}
    (hg : g < s.splitcfg.gc.toNat) (hm : m < (s.groupSpec g).mc.toNat) (hslen : u.slen j = 5 + s.len)
    (hbytes : ∀ p < 5 + s.len, at_ u (0x4000 + 64 * j + p) =
      byteAt ((splitOutput cfg s bs).shares.getD (sharesBefore s g + m) []) p) :
    u.decodeSlot j = .ok (splitShare cfg s bs j g m) := by
  have hL := length_memberVector (cfg := cfg) (bs := bs) hg hm
  obtain ⟨-, -, h32⟩ := (lenOK_iff _).mp h.1
  obtain ⟨hgt, hgtc, hgc, hgi, hmt, hmt16, hmi⟩ := HeaderLegal.of_splitLegal h hg hm
  have hdecode := encodedSharesDecodeToTheirFields (splitOutput cfg s bs).id s.splitcfg.gt.toNat s.splitcfg.gc.toNat g
    (s.groupSpec g).mt.toNat m j ((memberVectors cfg s bs g).getD m []) u.ctrl.strict hgt hgtc hgc hgi hmt hmt16 hmi
    (by rw [hL]; exact h.1)
  have hlength := encodeShare_length (splitOutput cfg s bs).id s.splitcfg.gt.toNat s.splitcfg.gc.toNat g
    (s.groupSpec g).mt.toNat m ((memberVectors cfg s bs g).getD m [])
  rw [getD_splitOutput_shares hg hm] at hbytes
  rw [hL] at hdecode hlength
  generalize encodeShare (splitOutput cfg s bs).id s.splitcfg.gt.toNat s.splitcfg.gc.toNat g (s.groupSpec g).mt.toNat m
    ((memberVectors cfg s bs g).getD m []) = V at hdecode hlength hbytes
  have hslot : (u.shareSlot j).take (5 + s.len) = V := by
    have htake : ((u.shareSlot j).take (5 + s.len)).length = 5 + s.len := by
      rw [List.length_take, State.shareSlot_length, min_eq_left (by omega)]
    refine eq_of_byteAt_eq (htake.trans hlength.symm) fun p hp => ?_
    rw [htake] at hp
    rw [byteAt_take _ hp, State.shareSlot, Memory.byteAt_readBytes _ _ _ _ (by rw [Config.slotBytes]; omega)]
    exact hbytes p hp
  have hpad : (padTo 64 V).take (5 + s.len) = V := List.take_left' hlength
  rw [State.decodeSlot, hslen, ← decodeShare_take, hslot]
  rw [← decodeShare_take, hpad] at hdecode
  exact hdecode

theorem getD_presented (o : SplitOutput) (L : Nat) {ks : List Nat} {j : Nat} (hj : j < ks.length) (x : DecodedShare) :
    (presented o L ks).getD j x = readShareFields (padTo 64 (o.shares.getD (ks.getD j 0) [])) (5 + L) j := by
  simp [presented, hj]

/-- Slots that hold shares of a split deliver the presented shares. -/
theorem delivers_presented {cfg : Config} {s u : State} {bs : List Byte} {ks : List Nat} (h : SplitLegal s)
    (hne : ks ≠ []) (h256 : ks.length ≤ 256) (hks : ∀ k ∈ ks, k < sharesBefore s s.splitcfg.gc.toNat)
    (hcount : u.sharecnt.toNat = ks.length)
    (hslots : ∀ j < ks.length, u.slen j = 5 + s.len ∧ ∀ p < 5 + s.len, at_ u (0x4000 + 64 * j + p) =
      byteAt ((splitOutput cfg s bs).shares.getD (ks.getD j 0) []) p) :
    ∃ h0, u.Delivers h0 (presented (splitOutput cfg s bs) s.len ks) := by
  have hpos : 0 < (presented (splitOutput cfg s bs) s.len ks).length := by
    rw [presented_length]
    exact List.length_pos_iff.mpr hne
  obtain ⟨h0, hhead⟩ := Option.isSome_iff_exists.mp (List.isSome_head?.mpr (List.length_pos_iff.mp hpos))
  rw [presented_length] at hpos
  refine ⟨h0, ⟨by omega, by omega, by rw [presented_length, hcount], hhead, fun j hj => ?_⟩⟩
  rw [hcount] at hj
  obtain ⟨hslen, hbytes⟩ := hslots j hj
  have hmem : ks.getD j 0 ∈ ks := by
    rw [List.getD_eq_getElem _ _ hj]
    exact List.getElem_mem hj
  obtain ⟨g, hg, m, hm, hk⟩ := exists_member_of_lt_sharesBefore s (hks _ hmem)
  rw [hk] at hbytes
  rw [getD_presented _ _ hj, hk, readShareFields_splitOutput h hg hm, decodeSlot_of_member h hg hm hslen hbytes]

/-- Settles O56: the slots deliver the presented shares, and the command ends as their recombination does. -/
theorem sskrRecombineCommandInvertsSplit : Obligations.SskrRecombineCommandInvertsSplit := by
  intro s u d d' o ks hlegal hsplit hne h256 hks hcount hslots
  have hinverts := sskrRecombineInvertsSplit hwConfig s d d' o ks (by decide) hlegal hsplit hne hks
  obtain ⟨hshares, -⟩ := sskrSplit_lengths hsplit
  obtain ⟨bs, hbs, rfl⟩ := sskrSplit_eq_drawn hsplit
  obtain ⟨h0, hdelivers⟩ :=
    delivers_presented hlegal hne h256 (fun k hk => (hks k hk).trans_eq hshares) hcount hslots
  rw [← hdelivers.sskrRecombine_eq] at hinverts
  split_ifs at hinverts ⊢ with henough
  · obtain ⟨t, hexec, hsecret, hrest, hframe⟩ := exec_sskrRecombine_effect_of_ok hinverts
    rw [s.secretVec_length] at hframe
    refine ⟨t, hexec, hrest, fun p hp => (hsecret p hp).trans ?_, hframe⟩
    split
    · next hpL => exact Memory.byteAt_readBytes _ _ _ _ hpL
    · next hpL => exact byteAt_of_length_le (by rw [s.secretVec_length]; omega)
  · obtain ⟨t, hexec, hzero, hrest, hframe⟩ := exec_sskrRecombine_effect_of_error hinverts
    exact ⟨t, hexec, hrest, hzero, hframe⟩

end Sys2Proof.Machine
